-- ==== Sys2Proof/Word.lean ====
section
/-! DEFINITION. The words of ZBE (00_scope.md R9): bytes, u16, u32 and the bit patterns of binary64 values, and the record of eight like things that the mixer and the DBG_W registers use. -/

namespace Sys2Proof

/-- A byte: an integer in [0, 256) (R9). -/
abbrev Byte := BitVec 8

/-- A u16 (R9): a probability of the predictors and of the mixer. -/
abbrev U16 := BitVec 16

/-- A u32 (R9): a descriptor word, an MMIO register, a coder bound. -/
abbrev U32 := BitVec 32

/-- The encoding of an IEEE 754 binary64 value (R13). -/
abbrev F64 := BitVec 64

/-- Eight like things with the predictor indices 0 to 7 (R135): predictions, weights, DBG_W halves. -/
structure Eight (α : Type) where
  x0 : α
  x1 : α
  x2 : α
  x3 : α
  x4 : α
  x5 : α
  x6 : α
  x7 : α
deriving DecidableEq, Repr, Inhabited

/-- The same thing at all eight indices. -/
def Eight.all {α : Type} (a : α) : Eight α := ⟨a, a, a, a, a, a, a, a⟩

/-- A function applied at every index. -/
def Eight.map {α β : Type} (f : α → β) (e : Eight α) : Eight β :=
  ⟨f e.x0, f e.x1, f e.x2, f e.x3, f e.x4, f e.x5, f e.x6, f e.x7⟩

/-- A function of two records applied index by index. -/
def Eight.zip {α β γ : Type} (f : α → β → γ) (a : Eight α) (b : Eight β) : Eight γ :=
  ⟨f a.x0 b.x0, f a.x1 b.x1, f a.x2 b.x2, f a.x3 b.x3, f a.x4 b.x4, f a.x5 b.x5, f a.x6 b.x6, f a.x7 b.x7⟩

/-- A left fold in index order 0, 1, …, 7: the order of the mixer's sum (R155). -/
def Eight.foldl {α β : Type} (f : β → α → β) (b : β) (e : Eight α) : β :=
  f (f (f (f (f (f (f (f b e.x0) e.x1) e.x2) e.x3) e.x4) e.x5) e.x6) e.x7

/-- The thing at an index. -/
def Eight.get {α : Type} (e : Eight α) : Fin 8 → α
  | 0 => e.x0 | 1 => e.x1 | 2 => e.x2 | 3 => e.x3 | 4 => e.x4 | 5 => e.x5 | 6 => e.x6 | 7 => e.x7

end Sys2Proof
end

