-- ==== Sys2Proof/Syntax.lean ====
section
/-! DEFINITION. The descriptor of eight words (30_encoding.md R79) and the fourteen commands, one constructor per row of spec/opcode_table.json. A constructor keeps the flags and operand words its row admits (R82, R86) as the descriptor holds them. -/

namespace Sys2Proof

/-- A descriptor: the eight u32 words W0 to W7 (R79). -/
structure Descriptor where
  w0 : U32
  w1 : U32
  w2 : U32
  w3 : U32
  w4 : U32
  w5 : U32
  w6 : U32
  w7 : U32
deriving DecidableEq, Repr, Inhabited

/-- The commands of the opcode map (R87). `l`, `p`, `a` are the flags W0[8], W0[9], W0[10] where the
opcode allows them (R86). `src`, `dst`, `len`, `arg` are W1, W2, W3, W4 where the opcode has the
operand (R82); every other word of the descriptor is 0. -/
inductive Instr where
  | nop
  | halt
  | bwtFwd (l : Bool) (src dst len : U32)
  | bwtInv (l p : Bool) (src dst len arg : U32)
  | mtfEnc (l : Bool) (src dst len : U32)
  | mtfDec (l : Bool) (src dst len : U32)
  | rle0Enc (l a : Bool) (src dst len arg : U32)
  | rle0Dec (l a : Bool) (src dst len arg : U32)
  | cmEnc (l a : Bool) (src dst len arg : U32)
  | cmDec (l a : Bool) (src dst len arg : U32)
  | blkEnc (l a : Bool) (src dst len arg : U32)
  | blkDec (l a : Bool) (src dst len arg : U32)
  | strEnc (l a : Bool) (src dst len arg : U32)
  | strDec (l a : Bool) (src dst len arg : U32)
deriving DecidableEq, Repr

end Sys2Proof
end

