-- ==== Sys2Proof/Machine/Units.lean ====
section
/-! DEFINITION. The records of the internal units and of the sequencer's latch (10_state.md R48 to R58), with the initial value every stage run starts from (R47). Maps with a default are tables of the keys written so far. -/

namespace Sys2Proof.Machine

/-- The effective operands of the current command (40_sequencer.md R98). -/
structure Operands where
  src : U32
  dst : U32
  lenEff : U32
  argEff : U32
deriving DecidableEq, Repr, Inhabited

/-- BWT unit scratch (10_state.md R49): the block, the sorted rotation order, and the inverse's arrays. -/
structure BwtUnit where
  s : List Byte
  sa : List Nat
  cnt : List Nat
  c : List Nat
  next : List Nat
deriving DecidableEq, Repr, Inhabited

/-- RLE0 unit: positions in input and output and the current run count (10_state.md R51). -/
structure RleUnit where
  inPos : Nat
  outPos : Nat
  run : Nat
deriving DecidableEq, Repr, Inhabited

/-- Byte-context model of order k (10_state.md R52). A key that `tab` does not list holds (0, 0). -/
structure ByteCtx where
  k : Nat
  hist : List Byte
  tab : List (Nat × (Nat × Nat))
deriving DecidableEq, Repr, Inhabited

/-- Its initial value (R52). -/
def ByteCtx.init (k : Nat) : ByteCtx := ⟨k, [], []⟩

/-- Bit-context model of order 24 (10_state.md R53). A key that `tab` does not list holds (0, 0). -/
structure BitCtx where
  hb : BitVec 24
  nb : Nat
  tab : List (Nat × (Nat × Nat))
deriving DecidableEq, Repr, Inhabited

/-- Its initial value (R53). -/
def BitCtx.init : BitCtx := ⟨0, 0, []⟩

/-- Match model with context length c (10_state.md R54). A position that `buf` does not list holds 0, a
key that `mtab` does not list is absent. -/
structure MatchModel where
  c : Nat
  buf : List (Nat × Byte)
  bufPos : Nat
  mtab : List (Nat × Nat)
  matchPos : Nat
  matchLen : Nat
  bitPos : Nat
deriving DecidableEq, Repr, Inhabited

/-- Its initial value (R54). -/
def MatchModel.init (c : Nat) : MatchModel := ⟨c, [], 0, [], 0, 0, 0⟩

/-- LZP model (10_state.md R55). A position that `lbuf` does not list holds 0, one that `nxt` does not list is NIL. -/
structure LzpModel where
  lbuf : List (Nat × Byte)
  nxt : List (Nat × Nat)
  prev : Byte
  pos : Nat
deriving DecidableEq, Repr, Inhabited

/-- Its initial value (R55). -/
def LzpModel.init : LzpModel := ⟨[], [], 0, 0⟩

/-- The eight predictors in the index order of 44_predictors.md R135. -/
structure Ensemble where
  b1 : ByteCtx
  b2 : ByteCtx
  b3 : ByteCtx
  b4 : ByteCtx
  bit : BitCtx
  m4 : MatchModel
  m8 : MatchModel
  lzp : LzpModel
deriving DecidableEq, Repr, Inhabited

/-- The fresh ensemble of a coder phase (R135, 46_range_coder.md R173). -/
def Ensemble.init : Ensemble :=
  ⟨ByteCtx.init 1, ByteCtx.init 2, ByteCtx.init 3, ByteCtx.init 4, BitCtx.init, MatchModel.init 4, MatchModel.init 8, LzpModel.init⟩

/-- Coder state (10_state.md R57). `code` and `rd` are the decoder's, `out` is the encoder's. -/
structure Coder where
  low : U32
  high : U32
  follow : Nat
  code : U32
  out : List Byte
  rd : Nat
deriving DecidableEq, Repr, Inhabited

/-- The initial coder state (46_range_coder.md R162). -/
def Coder.init : Coder := ⟨0, 0xFFFFFFFF, 0, 0, [], 0⟩

/-- The encoding of 1.0, the initial weight (10_state.md R43, R56). -/
def weightOne : F64 := 0x3FF0000000000000

/-- The state of a coder phase: predictors, mixer weights (10_state.md R56), coder, and what the DBG
snapshot copies of the last bit and the bit count (46_range_coder.md R178). `inv` records that a step
left low > high (R172). -/
structure CmUnit where
  ens : Ensemble
  w : Eight F64
  coder : Coder
  lastPm : U16
  nbits : Nat
  inv : Bool
deriving DecidableEq, Repr, Inhabited

/-- The fresh state of a coder phase (46_range_coder.md R173). -/
def CmUnit.init : CmUnit := ⟨Ensemble.init, Eight.all weightOne, Coder.init, 0, 0, false⟩

/-- Block-driver scratch: the intermediate sequences of one block (10_state.md R58). -/
structure BlkUnit where
  last : List Byte
  mtf : List Byte
  rle : List Byte
deriving DecidableEq, Repr, Inhabited

/-- The identity rank table (10_state.md R50). -/
def mtfIdentity : List Byte := (List.range 256).map (BitVec.ofNat 8)

/-- Everything the spec says lives only while a command executes: the sequencer's latch and effective
operands (R48) and the units' state (R49 to R58). -/
structure Scratch where
  latch : Descriptor
  operands : Operands
  bwt : BwtUnit
  mtf : List Byte
  rle : RleUnit
  cm : CmUnit
  blk : BlkUnit
deriving DecidableEq, Repr, Inhabited

/-- The scratch as State.reset names it: the units at the initial values of R50 to R58, the latch and the
operands at 0. DESIGN CHOICE (unsafe, log 16): the spec leaves all of it unspecified and unobservable (R59). -/
def Scratch.init : Scratch :=
  ⟨⟨0, 0, 0, 0, 0, 0, 0, 0⟩, ⟨0, 0, 0, 0⟩, ⟨[], [], [], [], []⟩, mtfIdentity, ⟨0, 0, 0⟩, CmUnit.init, ⟨[], [], []⟩⟩

/-- The debug registers (10_state.md R41, R42, R43). -/
structure Dbg where
  low : U32
  high : U32
  follow : U32
  code : U32
  pmix : U32
  nbits : U32
  wLo : Eight U32
  wHi : Eight U32
deriving DecidableEq, Repr, Inhabited

/-- Their reset values (10_state.md R27). -/
def Dbg.reset : Dbg := ⟨0, 0xFFFFFFFF, 0, 0, 0, 0, Eight.all 0, Eight.all 0x3FF00000⟩

end Sys2Proof.Machine
end

