-- ==== Sys2Proof/Config.lean ====
section
/-! DEFINITION. What an implementation of ZBE fixes (00_scope.md R7) and the free values the spec leaves open. The parameters are plain data that State carries and no step changes. A free value is an opaque constant: no proof can see what it is. -/

namespace Sys2Proof

open Sys2Proof.Machine

/-- CTX_WARMUP_UPDATE (00_scope.md R7, 44_predictors.md R140, R143). -/
inductive WarmupPolicy where
  | partialKey
  | skip
deriving DecidableEq, Repr, Inhabited

/-- The OPEN parameters of 00_scope.md R7 (log 4, log 5). `expPins` and `lnPins` give EXP and LN at
finitely many arguments; at every other argument they are the opaque functions below. -/
structure Config where
  lmemSize : U32
  blockMax : U32
  mmioBase : Nat
  irqLine : Nat
  warmup : WarmupPolicy
  expPins : List (F64 × F64)
  lnPins : List (F64 × F64)
deriving DecidableEq, Repr

/-- The ranges of 00_scope.md R7: 32 ≤ LMEM_SIZE and 1 ≤ BLOCK_MAX (both below 2^32 by their width). -/
def Config.wf (c : Config) : Bool := decide (32 ≤ c.lmemSize.toNat) && decide (1 ≤ c.blockMax.toNat)

/-- The parameter values State.reset carries: those 95_test_vectors.md uses.
DESIGN CHOICE (unsafe, log 4): the spec leaves them OPEN. -/
def Config.standard : Config := ⟨0x1000, 0x1000, 0, 0, .partialKey, [], []⟩

/-- EXP where no pin fixes it (45_mixer.md R159; log 5). -/
opaque Config.expRaw : F64 → F64

/-- LN where no pin fixes it (45_mixer.md R159; log 5). -/
opaque Config.lnRaw : F64 → F64

/-- The mixer's u16 result where R155 gives none: the value to round is not a finite number in
[0, 65535.5) (log 6). -/
opaque Config.freeMix : F64 → U16

/-- The payload and sign an operation gives a NaN result (log 7): a free value of the operation and its operands. -/
opaque Config.freeNan : Nat → F64 → F64 → F64

/-- The byte LMEM holds at an address after the power-on reset with this seed (10_state.md R45,
70_reset_and_hazards.md R211; log 3). -/
opaque Config.powerOnByte : Nat → Nat → Byte

/-- The byte at an address of a destination window that R196 or R212 leaves unspecified (log 9). -/
opaque Config.freeByte : Nat → Nat → Byte

/-- The DBG registers after a fault in a command that had started a coder phase (46_range_coder.md R178; log 10). -/
opaque Config.freeDbg : Nat → Dbg

/-- What a host read of an inexact register returns while BUSY (20_memory.md R71; log 11). -/
opaque Config.freeRead : Nat → U32

/-- The unit state and the sequencer latch between commands (10_state.md R47, R48, R59; log 8). -/
opaque Config.freeScratch : Nat → Scratch

end Sys2Proof
end

