-- ==== Sys2Proof/Machine/Float64.lean ====
section
/-! DEFINITION. IEEE 754 binary64 arithmetic with roundTiesToEven on bit patterns (00_scope.md R13, R14), computed exactly on naturals and rounded once, and the configuration functions EXP and LN (45_mixer.md R159). That "f64" is binary64 is the spec's own reading (93_implementation_defined.md G1). -/

namespace Sys2Proof.Machine

open Sys2Proof

/-! ### Fields of an encoding -/

/-- The sign bit. -/
def fSign (x : F64) : Bool := x.getLsbD 63

/-- The biased exponent field. -/
def fExp (x : F64) : Nat := (x.extractLsb' 52 11).toNat

/-- The fraction field. -/
def fFrac (x : F64) : Nat := (x.extractLsb' 0 52).toNat

/-- The value is a NaN. -/
def fIsNan (x : F64) : Bool := fExp x == 2047 && fFrac x != 0

/-- The value is +∞ or −∞. -/
def fIsInf (x : F64) : Bool := fExp x == 2047 && fFrac x == 0

/-- The value is a finite number. -/
def fIsFinite (x : F64) : Bool := fExp x != 2047

/-- The integer significand m of a finite value: its magnitude is m · 2^(fPos x − 1074). -/
def fMant (x : F64) : Nat := if fExp x = 0 then fFrac x else fFrac x + 2 ^ 52

/-- The power of two of a finite value's significand, counted from 2^−1074. -/
def fPos (x : F64) : Nat := fExp x - 1

/-- The value is +0 or −0. -/
def fIsZero (x : F64) : Bool := fIsFinite x && fMant x == 0

/-! ### Rounding -/

/-- m / 2^k rounded to the nearest integer, ties to even. -/
def roundShift (m k : Nat) : Nat :=
  let q := m / 2 ^ k
  let r := m % 2 ^ k
  if 2 * r > 2 ^ k || (2 * r == 2 ^ k && q % 2 == 1) then q + 1 else q

/-- The encoding (without sign) of +∞. -/
def magInf : Nat := 0x7FF0000000000000

/-- The encoding (without sign) of m · 2^(x − bias) rounded to the nearest binary64, ties to even. The
significand keeps 53 bits, fewer below 2^−1022; a carry out of it moves into the exponent field. -/
def roundMag (bias m x : Nat) : Nat :=
  if m = 0 then 0
  else
    let y := (x + (Nat.log2 m + 1) + 1021) - bias
    let r := if y + bias ≤ x + 1074 then m * 2 ^ (x + 1074 - (y + bias)) else roundShift m (y + bias - (x + 1074))
    min (y * 2 ^ 52 + r) magInf

/-- A sign put on an encoding without one. -/
def withSign (neg : Bool) (mag : Nat) : F64 := BitVec.ofNat 64 ((if neg then 2 ^ 63 else 0) + mag)

/-- A quiet NaN whose sign and payload are free (log 7): IEEE 754 fixes neither. `op` tells the operation. -/
def nanOf (op : Nat) (a b : F64) : F64 := Config.freeNan op a b ||| 0x7FF8000000000000

/-! ### The operations (R13) -/

/-- Negation: the sign bit changes. -/
def fNeg (a : F64) : F64 := a ^^^ 0x8000000000000000

/-- The sum of two finite values. Exact zero sums of opposite signs are +0 under roundTiesToEven. -/
def faddFinite (a b : F64) : F64 :=
  let x := min (fPos a) (fPos b)
  let ma := fMant a * 2 ^ (fPos a - x)
  let mb := fMant b * 2 ^ (fPos b - x)
  if fSign a == fSign b then withSign (fSign a) (roundMag 1074 (ma + mb) x)
  else if ma = mb then withSign false 0
  else if mb < ma then withSign (fSign a) (roundMag 1074 (ma - mb) x)
  else withSign (fSign b) (roundMag 1074 (mb - ma) x)

/-- fadd (R13). -/
def fadd (a b : F64) : F64 :=
  if fIsNan a || fIsNan b then nanOf 0 a b
  else if fIsInf a then (if fIsInf b && fSign a != fSign b then nanOf 0 a b else a)
  else if fIsInf b then b
  else faddFinite a b

/-- fsub (R13). -/
def fsub (a b : F64) : F64 :=
  if fIsNan a || fIsNan b then nanOf 1 a b else fadd a (fNeg b)

/-- fmul (R13). -/
def fmul (a b : F64) : F64 :=
  let neg := fSign a != fSign b
  if fIsNan a || fIsNan b then nanOf 2 a b
  else if fIsInf a || fIsInf b then (if fIsZero a || fIsZero b then nanOf 2 a b else withSign neg magInf)
  else withSign neg (roundMag 2148 (fMant a * fMant b) (fPos a + fPos b))

/-- The quotient of two finite values with a nonzero divisor: 2^110 times the quotient of the significands
with one sticky bit below it decides every rounding. -/
def fdivFinite (a b : F64) : F64 :=
  let n := fMant a * 2 ^ 110
  let m := 2 * (n / fMant b) + (if n % fMant b = 0 then 0 else 1)
  withSign (fSign a != fSign b) (roundMag 2311 m (fPos a + 2200 - fPos b))

/-- fdiv (R13). -/
def fdiv (a b : F64) : F64 :=
  let neg := fSign a != fSign b
  if fIsNan a || fIsNan b then nanOf 3 a b
  else if fIsInf a then (if fIsInf b then nanOf 3 a b else withSign neg magInf)
  else if fIsInf b then withSign neg 0
  else if fIsZero b then (if fIsZero a then nanOf 3 a b else withSign neg magInf)
  else fdivFinite a b

/-- f(n): the binary64 value of an integer, exact below 2^53 (R13). -/
def fOfNat (n : Nat) : F64 := withSign false (roundMag 1074 n 1074)

/-- The order of two values that are no NaN: −0 and +0 are equal. -/
def fLt (a b : F64) : Bool :=
  let ma := a.toNat % 2 ^ 63
  let mb := b.toNat % 2 ^ 63
  match fSign a, fSign b with
  | false, false => decide (ma < mb)
  | false, true => false
  | true, false => !(ma == 0 && mb == 0)
  | true, true => decide (mb < ma)

/-- fmin (R13): the ordinary minimum; no rule feeds it a NaN. -/
def fmin (a b : F64) : F64 := if fLt b a then b else a

/-- fmax (R13): the ordinary maximum; no rule feeds it a NaN. -/
def fmax (a b : F64) : F64 := if fLt a b then b else a

/-- round_half_away(x) for a finite x ≥ 0 (R13): ⌊x + 1/2⌋. -/
def roundHalfAway (x : F64) : Nat := (2 * fMant x * 2 ^ fPos x + 2 ^ 1074) / 2 ^ 1075

/-! ### Literals (R14) -/

/-- 0.0. -/
def fZero : F64 := 0x0000000000000000

/-- 1.0. -/
def fOne : F64 := 0x3FF0000000000000

/-- 65535.0. -/
def f65535 : F64 := 0x40EFFFE000000000

/-- 1e-4: the binary64 value nearest to 0.0001 (R14). -/
def f1em4 : F64 := 0x3F1A36E2EB1C432D

/-- LR: the binary64 value nearest to 0.001 (R14). -/
def fLR : F64 := 0x3F50624DD2F1A9FC

/-- HI = fsub(1.0, 1e-4) (R14). -/
def fHI : F64 := fsub fOne f1em4

/-! ### EXP and LN (45_mixer.md R159) -/

/-- The two configuration functions of an implementation. -/
structure MathEnv where
  exp : F64 → F64
  ln : F64 → F64

/-- The value of a pinned function: the first pin of the argument, else the opaque function. -/
def pinned (pins : List (F64 × F64)) (raw : F64 → F64) (x : F64) : F64 :=
  match pins with
  | [] => raw x
  | e :: t => if x = e.1 then e.2 else pinned t raw x

/-- A conforming EXP or LN returns no NaN for a finite argument (R159). A function that would is read as
1.0 there, so that the functions admitted are exactly the conforming ones (log 5). -/
def conforming (f : F64 → F64) (x : F64) : F64 := if fIsFinite x && fIsNan (f x) then fOne else f x

/-- EXP and LN of a configuration (log 5). -/
def mathOf (c : Config) : MathEnv :=
  ⟨conforming (pinned c.expPins Config.expRaw), conforming (pinned c.lnPins Config.lnRaw)⟩

end Sys2Proof.Machine
end

