-- ==== Sys2Proof/Machine/Mixer.lean ====
section
/-! DEFINITION. The logistic mixer (45_mixer.md R155, R157). -/

namespace Sys2Proof.Machine

open Sys2Proof

/-- `Clamp(x) = fmin(fmax(x, 1e-4), HI)` (R155). -/
def fClamp (x : F64) : F64 := fmin (fmax x f1em4) fHI

/-- `Logit(q) = LN(fdiv(q, fsub(1.0, q)))` (R155). -/
def fLogit (env : MathEnv) (q : F64) : F64 := env.ln (fdiv q (fsub fOne q))

/-- The logit of a prediction: Logit(Clamp(fdiv(f(p), 65535.0))) (R155). -/
def stretch (env : MathEnv) (p : U16) : F64 := fLogit env (fClamp (fdiv (fOfNat p.toNat) f65535))

/-- `sum`: from 0.0, index 0 to 7, left to right (R155). -/
def mixSum (env : MathEnv) (w : Eight F64) (p : Eight U16) : F64 :=
  (Eight.zip (fun wi pi => fmul wi (stretch env pi)) w p).foldl fadd fZero

/-- σ(sum) = 1/(1 + EXP(−sum)), in that order of operations (R155). -/
def fSigma (env : MathEnv) (sum : F64) : F64 := fdiv fOne (fadd fOne (env.exp (fsub fZero sum)))

/-- `round_half_away(v)` as a u16 (R155). Where v is no finite number at least 0, or rounds above 65535,
R155 gives no u16 and the value is free (log 6); R156 shows that no EXP and LN like glibc's get there. -/
def roundU16 (v : F64) : U16 :=
  if fIsFinite v && (!fSign v || fIsZero v) && decide (roundHalfAway v ≤ 65535) then BitVec.ofNat 16 (roundHalfAway v)
  else Config.freeMix v

/-- `Mix(m, p)` (R155). -/
def mix (env : MathEnv) (w : Eight F64) (p : Eight U16) : U16 :=
  roundU16 (fmul (fSigma env (mixSum env w p)) f65535)

/-- `err = fsub(f(bit), fdiv(f(pm), 65535.0))` and `g = fmul(LR, err)` (R157). -/
def mixGain (bit : Bool) (pm : U16) : F64 :=
  fmul fLR (fsub (fOfNat bit.toNat) (fdiv (fOfNat pm.toNat) f65535))

/-- `MixUpdate(m, bit, pm, p)`: the new weights (R157). -/
def mixUpdate (env : MathEnv) (w : Eight F64) (bit : Bool) (pm : U16) (p : Eight U16) : Eight F64 :=
  Eight.zip (fun wi pi => fadd wi (fmul (mixGain bit pm) (stretch env pi))) w p

end Sys2Proof.Machine
end

