-- ==== Sys2Proof/Machine/Table.lean ====
section
/-! DEFINITION. Sparse data by key: a list of (key, value) pairs whose keys rise strictly. LMEM, the count tables, the match tables and the 2^20-entry buffers are held this way (00_scope.md R18; 10_state.md R45, R52 to R55). -/

namespace Sys2Proof.Machine

/-- The value at a key, if the key is listed. -/
def tableGet {α : Type} (k : Nat) : List (Nat × α) → Option α
  | [] => none
  | e :: t => if k = e.1 then some e.2 else tableGet k t

/-- The table with a value at a key (R18 `map[k] <- v`). -/
def tableSet {α : Type} (k : Nat) (v : α) : List (Nat × α) → List (Nat × α)
  | [] => [(k, v)]
  | e :: t => if k < e.1 then (k, v) :: e :: t else if k = e.1 then (k, v) :: t else e :: tableSet k v t

/-- The table without a key. -/
def tableErase {α : Type} (k : Nat) : List (Nat × α) → List (Nat × α)
  | [] => []
  | e :: t => if k = e.1 then t else e :: tableErase k t

/-- Every key of the table is at least n, and the keys rise strictly. -/
def risingFrom {α : Type} (n : Nat) : List (Nat × α) → Bool
  | [] => true
  | e :: t => decide (n ≤ e.1) && risingFrom (e.1 + 1) t

/-- The canonical form: keys strictly rising. -/
def rising {α : Type} (t : List (Nat × α)) : Bool := risingFrom 0 t

end Sys2Proof.Machine
end

