-- ==== Sys2Proof/Machine/Predictors.lean ====
section
/-! DEFINITION. The predictor ensemble (44_predictors.md R134 to R152). -/

namespace Sys2Proof.Machine

open Sys2Proof

/-- W: the match and LZP window (00_scope.md R7, R22). -/
def windowW : Nat := 1048576

/-- 32768, "no information" (R134). -/
def pHalf : U16 := 32768

/-- `clampi(v, lo, hi)` (00_scope.md R11). -/
def clampi (v lo hi : Nat) : Nat := min (max v lo) hi

/-- `CountPredict(c0, c1)` (R137). -/
def countPredict (c : Nat × Nat) : U16 :=
  BitVec.ofNat 16 (clampi ((c.2 + 1) * 0xFFFF / (c.1 + c.2 + 2)) 0 65535)

/-- The bucket at a key, (0, 0) by default (10_state.md R52, R53). -/
def bucket (tab : List (Nat × (Nat × Nat))) (key : Nat) : Nat × Nat := (tableGet key tab).getD (0, 0)

/-- The bucket's count of the coded bit plus one (R140, R143). -/
def countBit (tab : List (Nat × (Nat × Nat))) (key : Nat) (bit : Bool) : List (Nat × (Nat × Nat)) :=
  let c := bucket tab key
  tableSet key (if bit then (c.1, c.2 + 1) else (c.1 + 1, c.2)) tab

/-! ### Byte-context models (R138 to R141) -/

/-- `Key(hist)`: the fold h <- h · 256 + hist[j], oldest first (R138). -/
def histKey (hist : List Byte) : Nat := hist.foldl (fun h b => h * 256 + b.toNat) 0

/-- `predict()` of a byte-context model (R139). -/
def ByteCtx.predict (m : ByteCtx) : U16 :=
  if m.hist.length < m.k then pHalf else countPredict (bucket m.tab (histKey m.hist))

/-- `updateBit(bit)` of a byte-context model (R140). -/
def ByteCtx.updateBit (warm : WarmupPolicy) (m : ByteCtx) (bit : Bool) : ByteCtx :=
  if m.hist.length < m.k && warm == .skip then m else { m with tab := countBit m.tab (histKey m.hist) bit }

/-- `updateByte(b)` of a byte-context model (R141). -/
def ByteCtx.updateByte (m : ByteCtx) (b : Byte) : ByteCtx :=
  let h := m.hist ++ [b]
  { m with hist := if h.length > m.k then h.drop 1 else h }

/-! ### Bit-context model (R142 to R144) -/

/-- `predict()` of the bit-context model (R142). -/
def BitCtx.predict (m : BitCtx) : U16 :=
  if m.nb < 24 then pHalf else countPredict (bucket m.tab m.hb.toNat)

/-- `updateBit(bit)` of the bit-context model (R143): count, then shift. `updateByte` is a no-op (R144). -/
def BitCtx.updateBit (warm : WarmupPolicy) (m : BitCtx) (bit : Bool) : BitCtx :=
  { hb := (m.hb <<< 1) ||| (if bit then 1 else 0)
    nb := min (m.nb + 1) 24
    tab := if m.nb < 24 && warm == .skip then m.tab else countBit m.tab m.hb.toNat bit }

/-! ### Match models (R145 to R147) -/

/-- A byte of the match buffer, 0 where it was never written (10_state.md R54). -/
def MatchModel.bufAt (m : MatchModel) (i : Nat) : Byte := (tableGet i m.buf).getD 0

/-- `updateByte(b)` of a match model (R145), with the guard c ≤ bufPos. The guard fails on the byte that wraps
bufPos to 0 too, and after a wrap mtab may hold a position that is not below p: DEDUCED (unsafe, log 27), because
the pseudocode of R145 and R147 is followed where R148 derives otherwise from it. -/
def MatchModel.updateByte (m : MatchModel) (b : Byte) : MatchModel :=
  let m1 := { m with buf := tableSet m.bufPos b m.buf, bufPos := (m.bufPos + 1) % windowW }
  if m1.c ≤ m1.bufPos then
    let p := m1.bufPos - 1
    let key := histKey ((List.range m1.c).map fun j => m1.bufAt (p + 1 - m1.c + j))
    match tableGet key m1.mtab with
    | some q => { m1 with matchPos := q, matchLen := 1, bitPos := 0, mtab := tableSet key p m1.mtab }
    | none => { m1 with matchPos := 0, matchLen := 0, bitPos := 0, mtab := tableSet key p m1.mtab }
  else m1

/-- The confidence bias by match length (R146). -/
def matchConf (len : Nat) : Nat := if len = 1 then 256 else if len = 2 then 1024 else if len = 3 then 4096 else 8192

/-- `predict()` of a match model (R146). -/
def MatchModel.predict (m : MatchModel) : U16 :=
  if m.matchLen = 0 then pHalf
  else
    let pb := m.bufAt ((m.matchPos + m.matchLen) % windowW)
    let pbit := pb.toNat / 2 ^ (7 - m.bitPos) % 2
    let conf := matchConf m.matchLen
    BitVec.ofNat 16 (clampi (if pbit = 1 then 32768 + conf else 32768 - conf) 1 65534)

/-- `updateBit(bit)` of a match model (R147): the coded bit is not compared with the predicted one. -/
def MatchModel.updateBit (m : MatchModel) : MatchModel :=
  if m.matchLen = 0 then m
  else if m.bitPos + 1 = 8 then
    if windowW ≤ m.matchPos + (m.matchLen + 1) then { m with bitPos := 0, matchPos := 0, matchLen := 0 }
    else { m with bitPos := 0, matchLen := m.matchLen + 1 }
  else { m with bitPos := m.bitPos + 1 }

/-! ### LZP model (R149 to R151) -/

/-- An entry of `nxt`; none is NIL (10_state.md R55). -/
def LzpModel.nxtAt (m : LzpModel) (i : Nat) : Option Nat := tableGet i m.nxt

/-- `updateByte(b)` of the LZP model (R149): the two writes to `nxt` apply in order. -/
def LzpModel.updateByte (m : LzpModel) (b : Byte) : LzpModel :=
  let key := (m.prev.toNat * 256 + b.toNat) % windowW
  let nxt1 := match m.nxtAt key with
    | some q => tableSet m.pos q m.nxt
    | none => tableErase m.pos m.nxt
  { lbuf := tableSet m.pos b m.lbuf
    nxt := tableSet key m.pos nxt1
    prev := b
    pos := (m.pos + 1) % windowW }

/-- `predict()` of the LZP model (R150); `updateBit` is a no-op (R151). -/
def LzpModel.predict (m : LzpModel) : U16 :=
  match m.nxtAt m.pos with
  | none => pHalf
  | some q => if ((tableGet ((q + 1) % windowW) m.lbuf).getD 0).msb then 49152 else 16384

/-! ### The ensemble (R135, R136) -/

/-- "Call predict() on every model", in the index order of R135. -/
def Ensemble.predict (e : Ensemble) : Eight U16 :=
  ⟨e.b1.predict, e.b2.predict, e.b3.predict, e.b4.predict, e.bit.predict, e.m4.predict, e.m8.predict, e.lzp.predict⟩

/-- "Call updateBit on every model". -/
def Ensemble.updateBit (warm : WarmupPolicy) (e : Ensemble) (bit : Bool) : Ensemble :=
  { e with
    b1 := e.b1.updateBit warm bit
    b2 := e.b2.updateBit warm bit
    b3 := e.b3.updateBit warm bit
    b4 := e.b4.updateBit warm bit
    bit := e.bit.updateBit warm bit
    m4 := e.m4.updateBit
    m8 := e.m8.updateBit }

/-- "After all 8 bits, call updateByte(b) on every model". -/
def Ensemble.updateByte (e : Ensemble) (b : Byte) : Ensemble :=
  { e with
    b1 := e.b1.updateByte b
    b2 := e.b2.updateByte b
    b3 := e.b3.updateByte b
    b4 := e.b4.updateByte b
    m4 := e.m4.updateByte b
    m8 := e.m8.updateByte b
    lzp := e.lzp.updateByte b }

end Sys2Proof.Machine
end

