-- ==== Sys2Proof/Machine/RangeCoder.lean ====
section
/-! DEFINITION. The binary range coder and decoder and the coder phases (46_range_coder.md R162 to R178). The literal rules are kept after an inversion (R172). -/

namespace Sys2Proof.Machine

open Sys2Proof

/-! ### The split point (R163) -/

/-- `range = u64(high − low + 1)`: the nonnegative residue, also after an inversion (R163, R172). -/
def coderRange (low high : U32) : Nat := (high.toNat + 1 + 2 ^ 64 - low.toNat) % 2 ^ 64

/-- `Bound(p1)` (R163). -/
def coderBound (low high : U32) (p1 : U16) : U32 :=
  BitVec.ofNat 32 (low.toNat + coderRange low high * (0xFFFF - p1.toNat) % 2 ^ 64 / 2 ^ 16)

/-- The interval update of R164 and R169: bit 1 takes (bound, high], bit 0 takes [low, bound]. -/
def Coder.narrow (c : Coder) (bit : Bool) (p1 : U16) : Coder :=
  let bound := coderBound c.low c.high p1
  if bit then { c with low := bound + 1 } else { c with high := bound }

/-- low > high: the step inverted the interval (R172). -/
def Coder.inverted (c : Coder) : Bool := decide (c.high.toNat < c.low.toNat)

/-! ### Renormalisation (R165, R170) -/

/-- The top bytes agree (R165). -/
def Coder.msbAgree (c : Coder) : Bool := c.low.extractLsb' 24 8 == c.high.extractLsb' 24 8

/-- The straddle condition: low[31] = 1 and high[31] = 0 (R165). -/
def Coder.straddle (c : Coder) : Bool := c.low.msb && !c.high.msb

/-- low and high after an MSB-agree pass (R165). -/
def Coder.shiftByte (c : Coder) : Coder := { c with low := c.low <<< 8, high := (c.high <<< 8) ||| 0xFF }

/-- low and high after a straddle pass (R165). -/
def Coder.shiftStraddle (c : Coder) : Coder :=
  { c with low := (c.low <<< 1) &&& 0x7FFFFFFF, high := ((c.high ^^^ 0x80000000) <<< 1) ||| 1 }

/-- One MSB-agree pass of the encoder: emit high >> 24 and `follow` copies of its complement (R165). -/
def Coder.emitByte (c : Coder) : Coder :=
  let t := c.high.extractLsb' 24 8
  { c.shiftByte with out := c.out ++ t :: List.replicate c.follow (t ^^^ 0xFF), follow := 0 }

/-- `EncRenorm()` with at most n passes (R165). -/
def encRenormN : Nat → Coder → Coder
  | 0, c => c
  | n + 1, c =>
    if c.msbAgree then encRenormN n c.emitByte
    else if c.straddle then encRenormN n { c.shiftStraddle with follow := c.follow + 1 }
    else c

/-- `EncRenorm()` (R165): one call runs at most 32 passes, so 33 leave the loop by its own exit (log 20). -/
def encRenorm (c : Coder) : Coder := encRenormN 33 c

/-- `NextByte()`: the payload byte at the read count, 0 past the end (R167). -/
def nextByte (pay : List Byte) (rd : Nat) : Byte := pay.getD rd 0

/-- One MSB-agree pass of the decoder (R170). -/
def Coder.readByte (pay : List Byte) (c : Coder) : Coder :=
  { c.shiftByte with follow := 0, code := (c.code <<< 8) ||| (nextByte pay c.rd).setWidth 32, rd := c.rd + 1 }

/-- One straddle pass of the decoder: it consumes a byte and uses its bit 0 (R170). -/
def Coder.readStraddle (pay : List Byte) (c : Coder) : Coder :=
  { c.shiftStraddle with
    follow := c.follow + 1
    code := ((c.code ^^^ 0x80000000) <<< 1) ||| ((nextByte pay c.rd).setWidth 32 &&& 1)
    rd := c.rd + 1 }

/-- `DecRenorm()` with at most n passes (R170). -/
def decRenormN (pay : List Byte) : Nat → Coder → Coder
  | 0, c => c
  | n + 1, c =>
    if c.msbAgree then decRenormN pay n (c.readByte pay)
    else if c.straddle then decRenormN pay n (c.readStraddle pay)
    else c

/-- `DecRenorm()` (R170), with the bound of R165 (log 20). -/
def decRenorm (pay : List Byte) (c : Coder) : Coder := decRenormN pay 33 c

/-! ### Coding one bit (R164, R169) -/

/-- `EncodeBit(bit, p1)`: the new coder and whether the step inverted the interval (R164). -/
def encodeBit (c : Coder) (bit : Bool) (p1 : U16) : Coder × Bool :=
  let n := c.narrow bit p1
  (encRenorm n, n.inverted)

/-- "The decoder chooses bit = 0 iff code ≤ bound" (R169). -/
def Coder.decodedBit (c : Coder) (p1 : U16) : Bool := decide ((coderBound c.low c.high p1).toNat < c.code.toNat)

/-- `DecodeBit(p1)`: the bit, the new coder and whether the step inverted the interval (R169). -/
def decodeBit (pay : List Byte) (c : Coder) (p1 : U16) : Bool × Coder × Bool :=
  let bit := c.decodedBit p1
  let n := c.narrow bit p1
  (bit, decRenorm pay n, n.inverted)

/-- `EncFinish()`: the four bytes of low, MSB first; a pending follow is dropped (R166). -/
def encFinish (c : Coder) : List Byte :=
  c.out ++ [c.low.extractLsb' 24 8, c.low.extractLsb' 16 8, c.low.extractLsb' 8 8, c.low.extractLsb' 0 8]

/-- One byte shifted into `code` (R168). -/
def Coder.shiftCode (pay : List Byte) (c : Coder) : Coder :=
  { c with code := (c.code <<< 8) ||| (nextByte pay c.rd).setWidth 32, rd := c.rd + 1 }

/-- The decoder's initial state: R162, then four bytes of the payload big-endian (R168). -/
def decoderInit (pay : List Byte) : Coder :=
  (((Coder.init.shiftCode pay).shiftCode pay).shiftCode pay).shiftCode pay

/-! ### Coder phases (R136, R173, R175) -/

/-- The bits of a byte, MSB first (R136). -/
def bitsOf (b : Byte) : List Bool :=
  [b.getLsbD 7, b.getLsbD 6, b.getLsbD 5, b.getLsbD 4, b.getLsbD 3, b.getLsbD 2, b.getLsbD 1, b.getLsbD 0]

/-- The byte of eight bits, MSB first: b <- (b << 1) | bit (R175). -/
def byteOf (bits : List Bool) : Byte := bits.foldl (fun b bit => (b <<< 1) ||| (if bit then 1 else 0)) 0

/-- What follows the coding of a bit under pm and p: mixer.update, then updateBit on every model (R136, R158). -/
def CmUnit.learnBit (c : Config) (u : CmUnit) (p : Eight U16) (pm : U16) (bit : Bool) (coder : Coder) (inv : Bool) : CmUnit :=
  { ens := u.ens.updateBit c.warmup bit
    w := mixUpdate (mathOf c) u.w bit pm p
    coder := coder
    lastPm := pm
    nbits := u.nbits + 1
    inv := u.inv || inv }

/-- One coded bit: predict, mix, encode, mixer.update, updateBit (R136). -/
def CmUnit.encBit (c : Config) (u : CmUnit) (bit : Bool) : CmUnit :=
  let p := u.ens.predict
  let pm := mix (mathOf c) u.w p
  let e := encodeBit u.coder bit pm
  u.learnBit c p pm bit e.1 e.2

/-- `updateByte(b)` on every model (R136). -/
def CmUnit.learnByte (u : CmUnit) (b : Byte) : CmUnit := { u with ens := u.ens.updateByte b }

/-- `CodeByte(b)` (R136). -/
def CmUnit.encByte (c : Config) (u : CmUnit) (b : Byte) : CmUnit :=
  ((bitsOf b).foldl (CmUnit.encBit c) u).learnByte b

/-- The encoder phase over x, before EncFinish (R173). -/
def cmEncodePhase (c : Config) (x : List Byte) : CmUnit := x.foldl (CmUnit.encByte c) CmUnit.init

/-- `CmEncode(x)`: the payload (R173). -/
def cmEncode (c : Config) (x : List Byte) : List Byte := encFinish (cmEncodePhase c x).coder

/-- One decoded bit (R175). -/
def CmUnit.decBit (c : Config) (pay : List Byte) (u : CmUnit) : CmUnit × Bool :=
  let p := u.ens.predict
  let pm := mix (mathOf c) u.w p
  let d := decodeBit pay u.coder pm
  (u.learnBit c p pm d.1 d.2.1 d.2.2, d.1)

/-- n decoded bits, first bit first (R175). -/
def CmUnit.decBits (c : Config) (pay : List Byte) : Nat → CmUnit → CmUnit × List Bool
  | 0, u => (u, [])
  | n + 1, u =>
    let d := u.decBit c pay
    let r := CmUnit.decBits c pay n d.1
    (r.1, d.2 :: r.2)

/-- One decoded byte, with updateByte after its eighth bit (R175). -/
def CmUnit.decByte (c : Config) (pay : List Byte) (u : CmUnit) : CmUnit × Byte :=
  let d := CmUnit.decBits c pay 8 u
  let b := byteOf d.2
  (d.1.learnByte b, b)

/-- n decoded bytes (R175). -/
def CmUnit.decBytes (c : Config) (pay : List Byte) : Nat → CmUnit → CmUnit × List Byte
  | 0, u => (u, [])
  | n + 1, u =>
    let d := u.decByte c pay
    let r := CmUnit.decBytes c pay n d.1
    (r.1, d.2 :: r.2)

/-- The decoder phase: its final state and the n bytes (R175). -/
def cmDecodePhase (c : Config) (pay : List Byte) (n : Nat) : CmUnit × List Byte :=
  CmUnit.decBytes c pay n { CmUnit.init with coder := decoderInit pay }

/-- `CmDecode(pay, n)` (R175). -/
def cmDecode (c : Config) (pay : List Byte) (n : Nat) : List Byte := (cmDecodePhase c pay n).2

/-! ### The DBG snapshot (R178) -/

/-- The DBG registers at the end of a coder phase. `code` is 0 in an encoder phase, whose coder never changes it. -/
def dbgSnapshot (u : CmUnit) : Dbg :=
  { low := u.coder.low
    high := u.coder.high
    follow := BitVec.ofNat 32 u.coder.follow
    code := u.coder.code
    pmix := u.lastPm.setWidth 32
    nbits := BitVec.ofNat 32 u.nbits
    wLo := u.w.map fun x => x.extractLsb' 0 32
    wHi := u.w.map fun x => x.extractLsb' 32 32 }

end Sys2Proof.Machine
end

