-- ==== Sys2Proof/Machine/Bwt.lean ====
section
/-! DEFINITION. The forward and inverse Burrows-Wheeler transforms (41_bwt.md R110, R111, R114). -/

namespace Sys2Proof.Machine

open Sys2Proof

/-! ### Rotations and their order (R110) -/

/-- Rotation i of s: s[i], s[i+1 mod N], …, for i ≤ N (R110). -/
def rot (s : List Byte) (i : Nat) : List Byte := s.drop i ++ s.take i

/-- Lexicographic order of byte sequences, bytes compared as unsigned values (R110). -/
def lexLt : List Byte → List Byte → Bool
  | [], [] => false
  | [], _ :: _ => true
  | _ :: _, [] => false
  | a :: s, b :: t => if a.toNat < b.toNat then true else if b.toNat < a.toNat then false else lexLt s t

/-- (rot(s, i), i) comes before or at (rot(s, j), j): equal rotations are ordered by start index (R110). -/
def rotLe (s : List Byte) (i j : Nat) : Bool :=
  lexLt (rot s i) (rot s j) || (!lexLt (rot s j) (rot s i) && decide (i ≤ j))

/-- An index put into its place in a sorted list. -/
def insertRot (s : List Byte) (i : Nat) : List Nat → List Nat
  | [] => [i]
  | j :: t => if rotLe s i j then i :: j :: t else j :: insertRot s i t

/-- A list of start indices sorted by (rot(s, i), i); any sort that yields this order will do (R113). -/
def sortRots (s : List Byte) : List Nat → List Nat
  | [] => []
  | i :: t => insertRot s i (sortRots s t)

/-- The sorted rotation order SA (R110). -/
def suffixOrder (s : List Byte) : List Nat := sortRots s (List.range s.length)

/-! ### BwtForward (R111) -/

/-- The byte before rotation i: s[(i + N − 1) mod N]. -/
def byteBefore (s : List Byte) (i : Nat) : Byte := s.getD ((i + s.length - 1) % s.length) 0

/-- `BwtForward(s) = (last, primary)` (R111). -/
def bwtForward (s : List Byte) : List Byte × Nat :=
  let sa := suffixOrder s
  (sa.map (byteBefore s), sa.findIdx (· == 0))

/-! ### BwtInverse (R114) -/

/-- "Count occurrences per byte value": cnt[c] for c = 0..255. -/
def byteCounts (last : List Byte) : List Nat := (List.range 256).map fun c => last.count (BitVec.ofNat 8 c)

/-- The "cumulative prefix offset table": entry c is the sum of the counts before it, from t. -/
def prefixSums : Nat → List Nat → List Nat
  | _, [] => []
  | t, n :: ns => t :: prefixSums (t + n) ns

/-- The "next-index permutation": for i ascending, next[C[c]] <- i and C[c] <- C[c] + 1 with c = last[i]. -/
def fillNext : Nat → List Byte → List Nat → List Nat → List Nat
  | _, [], _, next => next
  | i, c :: rest, offsets, next =>
    let at_ := offsets.getD c.toNat 0
    fillNext (i + 1) rest (offsets.set c.toNat (at_ + 1)) (next.set at_ i)

/-- The array next[0..N) of a `last`. -/
def nextArray (last : List Byte) : List Nat :=
  fillNext 0 last (prefixSums 0 (byteCounts last)) (List.replicate last.length 0)

/-- "Walk N steps, emitting last[idx] at each step". -/
def walkNext (last : List Byte) (next : List Nat) : Nat → Nat → List Byte
  | 0, _ => []
  | n + 1, idx => last.getD idx 0 :: walkNext last next n (next.getD idx 0)

/-- `BwtInverse(last, primary)` (R114): total for every `last` and primary below its length (R116). -/
def bwtInverse (last : List Byte) (primary : Nat) : List Byte :=
  let next := nextArray last
  walkNext last next last.length (next.getD primary 0)

end Sys2Proof.Machine
end

