-- ==== Sys2Proof/Machine/Mtf.lean ====
section
/-! DEFINITION. The move-to-front coder (42_mtf.md R120, R121, R122). -/

namespace Sys2Proof.Machine

open Sys2Proof

/-- `MoveToFront(T, r)` (R120): the entry at position r goes to position 0, the entries before it shift up by one. -/
def moveToFront (t : List Byte) (r : Nat) : List Byte := t.getD r 0 :: t.eraseIdx r

/-- The position r with T[r] = c (R121). -/
def rankOf (t : List Byte) (c : Byte) : Nat := t.findIdx (· == c)

/-- The encoding loop of R121 from a table. -/
def mtfEncodeFrom (t : List Byte) : List Byte → List Byte
  | [] => []
  | c :: x => BitVec.ofNat 8 (rankOf t c) :: mtfEncodeFrom (moveToFront t (rankOf t c)) x

/-- `MtfEncode(x)` (R121), from the identity table (10_state.md R47, R50). -/
def mtfEncode (x : List Byte) : List Byte := mtfEncodeFrom mtfIdentity x

/-- The decoding loop of R122 from a table. -/
def mtfDecodeFrom (t : List Byte) : List Byte → List Byte
  | [] => []
  | r :: y => t.getD r.toNat 0 :: mtfDecodeFrom (moveToFront t r.toNat) y

/-- `MtfDecode(y)` (R122), from the identity table. -/
def mtfDecode (y : List Byte) : List Byte := mtfDecodeFrom mtfIdentity y

end Sys2Proof.Machine
end

