-- ==== Sys2Proof/WellFormed.lean ====
section
/-! DEFINITION. Which terms of Instr a descriptor can stand for. An operand word that a flag replaces must be 0 (30_encoding.md R83, R84, R85, R89 items 6 and 7). The other conditions of R89 hold of every term, because a constructor has no field for a word or flag its row forbids. -/

namespace Sys2Proof

/-- A word that the flag `f` replaces is 0 (R89 items 6 and 7). -/
def flaggedZero (f : Bool) (w : U32) : Bool := !f || w == 0

/-- The term is what some descriptor decodes to. -/
def Instr.wf : Instr → Bool
  | .nop => true
  | .halt => true
  | .bwtFwd l _ _ len => flaggedZero l len
  | .bwtInv l p _ _ len arg => flaggedZero l len && flaggedZero p arg
  | .mtfEnc l _ _ len => flaggedZero l len
  | .mtfDec l _ _ len => flaggedZero l len
  | .rle0Enc l a _ _ len arg => flaggedZero l len && flaggedZero a arg
  | .rle0Dec l a _ _ len arg => flaggedZero l len && flaggedZero a arg
  | .cmEnc l a _ _ len arg => flaggedZero l len && flaggedZero a arg
  | .cmDec l a _ _ len arg => flaggedZero l len && flaggedZero a arg
  | .blkEnc l a _ _ len arg => flaggedZero l len && flaggedZero a arg
  | .blkDec l a _ _ len arg => flaggedZero l len && flaggedZero a arg
  | .strEnc l a _ _ len arg => flaggedZero l len && flaggedZero a arg
  | .strDec l a _ _ len arg => flaggedZero l len && flaggedZero a arg

end Sys2Proof
end

