-- ==== Sys2Proof/Decode.lean ====
section
/-! DEFINITION. Reading a command from its 32 bytes (30_encoding.md R79 to R91, 40_sequencer.md R97): total on any bytes, rejecting by name. After it the encoder, written from the same table. -/

namespace Sys2Proof

/-! ### Little-endian words (20_memory.md R62, R64; 00_scope.md R15) -/

/-- The little-endian value of a byte sequence: Σ bs[k] · 256^k (R15 MemRead). -/
def leNat : List Byte → Nat
  | [] => 0
  | b :: bs => b.toNat + 256 * leNat bs

/-- The n bytes of v, little-endian (R15 MemWrite). -/
def leBytes : Nat → Nat → List Byte
  | 0, _ => []
  | n + 1, v => BitVec.ofNat 8 v :: leBytes n (v / 256)

/-- Word j of a descriptor's bytes, read little-endian (R64). -/
def wordAt (bs : List Byte) (j : Nat) : U32 := BitVec.ofNat 32 (leNat ((bs.drop (4 * j)).take 4))

/-- The eight words of a descriptor's bytes (R79). -/
def Descriptor.ofBytes (bs : List Byte) : Descriptor :=
  ⟨wordAt bs 0, wordAt bs 1, wordAt bs 2, wordAt bs 3, wordAt bs 4, wordAt bs 5, wordAt bs 6, wordAt bs 7⟩

/-- The 32 bytes of a descriptor in address order (R79, R93). -/
def Descriptor.toBytes (d : Descriptor) : List Byte :=
  leBytes 4 d.w0.toNat ++ leBytes 4 d.w1.toNat ++ leBytes 4 d.w2.toNat ++ leBytes 4 d.w3.toNat ++
  leBytes 4 d.w4.toNat ++ leBytes 4 d.w5.toNat ++ leBytes 4 d.w6.toNat ++ leBytes 4 d.w7.toNat

/-! ### The opcode map (R87) and the allowed flags (R86) -/

/-- The opcodes of R87 by name. -/
inductive Op where
  | nop | halt | bwtFwd | bwtInv | mtfEnc | mtfDec | rle0Enc | rle0Dec
  | cmEnc | cmDec | blkEnc | blkDec | strEnc | strDec
deriving DecidableEq, Repr

/-- Every opcode, in the table's order. -/
def Op.every : List Op :=
  [.nop, .halt, .bwtFwd, .bwtInv, .mtfEnc, .mtfDec, .rle0Enc, .rle0Dec, .cmEnc, .cmDec, .blkEnc, .blkDec, .strEnc, .strDec]

/-- The OP byte of an opcode (R87). -/
def Op.code : Op → Nat
  | .nop => 0x00 | .halt => 0x01 | .bwtFwd => 0x10 | .bwtInv => 0x11 | .mtfEnc => 0x20 | .mtfDec => 0x21
  | .rle0Enc => 0x30 | .rle0Dec => 0x31 | .cmEnc => 0x40 | .cmDec => 0x41 | .blkEnc => 0x50 | .blkDec => 0x51
  | .strEnc => 0x60 | .strDec => 0x61

/-- The opcode of an OP byte; none is an illegal OP (R88). -/
def Op.ofCode : Nat → Option Op
  | 0x00 => some .nop | 0x01 => some .halt | 0x10 => some .bwtFwd | 0x11 => some .bwtInv | 0x20 => some .mtfEnc
  | 0x21 => some .mtfDec | 0x30 => some .rle0Enc | 0x31 => some .rle0Dec | 0x40 => some .cmEnc | 0x41 => some .cmDec
  | 0x50 => some .blkEnc | 0x51 => some .blkDec | 0x60 => some .strEnc | 0x61 => some .strDec
  | _ => none

/-- Flag L is allowed (R86). -/
def Op.allowsL : Op → Bool
  | .nop | .halt => false
  | .bwtFwd | .bwtInv | .mtfEnc | .mtfDec | .rle0Enc | .rle0Dec | .cmEnc | .cmDec | .blkEnc | .blkDec | .strEnc | .strDec => true

/-- Flag P is allowed (R84, R86). -/
def Op.allowsP : Op → Bool
  | .bwtInv => true
  | .nop | .halt | .bwtFwd | .mtfEnc | .mtfDec | .rle0Enc | .rle0Dec | .cmEnc | .cmDec | .blkEnc | .blkDec | .strEnc | .strDec => false

/-- Flag A is allowed (R85, R86). -/
def Op.allowsA : Op → Bool
  | .rle0Enc | .rle0Dec | .cmEnc | .cmDec | .blkEnc | .blkDec | .strEnc | .strDec => true
  | .nop | .halt | .bwtFwd | .bwtInv | .mtfEnc | .mtfDec => false

/-- The opcode has no operands: W1 to W4 must be 0 (R82, R89 item 4). -/
def Op.noOperands : Op → Bool
  | .nop | .halt => true
  | .bwtFwd | .bwtInv | .mtfEnc | .mtfDec | .rle0Enc | .rle0Dec | .cmEnc | .cmDec | .blkEnc | .blkDec | .strEnc | .strDec => false

/-- The opcode has no ARG: W4 must be 0 (R82, R89 items 4 and 5). -/
def Op.noArg : Op → Bool
  | .nop | .halt | .bwtFwd | .mtfEnc | .mtfDec => true
  | .bwtInv | .rle0Enc | .rle0Dec | .cmEnc | .cmDec | .blkEnc | .blkDec | .strEnc | .strDec => false

/-! ### The fields of W0 (R80) -/

/-- OP = W0[7:0]. -/
def opField (w0 : U32) : Nat := (w0.extractLsb' 0 8).toNat

/-- L = W0[8]. -/
def lBit (w0 : U32) : Bool := w0.getLsbD 8

/-- P = W0[9]. -/
def pBit (w0 : U32) : Bool := w0.getLsbD 9

/-- A = W0[10]. -/
def aBit (w0 : U32) : Bool := w0.getLsbD 10

/-- The reserved field W0[31:11]. -/
def reservedField (w0 : U32) : BitVec 21 := w0.extractLsb' 11 21

/-- W0 offends: a reserved bit or a flag the opcode does not allow (R89 items 1 and 2). -/
def w0Offends (op : Op) (w0 : U32) : Bool :=
  reservedField w0 != 0 || (lBit w0 && !op.allowsL) || (pBit w0 && !op.allowsP) || (aBit w0 && !op.allowsA)

/-- The index of the lowest-numbered offending word of a descriptor whose OP is defined (R89). -/
def offendingWord (op : Op) (d : Descriptor) : Option Nat :=
  if w0Offends op d.w0 then some 0
  else if op.noOperands && d.w1 != 0 then some 1
  else if op.noOperands && d.w2 != 0 then some 2
  else if (op.noOperands || lBit d.w0) && d.w3 != 0 then some 3
  else if (op.noArg || pBit d.w0 || aBit d.w0) && d.w4 != 0 then some 4
  else if d.w5 != 0 then some 5
  else if d.w6 != 0 then some 6
  else if d.w7 != 0 then some 7
  else none

/-- Why a descriptor is no command. -/
inductive Reject where
  /-- OP is not in the opcode map (R88): the fault ILLEGAL_OP with ERR_INFO = W0. -/
  | illegalOp (w0 : U32)
  /-- A reserved bit, a disallowed flag or a must-be-zero word is nonzero (R89): the fault RESERVED_NZ with ERR_INFO = j. -/
  | reservedNz (j : Nat)
  /-- The bytes are not the 32 of one descriptor (R91). The sequencer always fetches 32, so no step meets it. -/
  | notDescriptor
deriving DecidableEq, Repr

/-- The command an opcode and the words of an accepted descriptor stand for (R82). -/
def buildInstr (op : Op) (d : Descriptor) : Instr :=
  match op with
  | .nop => .nop
  | .halt => .halt
  | .bwtFwd => .bwtFwd (lBit d.w0) d.w1 d.w2 d.w3
  | .bwtInv => .bwtInv (lBit d.w0) (pBit d.w0) d.w1 d.w2 d.w3 d.w4
  | .mtfEnc => .mtfEnc (lBit d.w0) d.w1 d.w2 d.w3
  | .mtfDec => .mtfDec (lBit d.w0) d.w1 d.w2 d.w3
  | .rle0Enc => .rle0Enc (lBit d.w0) (aBit d.w0) d.w1 d.w2 d.w3 d.w4
  | .rle0Dec => .rle0Dec (lBit d.w0) (aBit d.w0) d.w1 d.w2 d.w3 d.w4
  | .cmEnc => .cmEnc (lBit d.w0) (aBit d.w0) d.w1 d.w2 d.w3 d.w4
  | .cmDec => .cmDec (lBit d.w0) (aBit d.w0) d.w1 d.w2 d.w3 d.w4
  | .blkEnc => .blkEnc (lBit d.w0) (aBit d.w0) d.w1 d.w2 d.w3 d.w4
  | .blkDec => .blkDec (lBit d.w0) (aBit d.w0) d.w1 d.w2 d.w3 d.w4
  | .strEnc => .strEnc (lBit d.w0) (aBit d.w0) d.w1 d.w2 d.w3 d.w4
  | .strDec => .strDec (lBit d.w0) (aBit d.w0) d.w1 d.w2 d.w3 d.w4

/-- Decoding (40_sequencer.md R97): look up OP, then check R89, then build the command. -/
def decode (d : Descriptor) : Except Reject Instr :=
  match Op.ofCode (opField d.w0) with
  | none => .error (.illegalOp d.w0)
  | some op =>
    match offendingWord op d with
    | some j => .error (.reservedNz j)
    | none => .ok (buildInstr op d)

/-- Decoding any byte sequence: exactly 32 bytes make a descriptor (R91). -/
def decodeBytes (bs : List Byte) : Except Reject Instr :=
  if bs.length = 32 then decode (Descriptor.ofBytes bs) else .error .notDescriptor

/-! ### The encoder -/

/-- W0 from an opcode and its flags (R80). -/
def w0Of (op : Op) (l p a : Bool) : U32 :=
  BitVec.ofNat 32 (op.code + (if l then 0x100 else 0) + (if p then 0x200 else 0) + (if a then 0x400 else 0))

/-- The opcode of a command. -/
def Instr.op : Instr → Op
  | .nop => .nop
  | .halt => .halt
  | .bwtFwd .. => .bwtFwd
  | .bwtInv .. => .bwtInv
  | .mtfEnc .. => .mtfEnc
  | .mtfDec .. => .mtfDec
  | .rle0Enc .. => .rle0Enc
  | .rle0Dec .. => .rle0Dec
  | .cmEnc .. => .cmEnc
  | .cmDec .. => .cmDec
  | .blkEnc .. => .blkEnc
  | .blkDec .. => .blkDec
  | .strEnc .. => .strEnc
  | .strDec .. => .strDec

/-- The descriptor of a well-formed command (R79, R80, R82). -/
def encode : Instr → Descriptor
  | .nop => ⟨w0Of .nop false false false, 0, 0, 0, 0, 0, 0, 0⟩
  | .halt => ⟨w0Of .halt false false false, 0, 0, 0, 0, 0, 0, 0⟩
  | .bwtFwd l src dst len => ⟨w0Of .bwtFwd l false false, src, dst, len, 0, 0, 0, 0⟩
  | .bwtInv l p src dst len arg => ⟨w0Of .bwtInv l p false, src, dst, len, arg, 0, 0, 0⟩
  | .mtfEnc l src dst len => ⟨w0Of .mtfEnc l false false, src, dst, len, 0, 0, 0, 0⟩
  | .mtfDec l src dst len => ⟨w0Of .mtfDec l false false, src, dst, len, 0, 0, 0, 0⟩
  | .rle0Enc l a src dst len arg => ⟨w0Of .rle0Enc l false a, src, dst, len, arg, 0, 0, 0⟩
  | .rle0Dec l a src dst len arg => ⟨w0Of .rle0Dec l false a, src, dst, len, arg, 0, 0, 0⟩
  | .cmEnc l a src dst len arg => ⟨w0Of .cmEnc l false a, src, dst, len, arg, 0, 0, 0⟩
  | .cmDec l a src dst len arg => ⟨w0Of .cmDec l false a, src, dst, len, arg, 0, 0, 0⟩
  | .blkEnc l a src dst len arg => ⟨w0Of .blkEnc l false a, src, dst, len, arg, 0, 0, 0⟩
  | .blkDec l a src dst len arg => ⟨w0Of .blkDec l false a, src, dst, len, arg, 0, 0, 0⟩
  | .strEnc l a src dst len arg => ⟨w0Of .strEnc l false a, src, dst, len, arg, 0, 0, 0⟩
  | .strDec l a src dst len arg => ⟨w0Of .strDec l false a, src, dst, len, arg, 0, 0, 0⟩

/-! ### The opcode table's masks (R87) -/

/-- The W0 match of a row (R87). -/
def Op.rowMatch (op : Op) : U32 := BitVec.ofNat 32 op.code

/-- The W0 mask of a row (R87): OP, the reserved bits and the disallowed flags. -/
def Op.rowMask (op : Op) : U32 :=
  0xFFFFFFFF &&& ~~~((if op.allowsL then 0x100 else 0) ||| (if op.allowsP then 0x200 else 0) ||| (if op.allowsA then 0x400 else 0))

/-! ### The host's numbering -/

/-- The command read from an instruction whose bits are w, bit 0 the least significant bit of the first
byte; every bit from nbits up is 0. The bytes are laid out as LMEM holds them (R64, R79). -/
def decodeTableWord (nbits w : Nat) : Option Instr :=
  match decodeBytes (leBytes 32 (w % 2 ^ nbits)) with
  | .ok i => some i
  | .error _ => none

end Sys2Proof
end

