-- ==== Sys2Proof/Machine/State.lean ====
section
/-! DEFINITION. The state of ZBE as plain data: the MMIO registers (10_state.md section 2), LMEM (section 3), the flags (section 4), the internal units and the latch (section 5), the parameters, and what the host is still to do. State.reset is the machine after power-on reset (70_reset_and_hazards.md R210). -/

namespace Sys2Proof.Machine

/-- The error codes of 60_exceptions.md R193. Codes 14 and above are never written. -/
inductive ErrCode where
  | none
  | illegalOp
  | reservedNz
  | cmdAlign
  | cmdRange
  | srcRange
  | dstRange
  | overlap
  | lenZero
  | lenLimit
  | primaryRange
  | outOverflow
  | truncated
  | lenMismatch
deriving DecidableEq, Repr, Inhabited

/-- A ZBE fault as `raise Fault(code, info)` gives it (00_scope.md R17). -/
structure FaultReport where
  code : ErrCode
  info : U32
deriving DecidableEq, Repr

/-- STATUS (10_state.md R30) without its reserved bits, which read 0 and ignore writes. -/
structure Status where
  busy : Bool
  done : Bool
  err : Bool
  rleTrail : Bool
  sizeMismatch : Bool
  coderInv : Bool
deriving DecidableEq, Repr, Inhabited

/-- STATUS at reset: idle, no flags (R210). -/
def Status.reset : Status := ⟨false, false, false, false, false, false⟩

/-- LMEM (10_state.md R45): the seed of its power-on contents, one more at each power-on, and every byte written since, in rising
address order. An address it does not list was never written and reads as the free byte
`Config.powerOnByte seed address` (R211; log 3). -/
structure Lmem where
  seed : Nat
  cells : List Host.Cell
deriving DecidableEq, Repr

/-- One access of the host or the platform, or a turn of the sequencer (log 2). The LMEM accesses name LMEM
byte addresses: DESIGN CHOICE (unsafe, log 25), because the host's view of LMEM is the platform's (R70). -/
inductive HostAccess where
  /-- The sequencer takes one step if BUSY = 1; nothing happens if it is idle. -/
  | turn
  /-- A bus write of `width` bytes at platform address `addr` (20_memory.md R68). -/
  | mmioWrite (addr width : Nat) (value : U32)
  /-- A bus read of `width` bytes at platform address `addr` (R68). -/
  | mmioRead (addr width : Nat)
  /-- Writes of consecutive LMEM bytes from an LMEM address (R68, R71). -/
  | lmemWrite (addr : Nat) (bytes : List Byte)
  /-- Reads of n consecutive LMEM bytes from an LMEM address (R68, R71). -/
  | lmemRead (addr n : Nat)
  /-- The platform asserts and releases the reset input (70_reset_and_hazards.md R210). -/
  | powerOnReset
deriving DecidableEq, Repr

/-- What the host's last read returned. -/
inductive HostData where
  | nothing
  | word (v : U32)
  | bytes (bs : List Byte)
deriving DecidableEq, Repr

/-- Why the model stops. The spec's own faults (60_exceptions.md R193) are next states, not these. -/
inductive Fault where
  /-- The host accesses an LMEM byte at or beyond LMEM_SIZE, which does not exist (20_memory.md R70).
  Raised by `hostStep`. Safe (log 14): the spec gives such an access no effect. -/
  | hostLmemRange
deriving DecidableEq, Repr

/-- Why the model gives a step no meaning. -/
inductive Refusal where
  /-- An instruction without a meaning yet, by its mnemonic. Raised by `exec` only. Safe. -/
  | notModelled (mnemonic : String)
  /-- A host MMIO access that is not a naturally aligned 32-bit access within the register block
  (10_state.md R44, 20_memory.md R68). Raised by `hostStep`. Safe: the spec tells a model to refuse it. -/
  | mmioAccess
  /-- A host LMEM access while BUSY = 1 (20_memory.md R71). Raised by `hostStep`. Safe: the spec tells a
  model to refuse it. -/
  | lmemWhileBusy
deriving DecidableEq, Repr

/-- The machine. -/
structure State where
  cfg : Config
  irqEn : Bool
  status : Status
  cmdPtr : U32
  errCode : ErrCode
  errPtr : U32
  errInfo : U32
  resLen : U32
  resPrimary : U32
  resAux : U32
  cmdCount : U32
  dbg : Dbg
  lmem : Lmem
  scratch : Scratch
  hostQueue : List HostAccess
  hostData : HostData
  freeCount : Nat
deriving DecidableEq, Repr

/-- The machine after power-on reset (70_reset_and_hazards.md R210; 10_state.md R27, R59).
`cfg` is DESIGN CHOICE (log 4), `scratch` DESIGN CHOICE (log 16), the model's own fields DESIGN CHOICE (log 17). -/
def State.reset : State where
  cfg := Config.standard
  irqEn := false
  status := Status.reset
  cmdPtr := 0
  errCode := .none
  errPtr := 0
  errInfo := 0
  resLen := 0
  resPrimary := 0
  resAux := 0
  cmdCount := 0
  dbg := Dbg.reset
  lmem := ⟨0, []⟩
  scratch := Scratch.init
  hostQueue := []
  hostData := .nothing
  freeCount := 0

end Sys2Proof.Machine
end

