-- ==== Sys2Proof/Machine/Flags.lean ====
section
/-! DEFINITION. Every flag computation of ZBE: the STATUS and CTRL words (10_state.md R29, R30), the write-1-to-clear bits, the sticky bits (R46), the error codes (60_exceptions.md R193) and the interrupt output (R201). -/

namespace Sys2Proof.Machine

open Sys2Proof

/-- The number of an error code (60_exceptions.md R193). -/
def ErrCode.num : ErrCode → U32
  | .none => 0
  | .illegalOp => 1
  | .reservedNz => 2
  | .cmdAlign => 3
  | .cmdRange => 4
  | .srcRange => 5
  | .dstRange => 6
  | .overlap => 7
  | .lenZero => 8
  | .lenLimit => 9
  | .primaryRange => 10
  | .outOverflow => 11
  | .truncated => 12
  | .lenMismatch => 13

/-- A flag as a bit at a position of a register. -/
def bitAt (f : Bool) (n : Nat) : U32 := if f then 1 <<< n else 0

/-- STATUS as the host reads it: reserved bits are 0 (10_state.md R30). -/
def Status.word (s : Status) : U32 :=
  bitAt s.busy 0 ||| bitAt s.done 1 ||| bitAt s.err 2 ||| bitAt s.rleTrail 8 ||| bitAt s.sizeMismatch 9 ||| bitAt s.coderInv 10

/-- A host write of STATUS: 1 clears a W1C bit, 0 leaves it; BUSY and the reserved bits ignore it (R30). -/
def Status.writeOneToClear (s : Status) (v : U32) : Status :=
  { busy := s.busy
    done := s.done && !v.getLsbD 1
    err := s.err && !v.getLsbD 2
    rleTrail := s.rleTrail && !v.getLsbD 8
    sizeMismatch := s.sizeMismatch && !v.getLsbD 9
    coderInv := s.coderInv && !v.getLsbD 10 }

/-- The sticky events of one command (10_state.md R46). -/
structure Sticky where
  rleTrail : Bool
  sizeMismatch : Bool
  coderInv : Bool
deriving DecidableEq, Repr

/-- No sticky event. -/
def Sticky.quiet : Sticky := ⟨false, false, false⟩

/-- A sticky bit is set when its event happens and stays set (R46). -/
def Status.stick (s : Status) (k : Sticky) : Status :=
  { s with
    rleTrail := s.rleTrail || k.rleTrail
    sizeMismatch := s.sizeMismatch || k.sizeMismatch
    coderInv := s.coderInv || k.coderInv }

/-- STATUS after an accepted START: BUSY set, DONE and ERR clear, the sticky bits as they were (40_sequencer.md R95). -/
def Status.start (s : Status) : Status := { s with busy := true, done := false, err := false }

/-- STATUS after a fault: ERR set, BUSY clear (60_exceptions.md R194). -/
def Status.faulted (s : Status) : Status := { s with err := true, busy := false }

/-- STATUS after HALT: DONE set, BUSY clear (40_sequencer.md R106). -/
def Status.halted (s : Status) : Status := { s with busy := false, done := true }

/-- CTRL as the host reads it: START and SRST read 0 (10_state.md R29). -/
def State.ctrlWord (s : State) : U32 := bitAt s.irqEn 2

/-- The interrupt output: IRQ_EN ∧ (DONE ∨ ERR) (60_exceptions.md R201). -/
def State.irq (s : State) : Bool := s.irqEn && (s.status.done || s.status.err)

/-- The level on a platform interrupt line: the output is wired to IRQ_LINE (R201). -/
def State.irqOn (s : State) (line : Nat) : Bool := line == s.cfg.irqLine && s.irq

end Sys2Proof.Machine
end

