-- ==== Sys2Proof/Machine/Operands.lean ====
section
/-! DEFINITION. Every operand form of a command: the effective operands (40_sequencer.md R98), the windows (30_encoding.md R82; R100), and the checks made before any effect (R99, R100, R101) in the order of 60_exceptions.md R197. -/

namespace Sys2Proof.Machine

open Sys2Proof

/-! ### Effective operands (R98) -/

/-- SRC, DST, LEN_eff and ARG_eff from the flags and words of a descriptor (R98; 30_encoding.md R83 to R85). -/
def State.resolve (s : State) (l p a : Bool) (src dst len arg : U32) : Operands :=
  { src := src
    dst := dst
    lenEff := if l then s.resLen else len
    argEff := if p then s.resPrimary else if a then s.resLen else arg }

/-- The effective operands of a command. -/
def State.operandsOf (s : State) : Instr → Operands
  | .nop => s.resolve false false false 0 0 0 0
  | .halt => s.resolve false false false 0 0 0 0
  | .bwtFwd l src dst len => s.resolve l false false src dst len 0
  | .bwtInv l p src dst len arg => s.resolve l p false src dst len arg
  | .mtfEnc l src dst len => s.resolve l false false src dst len 0
  | .mtfDec l src dst len => s.resolve l false false src dst len 0
  | .rle0Enc l a src dst len arg => s.resolve l false a src dst len arg
  | .rle0Dec l a src dst len arg => s.resolve l false a src dst len arg
  | .cmEnc l a src dst len arg => s.resolve l false a src dst len arg
  | .cmDec l a src dst len arg => s.resolve l false a src dst len arg
  | .blkEnc l a src dst len arg => s.resolve l false a src dst len arg
  | .blkDec l a src dst len arg => s.resolve l false a src dst len arg
  | .strEnc l a src dst len arg => s.resolve l false a src dst len arg
  | .strDec l a src dst len arg => s.resolve l false a src dst len arg

/-! ### Windows (30_encoding.md R82, 40_sequencer.md R100, R101) -/

/-- A byte range [start, start + size) of LMEM. -/
structure Window where
  start : Nat
  size : Nat
deriving DecidableEq, Repr

/-- The window is in range: start + size ≤ LMEM_SIZE, the sum exact (R100). -/
def Window.inRange (w : Window) (c : Config) : Bool := decide (w.start + w.size ≤ c.lmemSize.toNat)

/-- Two windows overlap (R101). -/
def Window.overlaps (v w : Window) : Bool :=
  decide (0 < v.size) && decide (0 < w.size) && decide (v.start < w.start + w.size) && decide (w.start < v.start + v.size)

/-- The address lies in the window. -/
def Window.has (w : Window) (a : Nat) : Bool := decide (w.start ≤ a) && decide (a < w.start + w.size)

/-- The part of a window that lies in LMEM. -/
def Window.clip (w : Window) (c : Config) : Window :=
  let start := min w.start c.lmemSize.toNat
  ⟨start, min (w.start + w.size) c.lmemSize.toNat - start⟩

/-- The source window of a data command (R82). NOP and HALT have none: an empty window at 0 stands for it,
which no check of R100 and R101 can fail. -/
def srcWindow (i : Instr) (o : Operands) : Window :=
  match i with
  | .nop => ⟨0, 0⟩
  | .halt => ⟨0, 0⟩
  | .bwtFwd .. => ⟨o.src.toNat, o.lenEff.toNat⟩
  | .bwtInv .. => ⟨o.src.toNat, o.lenEff.toNat⟩
  | .mtfEnc .. => ⟨o.src.toNat, o.lenEff.toNat⟩
  | .mtfDec .. => ⟨o.src.toNat, o.lenEff.toNat⟩
  | .rle0Enc .. => ⟨o.src.toNat, o.lenEff.toNat⟩
  | .rle0Dec .. => ⟨o.src.toNat, o.lenEff.toNat⟩
  | .cmEnc .. => ⟨o.src.toNat, o.lenEff.toNat⟩
  | .cmDec .. => ⟨o.src.toNat, o.argEff.toNat⟩
  | .blkEnc .. => ⟨o.src.toNat, o.lenEff.toNat⟩
  | .blkDec .. => ⟨o.src.toNat, o.argEff.toNat⟩
  | .strEnc .. => ⟨o.src.toNat, o.lenEff.toNat⟩
  | .strDec .. => ⟨o.src.toNat, o.argEff.toNat⟩

/-- The destination window of a data command (R82), as `srcWindow`. -/
def dstWindow (i : Instr) (o : Operands) : Window :=
  match i with
  | .nop => ⟨0, 0⟩
  | .halt => ⟨0, 0⟩
  | .bwtFwd .. => ⟨o.dst.toNat, o.lenEff.toNat⟩
  | .bwtInv .. => ⟨o.dst.toNat, o.lenEff.toNat⟩
  | .mtfEnc .. => ⟨o.dst.toNat, o.lenEff.toNat⟩
  | .mtfDec .. => ⟨o.dst.toNat, o.lenEff.toNat⟩
  | .rle0Enc .. => ⟨o.dst.toNat, o.argEff.toNat⟩
  | .rle0Dec .. => ⟨o.dst.toNat, o.argEff.toNat⟩
  | .cmEnc .. => ⟨o.dst.toNat, o.argEff.toNat⟩
  | .cmDec .. => ⟨o.dst.toNat, o.lenEff.toNat⟩
  | .blkEnc .. => ⟨o.dst.toNat, o.argEff.toNat⟩
  | .blkDec .. => ⟨o.dst.toNat, o.lenEff.toNat⟩
  | .strEnc .. => ⟨o.dst.toNat, o.argEff.toNat⟩
  | .strDec .. => ⟨o.dst.toNat, o.lenEff.toNat⟩

/-! ### The checks before any effect -/

/-- The block-length checks of BWT_FWD, BWT_INV and BLK_ENC (R99). -/
def blockLenCheck (c : Config) (o : Operands) : Option FaultReport :=
  if o.lenEff.toNat = 0 then some ⟨.lenZero, 0⟩
  else if c.blockMax.toNat < o.lenEff.toNat then some ⟨.lenLimit, o.lenEff⟩
  else none

/-- The primary check of BWT_INV (R99). -/
def primaryCheck (o : Operands) : Option FaultReport :=
  if o.lenEff.toNat ≤ o.argEff.toNat then some ⟨.primaryRange, o.argEff⟩ else none

/-- The static opcode checks (R99). -/
def opcodeCheck (c : Config) (i : Instr) (o : Operands) : Option FaultReport :=
  match i with
  | .bwtFwd .. => blockLenCheck c o
  | .bwtInv .. => (blockLenCheck c o).or (primaryCheck o)
  | .blkEnc .. => blockLenCheck c o
  | .nop => none
  | .halt => none
  | .mtfEnc .. => none
  | .mtfDec .. => none
  | .rle0Enc .. => none
  | .rle0Dec .. => none
  | .cmEnc .. => none
  | .cmDec .. => none
  | .blkDec .. => none
  | .strEnc .. => none
  | .strDec .. => none

/-- The window checks (R100, R101). ERR_INFO is SRC, DST and DST. -/
def windowCheck (c : Config) (src dst : Window) (o : Operands) : Option FaultReport :=
  if !src.inRange c then some ⟨.srcRange, o.src⟩
  else if !dst.inRange c then some ⟨.dstRange, o.dst⟩
  else if src.overlaps dst then some ⟨.overlap, o.dst⟩
  else none

/-- The first static fault of a decoded command, in the order of 60_exceptions.md R197 items 5 to 8. -/
def State.staticFault (s : State) (i : Instr) : Option FaultReport :=
  let o := s.operandsOf i
  (opcodeCheck s.cfg i o).or (windowCheck s.cfg (srcWindow i o) (dstWindow i o) o)

end Sys2Proof.Machine
end

