-- ==== Sys2Proof/Machine/Ops.lean ====
section
/-! DEFINITION. The shared operations: LMEM (00_scope.md R15), fetch (40_sequencer.md R96), taking a fault (60_exceptions.md R194) and restarting after one (R199, 40_sequencer.md R95), completion (R103), the two resets (70_reset_and_hazards.md R210, R212), and the frame every data command runs in (R98 to R104). -/

namespace Sys2Proof.Machine

open Sys2Proof

/-! ### LMEM (00_scope.md R15, 10_state.md R45) -/

/-- `MemByte(a)`: the byte written last, else the free power-on byte of the address (R15, R211; log 3). -/
def Lmem.byte (m : Lmem) (a : Nat) : Byte := (tableGet a m.cells).getD (Config.powerOnByte m.seed a)

/-- `MemBytes(a, n)` (R15). -/
def Lmem.bytes (m : Lmem) : Nat → Nat → List Byte
  | _, 0 => []
  | a, n + 1 => m.byte a :: Lmem.bytes m (a + 1) n

/-- `MemRead(a, n)`: the little-endian value (R15). -/
def Lmem.read (m : Lmem) (a n : Nat) : Nat := leNat (m.bytes a n)

/-- One byte written. -/
def Lmem.writeByte (m : Lmem) (a : Nat) (b : Byte) : Lmem := { m with cells := tableSet a b m.cells }

/-- `MemWriteBytes(a, s)`: s[k] goes to address a + k (R15). -/
def Lmem.writeBytes (m : Lmem) : Nat → List Byte → Lmem
  | _, [] => m
  | a, b :: bs => Lmem.writeBytes (m.writeByte a b) (a + 1) bs

/-- `MemWrite(a, n, v)`: the n bytes of v, little-endian (R15). -/
def Lmem.write (m : Lmem) (a n v : Nat) : Lmem := m.writeBytes a (leBytes n v)

/-- The free bytes of a window that becomes unspecified (60_exceptions.md R196, 70_reset_and_hazards.md R212; log 9). -/
def freeBytes (k : Nat) (w : Window) : List Byte := (List.range w.size).map fun j => Config.freeByte k (w.start + j)

/-- Every byte of a window becomes unspecified. -/
def Lmem.scramble (m : Lmem) (k : Nat) (w : Window) : Lmem := m.writeBytes w.start (freeBytes k w)

/-- The canonical form: addresses strictly rising. No listed byte can equal what its unlisted address reads
as, because that is no known value (log 3). -/
def Memory.wf (m : Lmem) : Bool := rising m.cells

/-! ### The end of a command's scratch (10_state.md R47, R48) -/

/-- The latch, the effective operands and the unit state are discarded: free from here on (log 8). -/
def State.dropScratch (s : State) : State :=
  { s with scratch := Config.freeScratch s.freeCount, freeCount := s.freeCount + 1 }

/-! ### Taking a fault, and the way back (60_exceptions.md R194, R199) -/

/-- `raise Fault(code, info)` (R194): ERR_CODE, ERR_INFO and ERR_PTR are written, ERR is set and BUSY
cleared; CMD_PTR, CMD_COUNT and the RES registers keep their values. -/
def State.raiseFault (s : State) (f : FaultReport) : State :=
  { s with errCode := f.code, errInfo := f.info, errPtr := s.cmdPtr, status := s.status.faulted }.dropScratch

/-- An accepted START (40_sequencer.md R95): the only way on after a fault or a HALT (R199). It starts at
CMD_PTR, so without a write of CMD_PTR the faulting descriptor runs again. -/
def State.acceptStart (s : State) : State :=
  { s with status := s.status.start, errCode := .none, errPtr := 0, errInfo := 0, cmdCount := 0 }

/-! ### Completion (40_sequencer.md R103, R105) -/

/-- The result registers a command writes; none leaves a register unchanged (R105). -/
structure Results where
  len : Option U32
  primary : Option U32
  aux : Option U32
deriving DecidableEq, Repr

/-- The results of NOP and HALT: every register unchanged (R105). -/
def Results.keep : Results := ⟨none, none, none⟩

/-- Completion (R103): the results are committed, CMD_COUNT counts the command, CMD_PTR advances by 32. -/
def State.complete (s : State) (r : Results) : State :=
  { s with
    resLen := r.len.getD s.resLen
    resPrimary := r.primary.getD s.resPrimary
    resAux := r.aux.getD s.resAux
    cmdCount := s.cmdCount + 1
    cmdPtr := s.cmdPtr + 32 }.dropScratch

/-! ### The frame of a data command (40_sequencer.md R102, R104) -/

/-- What the operation of a data command does. -/
inductive Effect where
  /-- It finishes: the bytes it writes from DST on, its results, the DBG snapshot if it ran a coder phase, its sticky events. -/
  | done (out : List Byte) (results : Results) (dbg : Option Dbg) (sticky : Sticky)
  /-- It raises a dynamic fault: whether a coder phase had started, and the sticky events before the fault. -/
  | fault (report : FaultReport) (coder : Bool) (sticky : Sticky)
deriving DecidableEq, Repr

/-- A data command that finished: DST written, DBG snapshot taken, sticky bits set, then completion. -/
def State.finish (s : State) (dst : Nat) (out : List Byte) (r : Results) (dbg : Option Dbg) (k : Sticky) : State :=
  { s with lmem := s.lmem.writeBytes dst out, dbg := dbg.getD s.dbg, status := s.status.stick k }.complete r

/-- The state a dynamic fault leaves before R194's updates (60_exceptions.md R196): the destination window
is free, the DBG registers are free if a coder phase had started, the sticky bits stay. -/
def State.spoil (s : State) (w : Window) (coder : Bool) (k : Sticky) : State :=
  { s with
    lmem := s.lmem.scramble s.freeCount w
    dbg := if coder then Config.freeDbg s.freeCount else s.dbg
    status := s.status.stick k }

/-- The effect of an operation on the state (R102 to R105, R196). DESIGN CHOICE (unsafe, log 24): its sticky
bits show to a host read of STATUS from the end of the command on, not from their event inside it. -/
def State.applyEffect (s : State) (w : Window) : Effect → State
  | .done out r dbg k => s.finish w.start out r dbg k
  | .fault f coder k => (s.spoil w coder k).raiseFault f

/-- A data command after its decode (R98 to R104): operand resolution, the static checks, the operation on
the effective operands, completion or fault. -/
def runCommand (i : Instr) (s : State) (op : Operands → Effect) : Host.Outcome State Fault Refusal :=
  match s.staticFault i with
  | some f => .next (s.raiseFault f)
  | none => .next (s.applyEffect (dstWindow i (s.operandsOf i)) (op (s.operandsOf i)))

/-! ### Fetch (40_sequencer.md R96) -/

/-- The fetch checks (R96): CMD_ALIGN, then CMD_RANGE, the sum exact. -/
def State.fetchFault (s : State) : Option FaultReport :=
  if s.cmdPtr.toNat % 4 ≠ 0 then some ⟨.cmdAlign, s.cmdPtr⟩
  else if s.cfg.lmemSize.toNat < s.cmdPtr.toNat + 32 then some ⟨.cmdRange, s.cmdPtr⟩
  else none

/-- The descriptor at CMD_PTR: eight little-endian words (R96, 30_encoding.md R79). -/
def State.fetched (s : State) : Descriptor := Descriptor.ofBytes (s.lmem.bytes s.cmdPtr.toNat 32)

/-- The descriptor is latched whole for the command (R96; 20_memory.md R77). -/
def State.latch (s : State) (d : Descriptor) : State := { s with scratch := { s.scratch with latch := d } }

/-- The fault of a rejected descriptor (40_sequencer.md R97). `notDescriptor` cannot occur: `decode` never
answers it, and it is read as RESERVED_NZ of word 0 only to make the function total. -/
def rejectReport : Reject → FaultReport
  | .illegalOp w0 => ⟨.illegalOp, w0⟩
  | .reservedNz j => ⟨.reservedNz, BitVec.ofNat 32 j⟩
  | .notDescriptor => ⟨.reservedNz, 0⟩

/-! ### The resets (70_reset_and_hazards.md R210, R212) -/

/-- Every MMIO register takes its reset value (10_state.md R27) and the internal state is discarded. -/
def State.resetRegisters (s : State) : State :=
  { s with
    irqEn := false
    status := Status.reset
    cmdPtr := 0
    errCode := .none
    errPtr := 0
    errInfo := 0
    resLen := 0
    resPrimary := 0
    resAux := 0
    cmdCount := 0
    dbg := Dbg.reset }.dropScratch

/-- Power-on reset (R210): the registers at their reset values, every LMEM byte unspecified anew. The seed is
one that no earlier power-on took, so that nothing tells whether an unwritten byte keeps its value over the
reset (R211; log 3). -/
def State.powerOn (s : State) : State := { s with lmem := ⟨s.lmem.seed + 1, []⟩ }.resetRegisters

/-- The destination window of the command that an SRST stops, as far as it lies in LMEM: that of the
descriptor at CMD_PTR, whatever its static checks would say. A descriptor that fails its fetch or its decode
has no operands and so no window (log 1). -/
def State.runningWindow (s : State) : Option Window :=
  match s.fetchFault with
  | some _ => none
  | none =>
    match decode s.fetched with
    | .error _ => none
    | .ok i => some ((dstWindow i (s.operandsOf i)).clip s.cfg)

/-- The running command stops at once and its destination window becomes unspecified (R212). -/
def State.stopRunning (s : State) : State :=
  match s.runningWindow with
  | some w => { s with lmem := s.lmem.scramble s.freeCount w }
  | none => s

/-- Soft reset (R212). -/
def State.softReset (s : State) : State :=
  if s.status.busy then s.stopRunning.resetRegisters else s.resetRegisters

end Sys2Proof.Machine
end

