-- ==== Sys2Proof/Machine/Rle0.lean ====
section
/-! DEFINITION. The zero-run coder (43_rle0.md R127, R129). -/

namespace Sys2Proof.Machine

open Sys2Proof

/-- RleEncode's loop with a run of r zeros counted and not yet emitted (R127): a run ends at a nonzero
byte, at 255 zeros or at the end of the input, and is emitted as the two bytes 0, r. -/
def rleEncodeRun : Nat → List Byte → List Byte
  | 0, [] => []
  | r + 1, [] => [0, BitVec.ofNat 8 (r + 1)]
  | 0, b :: x => if b = 0 then rleEncodeRun 1 x else b :: rleEncodeRun 0 x
  | r + 1, b :: x =>
    if b = 0 then
      if r + 1 < 255 then rleEncodeRun (r + 2) x else 0 :: BitVec.ofNat 8 (r + 1) :: rleEncodeRun 1 x
    else 0 :: BitVec.ofNat 8 (r + 1) :: b :: rleEncodeRun 0 x

/-- `RleEncode(x)` (R127). -/
def rleEncode (x : List Byte) : List Byte := rleEncodeRun 0 x

/-- `RleDecode(y) = (out, trail)` (R129). -/
def rleDecode : List Byte → List Byte × Bool
  | [] => ([], false)
  | [b] => ([b], b == 0)
  | b :: r :: y =>
    if b = 0 then
      let d := rleDecode y
      (List.replicate r.toNat 0 ++ d.1, d.2)
    else
      let d := rleDecode (r :: y)
      (b :: d.1, d.2)

end Sys2Proof.Machine
end

