-- ==== Sys2Proof/Machine/Stages.lean ====
section
/-! DEFINITION. The meanings of the BWT, MTF and RLE0 commands (41_bwt.md R117, R118; 42_mtf.md R124, R125; 43_rle0.md R131, R132). -/

namespace Sys2Proof.Machine

open Sys2Proof

/-- A length or count as a register holds it (40_sequencer.md R105). -/
def asU32 (n : Nat) : U32 := BitVec.ofNat 32 n

/-- The operation of BWT_FWD (R117). -/
def opBwtFwd (m : Lmem) (o : Operands) : Effect :=
  let r := bwtForward (m.bytes o.src.toNat o.lenEff.toNat)
  .done r.1 ⟨some o.lenEff, some (asU32 r.2), none⟩ none Sticky.quiet

/-- BWT_FWD (R117). -/
def execBwtFwd (l : Bool) (src dst len : U32) (s : State) : Host.Outcome State Fault Refusal :=
  runCommand (.bwtFwd l src dst len) s (opBwtFwd s.lmem)

/-- The operation of BWT_INV (R118). -/
def opBwtInv (m : Lmem) (o : Operands) : Effect :=
  .done (bwtInverse (m.bytes o.src.toNat o.lenEff.toNat) o.argEff.toNat) ⟨some o.lenEff, none, none⟩ none Sticky.quiet

/-- BWT_INV (R118). -/
def execBwtInv (l p : Bool) (src dst len arg : U32) (s : State) : Host.Outcome State Fault Refusal :=
  runCommand (.bwtInv l p src dst len arg) s (opBwtInv s.lmem)

/-- The operation of MTF_ENC (R124). -/
def opMtfEnc (m : Lmem) (o : Operands) : Effect :=
  .done (mtfEncode (m.bytes o.src.toNat o.lenEff.toNat)) ⟨some o.lenEff, none, none⟩ none Sticky.quiet

/-- MTF_ENC (R124). -/
def execMtfEnc (l : Bool) (src dst len : U32) (s : State) : Host.Outcome State Fault Refusal :=
  runCommand (.mtfEnc l src dst len) s (opMtfEnc s.lmem)

/-- The operation of MTF_DEC (R125). -/
def opMtfDec (m : Lmem) (o : Operands) : Effect :=
  .done (mtfDecode (m.bytes o.src.toNat o.lenEff.toNat)) ⟨some o.lenEff, none, none⟩ none Sticky.quiet

/-- MTF_DEC (R125). -/
def execMtfDec (l : Bool) (src dst len : U32) (s : State) : Host.Outcome State Fault Refusal :=
  runCommand (.mtfDec l src dst len) s (opMtfDec s.lmem)

/-- The operation of RLE0_ENC (R131). -/
def opRle0Enc (m : Lmem) (o : Operands) : Effect :=
  let y := rleEncode (m.bytes o.src.toNat o.lenEff.toNat)
  if o.argEff.toNat < y.length then .fault ⟨.outOverflow, o.argEff⟩ false Sticky.quiet
  else .done y ⟨some (asU32 y.length), none, none⟩ none Sticky.quiet

/-- RLE0_ENC (R131). -/
def execRle0Enc (l a : Bool) (src dst len arg : U32) (s : State) : Host.Outcome State Fault Refusal :=
  runCommand (.rle0Enc l a src dst len arg) s (opRle0Enc s.lmem)

/-- The operation of RLE0_DEC (R132): RLE_TRAIL is set even if the command then faults. -/
def opRle0Dec (m : Lmem) (o : Operands) : Effect :=
  let x := rleDecode (m.bytes o.src.toNat o.lenEff.toNat)
  if o.argEff.toNat < x.1.length then .fault ⟨.outOverflow, o.argEff⟩ false ⟨x.2, false, false⟩
  else .done x.1 ⟨some (asU32 x.1.length), none, none⟩ none ⟨x.2, false, false⟩

/-- RLE0_DEC (R132). -/
def execRle0Dec (l a : Bool) (src dst len arg : U32) (s : State) : Host.Outcome State Fault Refusal :=
  runCommand (.rle0Dec l a src dst len arg) s (opRle0Dec s.lmem)

end Sys2Proof.Machine
end

