-- ==== Sys2Proof/Machine/CoderCommands.lean ====
section
/-! DEFINITION. The meanings of CM_ENC and CM_DEC (46_range_coder.md R176, R177). -/

namespace Sys2Proof.Machine

open Sys2Proof

/-- The operation of CM_ENC (R176). -/
def opCmEnc (c : Config) (m : Lmem) (o : Operands) : Effect :=
  let u := cmEncodePhase c (m.bytes o.src.toNat o.lenEff.toNat)
  let y := encFinish u.coder
  if o.argEff.toNat < y.length then .fault ⟨.outOverflow, o.argEff⟩ true ⟨false, false, u.inv⟩
  else .done y ⟨some (asU32 y.length), none, none⟩ (some (dbgSnapshot u)) ⟨false, false, u.inv⟩

/-- CM_ENC (R176). -/
def execCmEnc (l a : Bool) (src dst len arg : U32) (s : State) : Host.Outcome State Fault Refusal :=
  runCommand (.cmEnc l a src dst len arg) s (opCmEnc s.cfg s.lmem)

/-- The operation of CM_DEC (R177). -/
def opCmDec (c : Config) (m : Lmem) (o : Operands) : Effect :=
  let d := cmDecodePhase c (m.bytes o.src.toNat o.argEff.toNat) o.lenEff.toNat
  .done d.2 ⟨some o.lenEff, none, some (asU32 d.1.coder.rd)⟩ (some (dbgSnapshot d.1)) ⟨false, false, d.1.inv⟩

/-- CM_DEC (R177). -/
def execCmDec (l a : Bool) (src dst len arg : U32) (s : State) : Host.Outcome State Fault Refusal :=
  runCommand (.cmDec l a src dst len arg) s (opCmDec s.cfg s.lmem)

end Sys2Proof.Machine
end

