-- ==== Sys2Proof/Machine/BlockDriver.lean ====
section
/-! DEFINITION. The block driver and the meanings of BLK_ENC, BLK_DEC, STR_ENC and STR_DEC (47_block_driver.md R181 to R188). -/

namespace Sys2Proof.Machine

open Sys2Proof

/-! ### One block -/

/-- What encoding one block gives: the record, its primary and rleCount, and the final state of its coder phase. -/
structure EncodedBlock where
  record : List Byte
  primary : Nat
  rleCount : Nat
  cm : CmUnit
deriving DecidableEq, Repr

/-- `BlockEncode(s)` (R183), every stage from fresh state. Of an RLE0 stream of 2^32 bytes or more, which only a
block above 2^31 bytes can give, the rleCount field holds the low 32 bits of the length: DEDUCED (unsafe,
log 26), because R183 gives such a length no 4-byte encoding. -/
def blockEncode (c : Config) (s : List Byte) : EncodedBlock :=
  let b := bwtForward s
  let r := rleEncode (mtfEncode b.1)
  let u := cmEncodePhase c r
  let pay := encFinish u.coder
  { record := leBytes 4 s.length ++ leBytes 4 b.2 ++ leBytes 4 r.length ++ leBytes 4 pay.length ++ pay
    primary := b.2
    rleCount := r.length
    cm := u }

/-- What decoding one record gives: the block, the record length, the record's primary, the final state of
its coder phase, and whether the RLE0 stream ended in a lone zero. -/
structure DecodedBlock where
  block : List Byte
  recLen : Nat
  primary : U32
  cm : CmUnit
  trail : Bool
deriving DecidableEq, Repr

/-- A fault inside `BlockDecode`, whether the block's coder phase had started, and the sticky events before it. -/
structure BlockFault where
  report : FaultReport
  coder : Bool
  sticky : Sticky
deriving DecidableEq, Repr

/-- The header checks of `BlockDecode` in the order of R184, each with ERR_INFO = a. -/
def headerFault (c : Config) (m : Lmem) (a avail cap : Nat) : Option FaultReport :=
  let n := m.read a 4
  let pr := m.read (a + 4) 4
  let rc := m.read (a + 8) 4
  let cs := m.read (a + 12) 4
  if avail < 16 then some ⟨.truncated, asU32 a⟩
  else if c.blockMax.toNat < n then some ⟨.lenLimit, asU32 a⟩
  else if n ≤ pr then some ⟨.primaryRange, asU32 a⟩
  else if cap < n then some ⟨.outOverflow, asU32 a⟩
  else if avail < 16 + cs then some ⟨.truncated, asU32 a⟩
  else if 2 * n < rc then some ⟨.lenMismatch, asU32 a⟩
  else none

/-- `BlockDecode(a, avail, cap)` (R184): the header checks, the coder phase, the RLE0 decode and its length
check, then the MTF and BWT inverses. -/
def blockDecode (c : Config) (m : Lmem) (a avail cap : Nat) : Except BlockFault DecodedBlock :=
  match headerFault c m a avail cap with
  | some f => .error ⟨f, false, Sticky.quiet⟩
  | none =>
    let n := m.read a 4
    let pr := m.read (a + 4) 4
    let rc := m.read (a + 8) 4
    let cs := m.read (a + 12) 4
    let d := cmDecodePhase c (m.bytes (a + 16) cs) rc
    let r := rleDecode d.2
    if r.1.length ≠ n then .error ⟨⟨.lenMismatch, asU32 a⟩, true, ⟨r.2, false, d.1.inv⟩⟩
    else .ok ⟨bwtInverse (mtfDecode r.1) pr, 16 + cs, asU32 pr, d.1, r.2⟩

/-! ### BLK_ENC and BLK_DEC -/

/-- The operation of BLK_ENC (R185). -/
def opBlkEnc (c : Config) (m : Lmem) (o : Operands) : Effect :=
  let e := blockEncode c (m.bytes o.src.toNat o.lenEff.toNat)
  if o.argEff.toNat < e.record.length then .fault ⟨.outOverflow, o.argEff⟩ true ⟨false, false, e.cm.inv⟩
  else .done e.record ⟨some (asU32 e.record.length), some (asU32 e.primary), some (asU32 e.rleCount)⟩
    (some (dbgSnapshot e.cm)) ⟨false, false, e.cm.inv⟩

/-- BLK_ENC (R185). -/
def execBlkEnc (l a : Bool) (src dst len arg : U32) (s : State) : Host.Outcome State Fault Refusal :=
  runCommand (.blkEnc l a src dst len arg) s (opBlkEnc s.cfg s.lmem)

/-- The operation of BLK_DEC (R186). -/
def opBlkDec (c : Config) (m : Lmem) (o : Operands) : Effect :=
  match blockDecode c m o.src.toNat o.argEff.toNat o.lenEff.toNat with
  | .error f => .fault f.report f.coder f.sticky
  | .ok d =>
    .done d.block ⟨some (asU32 d.block.length), some d.primary, some (asU32 d.recLen)⟩
      (some (dbgSnapshot d.cm)) ⟨d.trail, false, d.cm.inv⟩

/-- BLK_DEC (R186). -/
def execBlkDec (l a : Bool) (src dst len arg : U32) (s : State) : Host.Outcome State Fault Refusal :=
  runCommand (.blkDec l a src dst len arg) s (opBlkDec s.cfg s.lmem)

/-! ### STR_ENC -/

/-- The blocks of an input: consecutive runs of n bytes with a shorter last one (R187). The fuel is the
input's length, which a positive n never exhausts (log 21). -/
def chunksOf (n : Nat) : Nat → List Byte → List (List Byte)
  | 0, _ => []
  | _ + 1, [] => []
  | fuel + 1, b :: x => (b :: x).take n :: chunksOf n fuel ((b :: x).drop n)

/-- The blocks STR_ENC encodes (R187). -/
def strBlocks (c : Config) (x : List Byte) : List (List Byte) := chunksOf c.blockMax.toNat x.length x

/-- The encoded blocks of an input (R187). -/
def strEncoded (c : Config) (x : List Byte) : List EncodedBlock := (strBlocks c x).map (blockEncode c)

/-- The container: fullSize as u64, then the records (R182, R187). -/
def strContainer (c : Config) (x : List Byte) : List Byte :=
  leBytes 8 x.length ++ (strEncoded c x).flatMap (·.record)

/-- The operation of STR_ENC (R187). The DBG snapshot is the last block's, none if there is no block. -/
def opStrEnc (c : Config) (m : Lmem) (o : Operands) : Effect :=
  let x := m.bytes o.src.toNat o.lenEff.toNat
  let blocks := strEncoded c x
  let out := strContainer c x
  let k : Sticky := ⟨false, false, blocks.any fun e => e.cm.inv⟩
  if o.argEff.toNat < out.length then .fault ⟨.outOverflow, o.argEff⟩ (!blocks.isEmpty) k
  else .done out ⟨some (asU32 out.length), none, some (asU32 blocks.length)⟩
    (blocks.getLast?.map fun e => dbgSnapshot e.cm) k

/-- STR_ENC (R187). -/
def execStrEnc (l a : Bool) (src dst len arg : U32) (s : State) : Host.Outcome State Fault Refusal :=
  runCommand (.strEnc l a src dst len arg) s (opStrEnc s.cfg s.lmem)

/-! ### STR_DEC -/

/-- What STR_DEC has decoded so far: the output, the records read, the last coder phase, the sticky events. -/
structure StrProgress where
  out : List Byte
  records : Nat
  cm : Option CmUnit
  sticky : Sticky
deriving DecidableEq, Repr

/-- Before the first record. -/
def StrProgress.start : StrProgress := ⟨[], 0, none, Sticky.quiet⟩

/-- One decoded record added (R188). -/
def StrProgress.add (p : StrProgress) (d : DecodedBlock) : StrProgress :=
  ⟨p.out ++ d.block, p.records + 1, some d.cm, ⟨p.sticky.rleTrail || d.trail, false, p.sticky.coderInv || d.cm.inv⟩⟩

/-- A fault in a later record, with what the earlier records did (R188, 46_range_coder.md R178). -/
def StrProgress.fail (p : StrProgress) (f : BlockFault) : BlockFault :=
  ⟨f.report, p.cm.isSome || f.coder, ⟨p.sticky.rleTrail || f.sticky.rleTrail, false, p.sticky.coderInv || f.sticky.coderInv⟩⟩

/-- "The decoder reads blocks in a loop until EOF" (R188): records from offset off of the container at src,
while off < avail. Every record is at least 16 bytes long, so avail passes are enough (log 21). -/
def strDecodeLoop (c : Config) (m : Lmem) (src avail cap : Nat) : Nat → Nat → StrProgress → Except BlockFault StrProgress
  | 0, _, p => .ok p
  | fuel + 1, off, p =>
    if off < avail then
      match blockDecode c m (src + off) (avail - off) (cap - p.out.length) with
      | .error f => .error (p.fail f)
      | .ok d => strDecodeLoop c m src avail cap fuel (off + d.recLen) (p.add d)
    else .ok p

/-- The operation of STR_DEC (R188): a fullSize mismatch is reported, not a fault. -/
def opStrDec (c : Config) (m : Lmem) (o : Operands) : Effect :=
  let avail := o.argEff.toNat
  if avail < 8 then .fault ⟨.truncated, o.src⟩ false Sticky.quiet
  else
    match strDecodeLoop c m o.src.toNat avail o.lenEff.toNat avail 8 StrProgress.start with
    | .error f => .fault f.report f.coder f.sticky
    | .ok p =>
      .done p.out ⟨some (asU32 p.out.length), none, some (asU32 p.records)⟩ (p.cm.map dbgSnapshot)
        ⟨p.sticky.rleTrail, decide (p.out.length ≠ m.read o.src.toNat 8), p.sticky.coderInv⟩

/-- STR_DEC (R188). -/
def execStrDec (l a : Bool) (src dst len arg : U32) (s : State) : Host.Outcome State Fault Refusal :=
  runCommand (.strDec l a src dst len arg) s (opStrDec s.cfg s.lmem)

end Sys2Proof.Machine
end

