-- ==== Sys2Proof/Machine/Sequencer.lean ====
section
/-! DEFINITION. The meanings of NOP and HALT (40_sequencer.md R106, R107). -/

namespace Sys2Proof.Machine

open Sys2Proof

/-- NOP (R107): nothing but the completion of R103. -/
def execNop (s : State) : Host.Outcome State Fault Refusal := .next (s.complete Results.keep)

/-- HALT (R106): completion, then BUSY <- 0 and DONE <- 1. -/
def execHalt (s : State) : Host.Outcome State Fault Refusal :=
  let t := s.complete Results.keep
  .next { t with status := t.status.halted }

end Sys2Proof.Machine
end

