-- ==== Sys2Proof/Machine/Dispatch.lean ====
section
/-! DEFINITION. The dispatch: one arm per command, each a direct call of its meaning. -/

namespace Sys2Proof.Machine

def exec (i : Instr) (s : State) : Host.Outcome State Fault Refusal :=
  match i with
  | .nop => Sys2Proof.Machine.execNop s
  | .halt => Sys2Proof.Machine.execHalt s
  | .bwtFwd l src dst len => Sys2Proof.Machine.execBwtFwd l src dst len s
  | .bwtInv l p src dst len arg => Sys2Proof.Machine.execBwtInv l p src dst len arg s
  | .mtfEnc l src dst len => Sys2Proof.Machine.execMtfEnc l src dst len s
  | .mtfDec l src dst len => Sys2Proof.Machine.execMtfDec l src dst len s
  | .rle0Enc l a src dst len arg => Sys2Proof.Machine.execRle0Enc l a src dst len arg s
  | .rle0Dec l a src dst len arg => Sys2Proof.Machine.execRle0Dec l a src dst len arg s
  | .cmEnc l a src dst len arg => Sys2Proof.Machine.execCmEnc l a src dst len arg s
  | .cmDec l a src dst len arg => Sys2Proof.Machine.execCmDec l a src dst len arg s
  | .blkEnc l a src dst len arg => Sys2Proof.Machine.execBlkEnc l a src dst len arg s
  | .blkDec l a src dst len arg => Sys2Proof.Machine.execBlkDec l a src dst len arg s
  | .strEnc l a src dst len arg => Sys2Proof.Machine.execStrEnc l a src dst len arg s
  | .strDec l a src dst len arg => Sys2Proof.Machine.execStrDec l a src dst len arg s

end Sys2Proof.Machine
end

