-- ==== Sys2Proof/Machine/HostPort.lean ====
section
/-! DEFINITION. The host's port: the register map and its access types (10_state.md R27 to R44), CTRL writes (R29), accesses while BUSY (20_memory.md R71), LMEM accesses (R68) and the accesses a model refuses. -/

namespace Sys2Proof.Machine

open Sys2Proof

/-- ID (10_state.md R28). -/
def idValue : U32 := 0x5A420007

/-- The size of the register block (R27). -/
def mmioSize : Nat := 4096

/-- The offset is reserved (R27, R44). -/
def reservedOffset (off : Nat) : Bool :=
  (decide (0x034 ≤ off) && decide (off < 0x040)) || (decide (0x058 ≤ off) && decide (off < 0x080)) || decide (0x0C0 ≤ off)

/-- The DBG_W register at an offset 0x080 to 0x0BC: LO at a multiple of 8, HI 4 above it (R43). -/
def dbgWeight (d : Dbg) (off : Nat) : U32 :=
  let i := Fin.ofNat 8 ((off - 0x080) / 8)
  if off % 8 = 0 then d.wLo.get i else d.wHi.get i

/-- What the register at an offset holds (R27 to R43); reserved offsets read 0 (R44). -/
def State.register (s : State) (off : Nat) : U32 :=
  if reservedOffset off then 0
  else if 0x080 ≤ off then dbgWeight s.dbg off
  else match off with
    | 0x000 => idValue
    | 0x004 => s.ctrlWord
    | 0x008 => s.status.word
    | 0x00C => s.cmdPtr
    | 0x010 => s.errCode.num
    | 0x014 => s.errPtr
    | 0x018 => s.errInfo
    | 0x01C => s.resLen
    | 0x020 => s.resPrimary
    | 0x024 => s.resAux
    | 0x028 => s.cmdCount
    | 0x02C => s.cfg.lmemSize
    | 0x030 => s.cfg.blockMax
    | 0x040 => s.dbg.low
    | 0x044 => s.dbg.high
    | 0x048 => s.dbg.follow
    | 0x04C => s.dbg.code
    | 0x050 => s.dbg.pmix
    | 0x054 => s.dbg.nbits
    | _ => 0

/-- A read of the offset is exact while BUSY = 1: STATUS, ID, the CFG registers (20_memory.md R71), and the
reserved offsets, which are no registers (R44; log 11). -/
def exactWhileBusy (off : Nat) : Bool :=
  off == 0x000 || off == 0x008 || off == 0x02C || off == 0x030 || reservedOffset off

/-- A host read of a register: no side effect; a free value for an inexact register while BUSY (R69, R71; log 11). -/
def State.mmioRead (s : State) (off : Nat) : State :=
  if s.status.busy && !exactWhileBusy off then
    { s with hostData := .word (Config.freeRead s.freeCount), freeCount := s.freeCount + 1 }
  else { s with hostData := .word (s.register off) }

/-- A host write of CTRL (R29): SRST acts and wins over START; every other write sets IRQ_EN, and START is
accepted while idle. With SRST, IRQ_EN ends at its reset value (70_reset_and_hazards.md R212; log 12). -/
def State.writeCtrl (s : State) (v : U32) : State :=
  if v.getLsbD 1 then s.softReset
  else
    let t := { s with irqEn := v.getLsbD 2 }
    if v.getLsbD 0 && !s.status.busy then t.acceptStart else t

/-- A host write of a register (R27 to R44): only CTRL acts while BUSY; read-only registers and reserved
offsets ignore writes. -/
def State.mmioWrite (s : State) (off : Nat) (v : U32) : State :=
  if off = 0x004 then s.writeCtrl v
  else if s.status.busy then s
  else if off = 0x008 then { s with status := s.status.writeOneToClear v }
  else if off = 0x00C then { s with cmdPtr := v }
  else s

/-- The block offset of a naturally aligned 32-bit access within the register block; none is an access
without meaning (20_memory.md R68; log 15). -/
def mmioOffset (c : Config) (addr width : Nat) : Option Nat :=
  if width = 4 ∧ c.mmioBase ≤ addr ∧ addr < c.mmioBase + mmioSize ∧ (addr - c.mmioBase) % 4 = 0 then some (addr - c.mmioBase)
  else none

/-- One access of the host or the platform on a state whose queue no longer holds it. `turn` is the sequencer's. -/
def hostStep (s : State) : HostAccess → Host.Outcome State Fault Refusal
  | .turn => .next s
  | .mmioWrite addr width v =>
    match mmioOffset s.cfg addr width with
    | some off => .next (s.mmioWrite off v)
    | none => .refused .mmioAccess
  | .mmioRead addr width =>
    match mmioOffset s.cfg addr width with
    | some off => .next (s.mmioRead off)
    | none => .refused .mmioAccess
  | .lmemWrite addr bytes =>
    if s.status.busy then .refused .lmemWhileBusy
    else if s.cfg.lmemSize.toNat < addr + bytes.length then .fault .hostLmemRange
    else .next { s with lmem := s.lmem.writeBytes addr bytes }
  | .lmemRead addr n =>
    if s.status.busy then .refused .lmemWhileBusy
    else if s.cfg.lmemSize.toNat < addr + n then .fault .hostLmemRange
    else .next { s with hostData := .bytes (s.lmem.bytes addr n) }
  | .powerOnReset => .next s.powerOn

end Sys2Proof.Machine
end

