-- ==== Sys2Proof/Machine/Turn.lean ====
section
/-! DEFINITION. One step of the sequencer (40_sequencer.md R104) and who moves next (log 2). -/

namespace Sys2Proof.Machine

open Sys2Proof

/-- `Step()` while BUSY = 1 (R104): fetch, latch, decode, and the command; a fetch or decode fault ends the list. -/
def commandStep (s : State) : Host.Outcome State Fault Refusal :=
  match s.fetchFault with
  | some f => .next (s.raiseFault f)
  | none =>
    match decode s.fetched with
    | .error r => .next ((s.latch s.fetched).raiseFault (rejectReport r))
    | .ok i => exec i (s.latch s.fetched)

/-- The sequencer's turn: a step while BUSY = 1; while idle it changes no state (60_exceptions.md R209). -/
def sequencerTurn (s : State) : Host.Outcome State Fault Refusal :=
  if s.status.busy then commandStep s else .next s

/-- The next move: the head of the host's queue, or the sequencer's turn when the queue is empty (log 2). -/
def nextMove (s : State) : Host.Outcome State Fault Refusal :=
  match s.hostQueue with
  | [] => sequencerTurn s
  | .turn :: rest => sequencerTurn { s with hostQueue := rest }
  | a :: rest => hostStep { s with hostQueue := rest } a

/-- A list whose next command is the given descriptor bytes: they stand at CMD_PTR, BUSY is set as an
accepted START leaves it, and the host has nothing to do first. -/
def State.loadCommand (s : State) (bytes : List Byte) : State :=
  { s with lmem := s.lmem.writeBytes s.cmdPtr.toNat bytes, status := { s.status with busy := true }, hostQueue := [] }

end Sys2Proof.Machine
end

