-- ==== Sys2Proof/Machine/Step.lean ====
section
/-! DEFINITION. The step of the machine and the host's way of placing one instruction. -/

namespace Sys2Proof.Machine

open Sys2Proof

/-- One step: one host access, one command of the sequencer, or an idle moment. -/
def step (s : State) : Host.Outcome State Fault Refusal := nextMove s

/-- The state with an instruction's bits stored where the next step fetches it, the list running (log 19). -/
def State.withFetchWord (s : State) (nbits w : Nat) : State := s.loadCommand (leBytes 32 (w % 2 ^ nbits))

end Sys2Proof.Machine
end

