-- ==== Sys2Proof/Machine/Asm.lean ====
section
/-! DEFINITION. The assembly of 30_encoding.md R92 as items (their reading from text is left out, log 23), its translation to LMEM bytes, and the pseudo-instructions of R94. -/

namespace Sys2Proof.Machine

open Sys2Proof

/-- An operand: a number or a label (R92). -/
inductive AsmOperand where
  | num (n : Nat)
  | label (name : String)
deriving DecidableEq, Repr

/-- One item of an assembly program (R92). -/
inductive AsmItem where
  /-- `label:` -/
  | label (name : String)
  /-- `MNEMONIC[.FLAGS] dst, src, len [, arg]`; `flags` holds the letters L, P, A in the order written. -/
  | command (op : Op) (flags : List Char) (dst src len : AsmOperand) (arg : Option AsmOperand)
  /-- `NOP` or `HALT`. -/
  | plain (op : Op)
  /-- `.org addr` -/
  | org (addr : Nat)
  /-- `.byte b, …` -/
  | byte (bs : List Nat)
  /-- `.ascii "text"` -/
  | ascii (text : List Char)
  /-- `.word v, …`; a value may be a label (log 23). -/
  | word (vs : List AsmOperand)
  /-- `.align 4` -/
  | align4
deriving DecidableEq, Repr

/-- The assembly address after an item (R92): every command is 32 bytes. -/
def AsmItem.next (at_ : Nat) : AsmItem → Nat
  | .label _ => at_
  | .command .. => at_ + 32
  | .plain _ => at_ + 32
  | .org addr => addr
  | .byte bs => at_ + bs.length
  | .ascii text => at_ + text.length
  | .word vs => at_ + 4 * vs.length
  | .align4 => (at_ + 3) / 4 * 4

/-- The addresses of the labels of a program from an assembly address on. -/
def labelTable : Nat → List AsmItem → List (String × Nat)
  | _, [] => []
  | at_, .label name :: t => (name, at_) :: labelTable at_ t
  | at_, i :: t => labelTable (i.next at_) t

/-- The u32 an operand stands for; none for an unknown label or a number of 2^32 or more. `assemble` rejects
a program that defines a label twice (log 23). -/
def AsmOperand.value (labels : List (String × Nat)) : AsmOperand → Option U32
  | .num n => if n < 2 ^ 32 then some (BitVec.ofNat 32 n) else none
  | .label name => (labels.lookup name).bind fun n => if n < 2 ^ 32 then some (BitVec.ofNat 32 n) else none

/-- The flags string is over L, P, A with each letter at most once (R92). -/
def flagsOk (flags : List Char) : Bool := flags.all fun c => (c == 'L' || c == 'P' || c == 'A') && flags.count c == 1

/-- The descriptor of a command line (R92): under L, len is 0; under P or A, arg is 0 or omitted. -/
def AsmItem.descriptor (labels : List (String × Nat)) : AsmItem → Option Descriptor
  | .command op flags dst src len arg => do
    let d ← dst.value labels
    let s ← src.value labels
    let n ← len.value labels
    let a ← match arg with
      | none => some 0
      | some x => x.value labels
    if flagsOk flags && flaggedZero (flags.contains 'L') n && flaggedZero (flags.contains 'P' || flags.contains 'A') a then
      some ⟨w0Of op (flags.contains 'L') (flags.contains 'P') (flags.contains 'A'), s, d, n, a, 0, 0, 0⟩
    else none
  | .plain op => if op.noOperands then some ⟨w0Of op false false false, 0, 0, 0, 0, 0, 0, 0⟩ else none
  | _ => none

/-- The bytes an item emits at an assembly address; none is an error in the item. The text of `.ascii` is
ASCII: R92 gives no bytes for another character, which is an error (log 23). The values of `.word` may be
labels: DESIGN CHOICE (log 23), because R92 names labels for the operands of commands only. -/
def AsmItem.emit (labels : List (String × Nat)) (at_ : Nat) (i : AsmItem) : Option (List Byte) :=
  match i with
  | .label _ => some []
  | .command .. => (i.descriptor labels).map Descriptor.toBytes
  | .plain _ => (i.descriptor labels).map Descriptor.toBytes
  | .org _ => some []
  | .byte bs => if bs.all fun b => decide (b < 256) then some (bs.map (BitVec.ofNat 8)) else none
  | .ascii text => if text.all fun c => decide (c.toNat < 128) then some (text.map fun c => BitVec.ofNat 8 c.toNat) else none
  | .word vs => (vs.mapM fun v : AsmOperand => v.value labels).map fun ws => ws.flatMap fun w => leBytes 4 w.toNat
  | .align4 => some (List.replicate ((at_ + 3) / 4 * 4 - at_) 0)

/-- The segments (address, bytes) of a program from an assembly address on, in the program's order. An `.org`
may move back over bytes already emitted, and then the later segment's bytes win when the segments are loaded
in order, or to an address no LMEM has: DESIGN CHOICE (log 23), because R92 is silent on both. -/
def assembleFrom (labels : List (String × Nat)) : Nat → List AsmItem → Option (List (Nat × List Byte))
  | _, [] => some []
  | at_, i :: t =>
    match i.emit labels at_, assembleFrom labels (i.next at_) t with
    | some [], some segs => some segs
    | some bs, some segs => some ((at_, bs) :: segs)
    | _, _ => none

/-- A program assembled from address 0 (R92); none also where a label is defined twice (log 23). -/
def assemble (prog : List AsmItem) : Option (List (Nat × List Byte)) :=
  if ((labelTable 0 prog).map fun e => e.1).Nodup then assembleFrom (labelTable 0 prog) 0 prog else none

/-- The host accesses that write an assembled program into LMEM (70_reset_and_hazards.md R213 item 3). -/
def loadAccesses (segs : List (Nat × List Byte)) : List HostAccess := segs.map fun e => .lmemWrite e.1 e.2

/-- `PIPE_ENC dst, src, n, cap, t1, t2, t3` (R94): none if 2·n does not fit in u32. -/
def pipeEnc (dst src n cap t1 t2 t3 : U32) : Option (List Instr) :=
  if 2 * n.toNat < 2 ^ 32 then
    some [.bwtFwd false src t1 n, .mtfEnc false t1 t2 n, .rle0Enc false false t2 t3 n (BitVec.ofNat 32 (2 * n.toNat)), .cmEnc true false t3 dst 0 cap]
  else none

/-- `PIPE_DEC dst, src, paylen, rlecount, n, primary, t1, t2, t3` (R94). -/
def pipeDec (dst src paylen rlecount n primary t1 t2 t3 : U32) : List Instr :=
  [.cmDec false false src t1 rlecount paylen, .rle0Dec true false t1 t2 0 n, .mtfDec true t2 t3 0, .bwtInv true false t3 dst 0 primary]

end Sys2Proof.Machine
end

