-- ==== Sys2Proof/Safety.lean ====
section
/-! DEFINITION. What counts as a safe state and a safe run, in the terms claims use. -/

namespace Sys2Proof.Machine

open Sys2Proof

/-- Every listed LMEM byte lies below LMEM_SIZE (10_state.md R45). -/
def State.lmemBounded (s : State) : Bool := s.lmem.cells.all fun e => decide (e.1 < s.cfg.lmemSize.toNat)

/-- At most one of BUSY, DONE and ERR is set (10_state.md R30, 40_sequencer.md R95, R106, R109). -/
def Status.exclusive (s : Status) : Bool := !(s.busy && s.done) && !(s.busy && s.err) && !(s.done && s.err)

/-- ERR_CODE, ERR_PTR and ERR_INFO are 0 when no fault is recorded (10_state.md R32 to R34). -/
def State.errClear (s : State) : Bool := s.errCode != .none || (s.errPtr == 0 && s.errInfo == 0)

/-- The invariant of the machine: the parameters in their ranges, LMEM canonical and below LMEM_SIZE, the
status flags consistent, the error registers clear unless a fault is recorded. -/
def State.inv (s : State) : Bool :=
  s.cfg.wf && Memory.wf s.lmem && s.lmemBounded && s.status.exclusive && s.errClear

/-- The outcome is a next state. -/
def completes (o : Host.Outcome State Fault Refusal) : Prop := ∃ t, o = .next t

/-- A run of the list ended cleanly (40_sequencer.md R109). -/
def State.clean (s : State) : Bool := !s.status.busy && s.status.done

/-- A run of the list ended with a fault (40_sequencer.md R109). -/
def State.faulted (s : State) : Bool := !s.status.busy && s.status.err

/-! ### The terms of the statements about commands -/

/-- Both windows are in range and do not overlap, in exact arithmetic (40_sequencer.md R100, R101). -/
def WindowsOk (c : Config) (src n dst m : Nat) : Prop :=
  src + n ≤ c.lmemSize.toNat ∧ dst + m ≤ c.lmemSize.toNat ∧ ¬ (0 < n ∧ 0 < m ∧ src < dst + m ∧ dst < src + n)

/-- What no command and no fault of a command changes: the parameters, CTRL.IRQ_EN, and the host's side. -/
structure HostSideKept (s t : State) : Prop where
  cfg : t.cfg = s.cfg
  irqEn : t.irqEn = s.irqEn
  hostQueue : t.hostQueue = s.hostQueue
  hostData : t.hostData = s.hostData

/-- A data command that completed (R103, R105) with its whole frame: `out` stands at `dst`, every other byte
reads as before; the RES registers its row of R105 names are written and the others kept; CMD_COUNT and
CMD_PTR advance; the DBG registers are `dbg`; the sticky bits of `k` are set and no other flag changes; the
error registers are kept. -/
structure CommandDone (s t : State) (dst : Nat) (out : List Byte) (r : Results) (dbg : Dbg) (k : Sticky) : Prop where
  stored : t.lmem.bytes dst out.length = out
  otherBytes : ∀ a, (a < dst ∨ dst + out.length ≤ a) → t.lmem.byte a = s.lmem.byte a
  resLen : t.resLen = r.len.getD s.resLen
  resPrimary : t.resPrimary = r.primary.getD s.resPrimary
  resAux : t.resAux = r.aux.getD s.resAux
  cmdCount : t.cmdCount = s.cmdCount + 1
  cmdPtr : t.cmdPtr = s.cmdPtr + 32
  dbg : t.dbg = dbg
  busy : t.status.busy = s.status.busy
  done : t.status.done = s.status.done
  err : t.status.err = s.status.err
  rleTrail : t.status.rleTrail = (s.status.rleTrail || k.rleTrail)
  sizeMismatch : t.status.sizeMismatch = (s.status.sizeMismatch || k.sizeMismatch)
  coderInv : t.status.coderInv = (s.status.coderInv || k.coderInv)
  errCode : t.errCode = s.errCode
  errPtr : t.errPtr = s.errPtr
  errInfo : t.errInfo = s.errInfo
  hostSide : HostSideKept s t

/-- The registers a fault writes and keeps (60_exceptions.md R194). -/
structure FaultRegisters (s t : State) (f : FaultReport) : Prop where
  errCode : t.errCode = f.code
  errInfo : t.errInfo = f.info
  errPtr : t.errPtr = s.cmdPtr
  err : t.status.err = true
  busy : t.status.busy = false
  done : t.status.done = s.status.done
  cmdPtr : t.cmdPtr = s.cmdPtr
  cmdCount : t.cmdCount = s.cmdCount
  resLen : t.resLen = s.resLen
  resPrimary : t.resPrimary = s.resPrimary
  resAux : t.resAux = s.resAux
  hostSide : HostSideKept s t

/-- A static fault: R194's updates and nothing else (60_exceptions.md R195). -/
structure StaticFaultTaken (s t : State) (f : FaultReport) : Prop where
  registers : FaultRegisters s t f
  lmem : t.lmem = s.lmem
  dbg : t.dbg = s.dbg
  rleTrail : t.status.rleTrail = s.status.rleTrail
  sizeMismatch : t.status.sizeMismatch = s.status.sizeMismatch
  coderInv : t.status.coderInv = s.status.coderInv

/-- A dynamic fault (60_exceptions.md R196): outside the window of m bytes from dst every byte is unchanged,
the sticky bits of `k` stay set, the DBG registers are unchanged if no coder phase had started. Nothing is
said of the window's bytes, nor of the DBG registers otherwise. -/
structure DynamicFaultTaken (s t : State) (f : FaultReport) (dst m : Nat) (coder : Bool) (k : Sticky) : Prop where
  registers : FaultRegisters s t f
  otherBytes : ∀ a, (a < dst ∨ dst + m ≤ a) → t.lmem.byte a = s.lmem.byte a
  dbg : coder = false → t.dbg = s.dbg
  rleTrail : t.status.rleTrail = (s.status.rleTrail || k.rleTrail)
  sizeMismatch : t.status.sizeMismatch = (s.status.sizeMismatch || k.sizeMismatch)
  coderInv : t.status.coderInv = (s.status.coderInv || k.coderInv)

/-- Word j of a descriptor offends R89, in that rule's own terms: `op` is the opcode of its OP. -/
def Offends (op : Op) (d : Descriptor) : Nat → Prop
  | 0 => d.w0.toNat / 2 ^ 11 ≠ 0 ∨ (d.w0.toNat / 2 ^ 8 % 2 = 1 ∧ op ∈ [Op.nop, .halt]) ∨
      (d.w0.toNat / 2 ^ 9 % 2 = 1 ∧ op ≠ .bwtInv) ∨
      (d.w0.toNat / 2 ^ 10 % 2 = 1 ∧ op ∈ [Op.nop, .halt, .bwtFwd, .bwtInv, .mtfEnc, .mtfDec])
  | 1 => op ∈ [Op.nop, .halt] ∧ d.w1 ≠ 0
  | 2 => op ∈ [Op.nop, .halt] ∧ d.w2 ≠ 0
  | 3 => (op ∈ [Op.nop, .halt] ∨ d.w0.toNat / 2 ^ 8 % 2 = 1) ∧ d.w3 ≠ 0
  | 4 => (op ∈ [Op.nop, .halt, .bwtFwd, .mtfEnc, .mtfDec] ∨ d.w0.toNat / 2 ^ 9 % 2 = 1 ∨ d.w0.toNat / 2 ^ 10 % 2 = 1) ∧ d.w4 ≠ 0
  | 5 => d.w5 ≠ 0
  | 6 => d.w6 ≠ 0
  | 7 => d.w7 ≠ 0
  | _ => False

/-- The §3 invariant of an RLE0 stream: every 0 is followed by a run-length byte in [1, 255] (43_rle0.md R128). -/
def RleWellFormed : List Byte → Prop
  | [] => True
  | [b] => b ≠ 0
  | b :: r :: y => if b = 0 then r ≠ 0 ∧ RleWellFormed y else RleWellFormed (r :: y)

/-- A list holds every byte value exactly once (10_state.md R50). -/
def IsPermTable (t : List Byte) : Prop := t.length = 256 ∧ t.Nodup

/-! ### Operands in the statements (40_sequencer.md R98) -/

/-- LEN_eff under flag L (30_encoding.md R83). -/
def State.lenOf (s : State) (l : Bool) (len : U32) : U32 := if l then s.resLen else len

/-- ARG_eff under flag A (30_encoding.md R85). -/
def State.capOf (s : State) (a : Bool) (arg : U32) : U32 := if a then s.resLen else arg

/-- ARG_eff under flag P (30_encoding.md R84). -/
def State.primaryOf (s : State) (p : Bool) (arg : U32) : U32 := if p then s.resPrimary else arg

/-- The address lies outside the range of m bytes from dst. -/
def OutsideRange (dst m a : Nat) : Prop := a < dst ∨ dst + m ≤ a

/-! ### Runs -/

/-- n steps of the machine; a stop of the model ends them. -/
def runSteps : Nat → State → Host.Outcome State Fault Refusal
  | 0, s => .next s
  | n + 1, s =>
    match step s with
    | .next t => runSteps n t
    | .fault f => .fault f
    | .refused r => .refused r

/-- The registers of the reset column of 10_state.md R27, whatever LMEM holds. -/
structure RegistersReset (t : State) : Prop where
  irqEn : t.irqEn = false
  status : t.status = ⟨false, false, false, false, false, false⟩
  cmdPtr : t.cmdPtr = 0
  errCode : t.errCode = .none
  errPtr : t.errPtr = 0
  errInfo : t.errInfo = 0
  resLen : t.resLen = 0
  resPrimary : t.resPrimary = 0
  resAux : t.resAux = 0
  cmdCount : t.cmdCount = 0
  dbg : t.dbg = ⟨0, 0xFFFFFFFF, 0, 0, 0, 0, Eight.all 0, Eight.all 0x3FF00000⟩

/-! ### Containers (47_block_driver.md R182, R187, R188) -/

/-- A cut of x into consecutive blocks of n bytes with a shorter last one (R187). -/
structure Blocks (n : Nat) (x : List Byte) (bs : List (List Byte)) : Prop where
  joined : bs.flatten = x
  sizes : ∀ b ∈ bs, 0 < b.length ∧ b.length ≤ n
  full : ∀ b ∈ bs.dropLast, b.length = n

/-- The loop of STR_DEC from offset `off` with progress p ends at end-of-file with progress q (R188). -/
inductive StrRun (c : Config) (m : Lmem) (src avail cap : Nat) : Nat → StrProgress → StrProgress → Prop where
  | eof (off : Nat) (p : StrProgress) : avail ≤ off → StrRun c m src avail cap off p p
  | record (off : Nat) (p q : StrProgress) (d : DecodedBlock) : off < avail →
      blockDecode c m (src + off) (avail - off) (cap - p.out.length) = .ok d →
      StrRun c m src avail cap (off + d.recLen) (p.add d) q → StrRun c m src avail cap off p q

/-- The loop of STR_DEC from offset `off` with progress p meets a record that faults (R184, R188). -/
inductive StrFails (c : Config) (m : Lmem) (src avail cap : Nat) : Nat → StrProgress → BlockFault → Prop where
  | here (off : Nat) (p : StrProgress) (f : BlockFault) : off < avail →
      blockDecode c m (src + off) (avail - off) (cap - p.out.length) = .error f →
      StrFails c m src avail cap off p (p.fail f)
  | later (off : Nat) (p : StrProgress) (d : DecodedBlock) (f : BlockFault) : off < avail →
      blockDecode c m (src + off) (avail - off) (cap - p.out.length) = .ok d →
      StrFails c m src avail cap (off + d.recLen) (p.add d) f → StrFails c m src avail cap off p f

/-! ### Values of binary64 numbers (00_scope.md R13) -/

/-- The value of a finite binary64 number in units of 2^−1074. -/
def fVal (x : F64) : Int :=
  if fSign x then -Int.ofNat (fMant x * 2 ^ fPos x) else Int.ofNat (fMant x * 2 ^ fPos x)

/-- r is the value `exact / scale` rounded to the nearest binary64 number, ties to even, where both sides
are taken times `scale`: no finite number is nearer, and one that is as near leaves r with an even fraction. -/
def NearestEven (r : F64) (scale exact : Int) : Prop :=
  ∀ c : F64, fIsFinite c = true →
    (fVal r * scale - exact).natAbs ≤ (fVal c * scale - exact).natAbs ∧
    ((fVal r * scale - exact).natAbs = (fVal c * scale - exact).natAbs → fVal c ≠ fVal r → fFrac r % 2 = 0)

end Sys2Proof.Machine
end

