-- ==== Sys2Proof/Certificates/Slice0/Obligations.lean ====
section
/-! DEFINITION. The statements for the provers, from the numbered rules of spec/. Each docstring names the rule it formalises. -/

open Sys2Proof Sys2Proof.Machine

/-! ### Encoding (30_encoding.md) -/

/-- R93, and R79, R80, R87: the assembly line of R93 gives the words and bytes it shows; words written out from
the spec decode to the commands they stand for, at least one of each family. -/
def Obligations.SpecWordsDecode : Prop :=
  (AsmItem.command .bwtInv ['P'] (.num 0x300) (.num 0x200) (.num 6) none).descriptor [] =
    some ⟨0x00000211, 0x00000200, 0x00000300, 0x00000006, 0, 0, 0, 0⟩ ∧
  Descriptor.toBytes ⟨0x00000211, 0x00000200, 0x00000300, 0x00000006, 0, 0, 0, 0⟩ =
    [0x11, 0x02, 0x00, 0x00, 0x00, 0x02, 0x00, 0x00, 0x00, 0x03, 0x00, 0x00, 0x06, 0x00, 0x00, 0x00,
     0x00, 0x00, 0x00, 0x00, 0x00, 0x00, 0x00, 0x00, 0x00, 0x00, 0x00, 0x00, 0x00, 0x00, 0x00, 0x00] ∧
  decodeBytes [0x11, 0x02, 0x00, 0x00, 0x00, 0x02, 0x00, 0x00, 0x00, 0x03, 0x00, 0x00, 0x06, 0x00, 0x00, 0x00,
     0x00, 0x00, 0x00, 0x00, 0x00, 0x00, 0x00, 0x00, 0x00, 0x00, 0x00, 0x00, 0x00, 0x00, 0x00, 0x00] =
    .ok (.bwtInv false true 0x200 0x300 6 0) ∧
  decode ⟨0x00000000, 0, 0, 0, 0, 0, 0, 0⟩ = .ok .nop ∧
  decode ⟨0x00000001, 0, 0, 0, 0, 0, 0, 0⟩ = .ok .halt ∧
  decode ⟨0x00000121, 0x270, 0x280, 0, 0, 0, 0, 0⟩ = .ok (.mtfDec true 0x270 0x280 0) ∧
  decode ⟨0x00000030, 0x220, 0x230, 6, 12, 0, 0, 0⟩ = .ok (.rle0Enc false false 0x220 0x230 6 12) ∧
  decode ⟨0x00000441, 0x240, 0x260, 7, 0, 0, 0, 0⟩ = .ok (.cmDec false true 0x240 0x260 7 0) ∧
  decode ⟨0x00000451, 0x200, 0x300, 6, 0, 0, 0, 0⟩ = .ok (.blkDec false true 0x200 0x300 6 0) ∧
  decode ⟨0x00000560, 0x100, 0x200, 0, 0, 0, 0, 0⟩ = .ok (.strEnc true true 0x100 0x200 0 0)

/-- R79, R80, R82, R87, R91: decoding the 32 bytes of a well-formed command gives it back, every flag and
operand at every value the encoding admits. -/
def Obligations.DecodeInvertsEncode : Prop :=
  ∀ i : Instr, i.wf = true → decodeBytes (encode i).toBytes = .ok i

/-- R79, R86, R89, R91: bytes that decode to a command are its encoding, and it is well-formed. -/
def Obligations.EncodeInvertsDecode : Prop :=
  ∀ (bs : List Byte) (i : Instr), decodeBytes bs = .ok i → i.wf = true ∧ (encode i).toBytes = bs

/-- R88: exactly the OP values of the listed ranges raise ILLEGAL_OP, with ERR_INFO = W0, whatever the other
bits and words are. -/
def Obligations.IllegalOpFaults : Prop :=
  ∀ s : State, s.status.busy = true → s.hostQueue = [] → s.fetchFault = none →
    let op := s.fetched.w0.toNat % 256
    let illegal := (0x02 ≤ op ∧ op ≤ 0x0F) ∨ (0x12 ≤ op ∧ op ≤ 0x1F) ∨ (0x22 ≤ op ∧ op ≤ 0x2F) ∨ (0x32 ≤ op ∧ op ≤ 0x3F) ∨
      (0x42 ≤ op ∧ op ≤ 0x4F) ∨ (0x52 ≤ op ∧ op ≤ 0x5F) ∨ 0x62 ≤ op
    (illegal → ∃ t, step s = .next t ∧ StaticFaultTaken s t ⟨.illegalOp, s.fetched.w0⟩) ∧
    (¬ illegal → ∀ w, decode s.fetched ≠ .error (.illegalOp w))

/-- R89: with a defined OP, RESERVED_NZ is raised exactly when a word offends, and ERR_INFO is the index of
the lowest-numbered offending word. -/
def Obligations.ReservedWordFaults : Prop :=
  ∀ (s : State) (op : Op), s.status.busy = true → s.hostQueue = [] → s.fetchFault = none →
    Op.ofCode (s.fetched.w0.toNat % 256) = some op →
    (∀ j, Offends op s.fetched j → (∀ k, k < j → ¬ Offends op s.fetched k) →
      ∃ t, step s = .next t ∧ StaticFaultTaken s t ⟨.reservedNz, BitVec.ofNat 32 j⟩) ∧
    ((∀ j, ¬ Offends op s.fetched j) → ∃ i, decode s.fetched = .ok i ∧ step s = exec i s)

/-- R98: the effective operands of a decoded command, read from its words, its flags and the registers as
they stand at its fetch. -/
def Obligations.OperandsResolve : Prop :=
  ∀ (s : State) (d : Descriptor) (i : Instr), decode d = .ok i →
    (s.operandsOf i).src = d.w1 ∧ (s.operandsOf i).dst = d.w2 ∧
    (s.operandsOf i).lenEff = (if d.w0.getLsbD 8 then s.resLen else d.w3) ∧
    (s.operandsOf i).argEff = (if d.w0.getLsbD 9 then s.resPrimary else if d.w0.getLsbD 10 then s.resLen else d.w4)

/-! ### Steps of the sequencer (40_sequencer.md, 60_exceptions.md) -/

/-- R104, R209: while BUSY = 1, a step whose fetch is in range and whose descriptor decodes to i is exec of i,
with the host idle (log 2: or giving the sequencer a turn, which leaves the queue); while BUSY = 0 the
sequencer changes nothing. -/
def Obligations.StepRunsDecodedCommand : Prop :=
  (∀ (s : State) (i : Instr), s.status.busy = true → s.fetchFault = none → decode s.fetched = .ok i →
    (s.hostQueue = [] → step s = exec i s) ∧
    (∀ rest, s.hostQueue = .turn :: rest → step s = exec i { s with hostQueue := rest })) ∧
  (∀ s : State, s.status.busy = false → s.hostQueue = [] → step s = .next s)

/-- R96: fetch checks the alignment, then the range with an exact sum, then reads eight little-endian words,
which are what the step decodes. -/
def Obligations.FetchChecksAndReads : Prop :=
  ∀ s : State, s.status.busy = true → s.hostQueue = [] →
    (s.cmdPtr.toNat % 4 ≠ 0 → ∃ t, step s = .next t ∧ StaticFaultTaken s t ⟨.cmdAlign, s.cmdPtr⟩) ∧
    (s.cmdPtr.toNat % 4 = 0 → s.cfg.lmemSize.toNat < s.cmdPtr.toNat + 32 →
      ∃ t, step s = .next t ∧ StaticFaultTaken s t ⟨.cmdRange, s.cmdPtr⟩) ∧
    (s.cmdPtr.toNat % 4 = 0 → s.cmdPtr.toNat + 32 ≤ s.cfg.lmemSize.toNat →
      ∀ d : Descriptor,
        d.w0.toNat = s.lmem.read s.cmdPtr.toNat 4 → d.w1.toNat = s.lmem.read (s.cmdPtr.toNat + 4) 4 →
        d.w2.toNat = s.lmem.read (s.cmdPtr.toNat + 8) 4 → d.w3.toNat = s.lmem.read (s.cmdPtr.toNat + 12) 4 →
        d.w4.toNat = s.lmem.read (s.cmdPtr.toNat + 16) 4 → d.w5.toNat = s.lmem.read (s.cmdPtr.toNat + 20) 4 →
        d.w6.toNat = s.lmem.read (s.cmdPtr.toNat + 24) 4 → d.w7.toNat = s.lmem.read (s.cmdPtr.toNat + 28) 4 →
        (∀ i, decode d = .ok i → step s = exec i s) ∧
        (∀ r, decode d = .error r → ∃ t, step s = .next t ∧ StaticFaultTaken s t (rejectReport r)))

/-- R99: the static opcode checks of BWT_FWD, BWT_INV and BLK_ENC, in their order, before any window check and
before any effect. -/
def Obligations.StaticOpcodeChecks : Prop :=
  (∀ (l : Bool) (src dst len : U32) (s : State),
    ((s.lenOf l len).toNat = 0 → ∃ t, exec (.bwtFwd l src dst len) s = .next t ∧ StaticFaultTaken s t ⟨.lenZero, 0⟩) ∧
    (s.cfg.blockMax.toNat < (s.lenOf l len).toNat → (s.lenOf l len).toNat ≠ 0 →
      ∃ t, exec (.bwtFwd l src dst len) s = .next t ∧ StaticFaultTaken s t ⟨.lenLimit, s.lenOf l len⟩)) ∧
  (∀ (l p : Bool) (src dst len arg : U32) (s : State),
    ((s.lenOf l len).toNat = 0 → ∃ t, exec (.bwtInv l p src dst len arg) s = .next t ∧ StaticFaultTaken s t ⟨.lenZero, 0⟩) ∧
    (s.cfg.blockMax.toNat < (s.lenOf l len).toNat → (s.lenOf l len).toNat ≠ 0 →
      ∃ t, exec (.bwtInv l p src dst len arg) s = .next t ∧ StaticFaultTaken s t ⟨.lenLimit, s.lenOf l len⟩) ∧
    ((s.lenOf l len).toNat ≠ 0 → (s.lenOf l len).toNat ≤ s.cfg.blockMax.toNat →
      (s.lenOf l len).toNat ≤ (s.primaryOf p arg).toNat →
      ∃ t, exec (.bwtInv l p src dst len arg) s = .next t ∧ StaticFaultTaken s t ⟨.primaryRange, s.primaryOf p arg⟩)) ∧
  (∀ (l a : Bool) (src dst len arg : U32) (s : State),
    ((s.lenOf l len).toNat = 0 → ∃ t, exec (.blkEnc l a src dst len arg) s = .next t ∧ StaticFaultTaken s t ⟨.lenZero, 0⟩) ∧
    (s.cfg.blockMax.toNat < (s.lenOf l len).toNat → (s.lenOf l len).toNat ≠ 0 →
      ∃ t, exec (.blkEnc l a src dst len arg) s = .next t ∧ StaticFaultTaken s t ⟨.lenLimit, s.lenOf l len⟩)) ∧
  (∀ (i : Instr) (s : State), i.op ∉ [Op.bwtFwd, Op.bwtInv, Op.blkEnc] →
    WindowsOk s.cfg (srcWindow i (s.operandsOf i)).start (srcWindow i (s.operandsOf i)).size
      (dstWindow i (s.operandsOf i)).start (dstWindow i (s.operandsOf i)).size → s.staticFault i = none)

/-- R100, R101: a command that passes the checks of R99 faults with SRC_RANGE, else DST_RANGE, else OVERLAP,
exactly when its windows say so; sums are exact. -/
def Obligations.WindowChecks : Prop :=
  ∀ (i : Instr) (s : State), opcodeCheck s.cfg i (s.operandsOf i) = none →
    let o := s.operandsOf i
    let a := (srcWindow i o).start
    let n := (srcWindow i o).size
    let b := (dstWindow i o).start
    let m := (dstWindow i o).size
    (s.cfg.lmemSize.toNat < a + n → ∃ t, exec i s = .next t ∧ StaticFaultTaken s t ⟨.srcRange, o.src⟩) ∧
    (a + n ≤ s.cfg.lmemSize.toNat → s.cfg.lmemSize.toNat < b + m →
      ∃ t, exec i s = .next t ∧ StaticFaultTaken s t ⟨.dstRange, o.dst⟩) ∧
    (a + n ≤ s.cfg.lmemSize.toNat → b + m ≤ s.cfg.lmemSize.toNat → 0 < n → 0 < m → a < b + m → b < a + n →
      ∃ t, exec i s = .next t ∧ StaticFaultTaken s t ⟨.overlap, o.dst⟩) ∧
    (WindowsOk s.cfg a n b m → s.staticFault i = none)

/-- R103, R104, R194: every command in every state answers a next state, in which it completed or entered a
fault; a fault has a code other than NONE. -/
def Obligations.CommandCompletesOrFaults : Prop :=
  ∀ (i : Instr) (s : State),
    ∃ t, exec i s = .next t ∧ HostSideKept s t ∧
      ((∃ f, f.code ≠ .none ∧ FaultRegisters s t f) ∨
       (t.cmdPtr = s.cmdPtr + 32 ∧ t.cmdCount = s.cmdCount + 1 ∧ t.errCode = s.errCode ∧ t.errPtr = s.errPtr ∧
        t.errInfo = s.errInfo ∧ t.status.err = s.status.err))

/-- R73 item 3, R102: a step of a running list writes no LMEM byte outside the destination window of the
command it runs, and none at all when the fetch or the decode faults. -/
def Obligations.WritesStayInDestination : Prop :=
  ∀ (s t : State), s.status.busy = true → s.hostQueue = [] → step s = .next t →
    (∀ i, s.fetchFault = none → decode s.fetched = .ok i → ∀ a,
      OutsideRange (dstWindow i (s.operandsOf i)).start (dstWindow i (s.operandsOf i)).size a → t.lmem.byte a = s.lmem.byte a) ∧
    (s.fetchFault ≠ none ∨ (∃ r, decode s.fetched = .error r) → t.lmem = s.lmem)

/-- R102, R47, R59: an operation reads only its source window, and no unit state of an earlier command: two
states that differ in LMEM and unit state only, and not in the source window, give states that differ in LMEM
only, and not in any byte in which they agreed. The two next states agree on the unit state, and after a
dynamic fault on the destination window and the DBG registers, only because the model draws those free values
from freeCount and the address alone: the model's choice (logs 8, 9, 10), where R59, R196 and R178 leave each
any value. -/
def Obligations.OperationsReadOnlySource : Prop :=
  ∀ (i : Instr) (s : State) (m : Lmem) (u : Scratch),
    (∀ a, (srcWindow i (s.operandsOf i)).has a = true → m.byte a = s.lmem.byte a) →
    ∃ t t', exec i s = .next t ∧ exec i { s with lmem := m, scratch := u } = .next t' ∧ t' = { t with lmem := t'.lmem } ∧
      ∀ a, m.byte a = s.lmem.byte a → t'.lmem.byte a = t.lmem.byte a

/-! ### NOP and HALT -/

/-- R106, R107, R103: NOP completes and does nothing else; HALT completes, clears BUSY and sets DONE, and
changes nothing else. -/
def Obligations.NopAndHaltComplete : Prop :=
  ∀ s : State,
    (∃ t, exec .nop s = .next t ∧ CommandDone s t 0 [] ⟨none, none, none⟩ s.dbg ⟨false, false, false⟩ ∧ t.lmem = s.lmem) ∧
    (∃ t, exec .halt s = .next t ∧
      t.status = { s.status with busy := false, done := true } ∧ t.cmdPtr = s.cmdPtr + 32 ∧ t.cmdCount = s.cmdCount + 1 ∧
      t.resLen = s.resLen ∧ t.resPrimary = s.resPrimary ∧ t.resAux = s.resAux ∧ t.errCode = s.errCode ∧
      t.errPtr = s.errPtr ∧ t.errInfo = s.errInfo ∧ t.dbg = s.dbg ∧ t.lmem = s.lmem ∧ HostSideKept s t)

/-! ### The data commands complete -/

/-- R117, R118, R103, R105: BWT_FWD on a block of 1 to BLOCK_MAX bytes; BWT_INV on one with a primary below its
length. -/
def Obligations.BwtCommandsComplete : Prop :=
  ∀ (l p : Bool) (src dst len arg : U32) (s : State),
    let n := s.lenOf l len
    let pr := s.primaryOf p arg
    let x := s.lmem.bytes src.toNat n.toNat
    let b := bwtForward x
    0 < n.toNat → n.toNat ≤ s.cfg.blockMax.toNat → WindowsOk s.cfg src.toNat n.toNat dst.toNat n.toNat →
    (∃ t, exec (.bwtFwd l src dst len) s = .next t ∧
      CommandDone s t dst.toNat b.1 ⟨some n, some (BitVec.ofNat 32 b.2), none⟩ s.dbg ⟨false, false, false⟩ ∧
      b.1.length = n.toNat) ∧
    (pr.toNat < n.toNat → ∃ t, exec (.bwtInv l p src dst len arg) s = .next t ∧
      CommandDone s t dst.toNat (bwtInverse x pr.toNat) ⟨some n, none, none⟩ s.dbg ⟨false, false, false⟩ ∧
      (bwtInverse x pr.toNat).length = n.toNat)

/-- R124, R125, R103, R105: MTF_ENC and MTF_DEC, at any length the windows allow, 0 included. -/
def Obligations.MtfCommandsComplete : Prop :=
  ∀ (l : Bool) (src dst len : U32) (s : State),
    let n := s.lenOf l len
    let x := s.lmem.bytes src.toNat n.toNat
    WindowsOk s.cfg src.toNat n.toNat dst.toNat n.toNat →
    (∃ t, exec (.mtfEnc l src dst len) s = .next t ∧
      CommandDone s t dst.toNat (mtfEncode x) ⟨some n, none, none⟩ s.dbg ⟨false, false, false⟩ ∧ (mtfEncode x).length = n.toNat) ∧
    (∃ t, exec (.mtfDec l src dst len) s = .next t ∧
      CommandDone s t dst.toNat (mtfDecode x) ⟨some n, none, none⟩ s.dbg ⟨false, false, false⟩ ∧ (mtfDecode x).length = n.toNat)

/-- R131, R132, R103, R105: RLE0_ENC whose output fits its capacity, which 2·LEN always does (R128); RLE0_DEC
whose output fits, which sets RLE_TRAIL exactly on a trailing lone zero. -/
def Obligations.Rle0CommandsComplete : Prop :=
  ∀ (l a : Bool) (src dst len arg : U32) (s : State),
    let n := s.lenOf l len
    let cap := s.capOf a arg
    let x := s.lmem.bytes src.toNat n.toNat
    WindowsOk s.cfg src.toNat n.toNat dst.toNat cap.toNat →
    ((rleEncode x).length ≤ cap.toNat ∨ 2 * n.toNat ≤ cap.toNat → ∃ t, exec (.rle0Enc l a src dst len arg) s = .next t ∧
      CommandDone s t dst.toNat (rleEncode x) ⟨some (BitVec.ofNat 32 (rleEncode x).length), none, none⟩ s.dbg
        ⟨false, false, false⟩) ∧
    ((rleDecode x).1.length ≤ cap.toNat → ∃ t, exec (.rle0Dec l a src dst len arg) s = .next t ∧
      CommandDone s t dst.toNat (rleDecode x).1 ⟨some (BitVec.ofNat 32 (rleDecode x).1.length), none, none⟩ s.dbg
        ⟨(rleDecode x).2, false, false⟩)

/-- R176, R177, R178, R103, R105: CM_ENC whose payload fits its capacity; CM_DEC of any payload, one shorter
than the decoder reads included. DBG_NBITS counts eight bits a byte, and DBG_CODE is 0 after CM_ENC. -/
def Obligations.CmCommandsComplete : Prop :=
  ∀ (l a : Bool) (src dst len arg : U32) (s : State),
    let n := s.lenOf l len
    let cap := s.capOf a arg
    let x := s.lmem.bytes src.toNat n.toNat
    let e := cmEncodePhase s.cfg x
    let d := cmDecodePhase s.cfg (s.lmem.bytes src.toNat cap.toNat) n.toNat
    (WindowsOk s.cfg src.toNat n.toNat dst.toNat cap.toNat → (cmEncode s.cfg x).length ≤ cap.toNat →
      ∃ t, exec (.cmEnc l a src dst len arg) s = .next t ∧
        CommandDone s t dst.toNat (cmEncode s.cfg x) ⟨some (BitVec.ofNat 32 (cmEncode s.cfg x).length), none, none⟩
          (dbgSnapshot e) ⟨false, false, e.inv⟩ ∧
        t.dbg.nbits = BitVec.ofNat 32 (8 * n.toNat) ∧ t.dbg.code = 0) ∧
    (WindowsOk s.cfg src.toNat cap.toNat dst.toNat n.toNat →
      ∃ t, exec (.cmDec l a src dst len arg) s = .next t ∧
        CommandDone s t dst.toNat d.2 ⟨some n, none, some (BitVec.ofNat 32 d.1.coder.rd)⟩ (dbgSnapshot d.1)
          ⟨false, false, d.1.inv⟩ ∧
        d.2.length = n.toNat ∧ t.dbg.nbits = BitVec.ofNat 32 (8 * n.toNat))

/-- R183, R185, R178, R103, R105: BLK_ENC of a block of 1 to BLOCK_MAX bytes whose record fits its capacity. That
the rleCount field of an RLE0 stream of 2^32 bytes or more, and RES_AUX with it, hold the low 32 bits of the
length is the model's reading (log 26). -/
def Obligations.BlkEncCompletes : Prop :=
  ∀ (l a : Bool) (src dst len arg : U32) (s : State),
    let n := s.lenOf l len
    let cap := s.capOf a arg
    let b := bwtForward (s.lmem.bytes src.toNat n.toNat)
    let r := rleEncode (mtfEncode b.1)
    let pay := cmEncode s.cfg r
    let rec_ := leBytes 4 n.toNat ++ leBytes 4 b.2 ++ leBytes 4 r.length ++ leBytes 4 pay.length ++ pay
    0 < n.toNat → n.toNat ≤ s.cfg.blockMax.toNat → WindowsOk s.cfg src.toNat n.toNat dst.toNat cap.toNat →
    rec_.length ≤ cap.toNat →
    ∃ t, exec (.blkEnc l a src dst len arg) s = .next t ∧
      CommandDone s t dst.toNat rec_
        ⟨some (BitVec.ofNat 32 (16 + pay.length)), some (BitVec.ofNat 32 b.2), some (BitVec.ofNat 32 r.length)⟩
        (dbgSnapshot (cmEncodePhase s.cfg r)) ⟨false, false, (cmEncodePhase s.cfg r).inv⟩

/-- R184, R186, R178, R103, R105: BLK_DEC of a record that passes every check of R184. -/
def Obligations.BlkDecCompletes : Prop :=
  ∀ (l a : Bool) (src dst len arg : U32) (s : State),
    let cap := s.lenOf l len
    let avail := s.capOf a arg
    let n := s.lmem.read src.toNat 4
    let pr := s.lmem.read (src.toNat + 4) 4
    let rc := s.lmem.read (src.toNat + 8) 4
    let cs := s.lmem.read (src.toNat + 12) 4
    let d := cmDecodePhase s.cfg (s.lmem.bytes (src.toNat + 16) cs) rc
    let m := rleDecode d.2
    WindowsOk s.cfg src.toNat avail.toNat dst.toNat cap.toNat → n ≤ s.cfg.blockMax.toNat → pr < n → n ≤ cap.toNat →
    16 + cs ≤ avail.toNat → rc ≤ 2 * n → m.1.length = n →
    ∃ t, exec (.blkDec l a src dst len arg) s = .next t ∧
      CommandDone s t dst.toNat (bwtInverse (mtfDecode m.1) pr)
        ⟨some (BitVec.ofNat 32 n), some (BitVec.ofNat 32 pr), some (BitVec.ofNat 32 (16 + cs))⟩
        (dbgSnapshot d.1) ⟨m.2, false, d.1.inv⟩

/-- R187, R182, R178, R103, R105: STR_ENC cuts its input into blocks of BLOCK_MAX bytes with a shorter last one
and writes fullSize and their records, if the container fits its capacity. The rleCount of a record as in
`BlkEncCompletes` (log 26). -/
def Obligations.StrEncCompletes : Prop :=
  ∀ (l a : Bool) (src dst len arg : U32) (s : State) (bs : List (List Byte)),
    let n := s.lenOf l len
    let cap := s.capOf a arg
    let out := leBytes 8 n.toNat ++ bs.flatMap fun b => (blockEncode s.cfg b).record
    Blocks s.cfg.blockMax.toNat (s.lmem.bytes src.toNat n.toNat) bs →
    WindowsOk s.cfg src.toNat n.toNat dst.toNat cap.toNat → out.length ≤ cap.toNat →
    ∃ t, exec (.strEnc l a src dst len arg) s = .next t ∧
      CommandDone s t dst.toNat out ⟨some (BitVec.ofNat 32 out.length), none, some (BitVec.ofNat 32 bs.length)⟩
        ((bs.getLast?.map fun b => dbgSnapshot (blockEncode s.cfg b).cm).getD s.dbg)
        ⟨false, false, bs.any fun b => (blockEncode s.cfg b).cm.inv⟩

/-- R188, R178, R103, R105: STR_DEC of a container whose records all decode up to its end; SIZE_MISMATCH is
set exactly when the output's length differs from fullSize. -/
def Obligations.StrDecCompletes : Prop :=
  ∀ (l a : Bool) (src dst len arg : U32) (s : State) (q : StrProgress),
    let cap := s.lenOf l len
    let avail := s.capOf a arg
    WindowsOk s.cfg src.toNat avail.toNat dst.toNat cap.toNat → 8 ≤ avail.toNat →
    StrRun s.cfg s.lmem src.toNat avail.toNat cap.toNat 8 StrProgress.start q →
    ∃ t, exec (.strDec l a src dst len arg) s = .next t ∧
      CommandDone s t dst.toNat q.out ⟨some (BitVec.ofNat 32 q.out.length), none, some (BitVec.ofNat 32 q.records)⟩
        ((q.cm.map dbgSnapshot).getD s.dbg)
        ⟨q.sticky.rleTrail, decide (q.out.length ≠ s.lmem.read src.toNat 8), q.sticky.coderInv⟩

/-! ### Dynamic faults (60_exceptions.md R196) -/

/-- R131, R132, R176, R185, R187, R193, R196: an output longer than the capacity raises OUT_OVERFLOW with
ERR_INFO = ARG_eff, in each of the five commands with a capacity in ARG. That the sticky bits are those of the
whole operation is the model's reading (log 13). -/
def Obligations.CapacityFaults : Prop :=
  ∀ (l a : Bool) (src dst len arg : U32) (s : State),
    let n := s.lenOf l len
    let cap := s.capOf a arg
    let x := s.lmem.bytes src.toNat n.toNat
    let f : FaultReport := ⟨.outOverflow, cap⟩
    WindowsOk s.cfg src.toNat n.toNat dst.toNat cap.toNat →
    (cap.toNat < (rleEncode x).length → ∃ t, exec (.rle0Enc l a src dst len arg) s = .next t ∧
      DynamicFaultTaken s t f dst.toNat cap.toNat false ⟨false, false, false⟩) ∧
    (cap.toNat < (rleDecode x).1.length → ∃ t, exec (.rle0Dec l a src dst len arg) s = .next t ∧
      DynamicFaultTaken s t f dst.toNat cap.toNat false ⟨(rleDecode x).2, false, false⟩) ∧
    (cap.toNat < (cmEncode s.cfg x).length → ∃ t, exec (.cmEnc l a src dst len arg) s = .next t ∧
      DynamicFaultTaken s t f dst.toNat cap.toNat true ⟨false, false, (cmEncodePhase s.cfg x).inv⟩) ∧
    (0 < n.toNat → n.toNat ≤ s.cfg.blockMax.toNat → cap.toNat < (blockEncode s.cfg x).record.length →
      ∃ t, exec (.blkEnc l a src dst len arg) s = .next t ∧
      DynamicFaultTaken s t f dst.toNat cap.toNat true ⟨false, false, (blockEncode s.cfg x).cm.inv⟩) ∧
    (cap.toNat < (strContainer s.cfg x).length → ∃ t, exec (.strEnc l a src dst len arg) s = .next t ∧
      DynamicFaultTaken s t f dst.toNat cap.toNat (!(strBlocks s.cfg x).isEmpty)
        ⟨false, false, (strBlocks s.cfg x).any fun b => (blockEncode s.cfg b).cm.inv⟩)

/-- R184, R186, R193, R196: the faults of BLK_DEC in the order of R184, each with ERR_INFO = SRC; the sticky
bits as in log 13. -/
def Obligations.BlkDecFaultsInOrder : Prop :=
  ∀ (l a : Bool) (src dst len arg : U32) (s : State),
    let cap := s.lenOf l len
    let avail := s.capOf a arg
    let n := s.lmem.read src.toNat 4
    let pr := s.lmem.read (src.toNat + 4) 4
    let rc := s.lmem.read (src.toNat + 8) 4
    let cs := s.lmem.read (src.toNat + 12) 4
    let d := cmDecodePhase s.cfg (s.lmem.bytes (src.toNat + 16) cs) rc
    let m := rleDecode d.2
    let faults (e : ErrCode) (coder : Bool) (k : Sticky) : Prop := ∃ t, exec (.blkDec l a src dst len arg) s = .next t ∧
      DynamicFaultTaken s t ⟨e, src⟩ dst.toNat cap.toNat coder k
    WindowsOk s.cfg src.toNat avail.toNat dst.toNat cap.toNat →
    (avail.toNat < 16 → faults .truncated false ⟨false, false, false⟩) ∧
    (16 ≤ avail.toNat →
      (s.cfg.blockMax.toNat < n → faults .lenLimit false ⟨false, false, false⟩) ∧
      (n ≤ s.cfg.blockMax.toNat →
        (n ≤ pr → faults .primaryRange false ⟨false, false, false⟩) ∧
        (pr < n →
          (cap.toNat < n → faults .outOverflow false ⟨false, false, false⟩) ∧
          (n ≤ cap.toNat →
            (avail.toNat < 16 + cs → faults .truncated false ⟨false, false, false⟩) ∧
            (16 + cs ≤ avail.toNat →
              (2 * n < rc → faults .lenMismatch false ⟨false, false, false⟩) ∧
              (rc ≤ 2 * n → m.1.length ≠ n → faults .lenMismatch true ⟨m.2, false, d.1.inv⟩))))))

/-- R188, R184, R193, R196: STR_DEC without room for fullSize, and STR_DEC that meets a faulting record; the
sticky bits as in log 13. -/
def Obligations.StrDecFaults : Prop :=
  ∀ (l a : Bool) (src dst len arg : U32) (s : State),
    let cap := s.lenOf l len
    let avail := s.capOf a arg
    WindowsOk s.cfg src.toNat avail.toNat dst.toNat cap.toNat →
    (avail.toNat < 8 → ∃ t, exec (.strDec l a src dst len arg) s = .next t ∧
      DynamicFaultTaken s t ⟨.truncated, src⟩ dst.toNat cap.toNat false ⟨false, false, false⟩) ∧
    (8 ≤ avail.toNat → ∀ f, StrFails s.cfg s.lmem src.toNat avail.toNat cap.toNat 8 StrProgress.start f →
      ∃ t, exec (.strDec l a src dst len arg) s = .next t ∧
        DynamicFaultTaken s t f.report dst.toNat cap.toNat f.coder f.sticky)

/-! ### The transforms (41_bwt.md, 42_mtf.md, 43_rle0.md) -/

/-- R110, R111: rotations and their order; the sorted rotation order, which is the only list so ordered; and
last and primary read off it, with primary in [0, N). -/
def Obligations.BwtForwardSortsRotations : Prop :=
  ∀ s : List Byte,
    let ordered (l : List Nat) : Prop := l.Perm (List.range s.length) ∧
      l.Pairwise fun i j => (rot s i).map BitVec.toNat < (rot s j).map BitVec.toNat ∨ (rot s i = rot s j ∧ i < j)
    let sa := suffixOrder s
    let b := bwtForward s
    (∀ i, i < s.length → (rot s i).length = s.length ∧ ∀ k, k < s.length → (rot s i)[k]? = s[(i + k) % s.length]?) ∧
    ordered sa ∧ (∀ l, ordered l → l = sa) ∧
    b.1.length = s.length ∧ (∀ r, r < s.length → b.1[r]? = s[(sa.getD r 0 + s.length - 1) % s.length]?) ∧
    (s ≠ [] → b.2 < s.length ∧ sa[b.2]? = some 0 ∧ ∀ r, sa[r]? = some 0 → r = b.2)

/-- R115: BwtInverse inverts BwtForward on every nonempty block. -/
def Obligations.BwtBijection : Prop :=
  ∀ s : List Byte, s ≠ [] → bwtInverse (bwtForward s).1 (bwtForward s).2 = s

/-- R120: what MoveToFront moves, and T stays a permutation. -/
def Obligations.MoveToFrontPermutes : Prop :=
  ∀ (t : List Byte) (r : Nat), IsPermTable t → r < 256 →
    (moveToFront t r)[0]? = t[r]? ∧ (∀ j, 0 < j → j ≤ r → (moveToFront t r)[j]? = t[j - 1]?) ∧
    (∀ j, r < j → (moveToFront t r)[j]? = t[j]?) ∧ IsPermTable (moveToFront t r)

/-- R123: MTF is a bijection in both directions, the two loops keeping identical tables step by step. -/
def Obligations.MtfBijection : Prop :=
  (∀ x, mtfDecode (mtfEncode x) = x) ∧ (∀ y, mtfEncode (mtfDecode y) = y) ∧
  (∀ x k, (x.take k).foldl (fun t c => moveToFront t (rankOf t c)) mtfIdentity =
    ((mtfEncode x).take k).foldl (fun t r => moveToFront t r.toNat) mtfIdentity) ∧
  (∀ y k, (y.take k).foldl (fun t r => moveToFront t r.toNat) mtfIdentity =
    ((mtfDecode y).take k).foldl (fun t c => moveToFront t (rankOf t c)) mtfIdentity)

/-- R128: the form and the length of an RLE0 stream. -/
def Obligations.RleStreamProperties : Prop :=
  (∀ x, RleWellFormed (rleEncode x)) ∧
  (∀ (u v : List Byte) (b : Byte), b ≠ 0 → (rleEncode (u ++ b :: v)).length = (rleEncode u).length + 1 + (rleEncode v).length) ∧
  (∀ (u v : List Byte) (z : Nat), 0 < z → u.getLast? ≠ some 0 → v.head? ≠ some 0 →
    (rleEncode (u ++ List.replicate z 0 ++ v)).length = (rleEncode u).length + 2 * ((z + 254) / 255) + (rleEncode v).length) ∧
  (∀ x, (rleEncode x).length ≤ 2 * x.length) ∧
  (∀ x, (rleEncode x).length = 2 * x.length ↔ x = [] ∨ x = [0]) ∧ rleEncode [] = []

/-- R130: RleDecode inverts RleEncode and reports no trailing zero; the converse fails outside the invariant. -/
def Obligations.RleBijection : Prop :=
  (∀ x, rleDecode (rleEncode x) = (x, false)) ∧ rleDecode [0, 0] = ([], false) ∧ rleEncode [] = []

/-! ### The predictors (44_predictors.md) -/

/-- R137: the counter probability, its bound, and the values listed. -/
def Obligations.CounterProbability : Prop :=
  (∀ c0 c1 : Nat, (countPredict (c0, c1)).toNat = (c1 + 1) * 0xFFFF / (c0 + c1 + 2) ∧ (countPredict (c0, c1)).toNat ≤ 65534) ∧
  countPredict (0, 0) = 32767 ∧ countPredict (0, 1) = 43690 ∧ countPredict (1, 0) = 21845 ∧ countPredict (0, 2) = 49151 ∧
  countPredict (2, 0) = 16383

/-- R52, R138, R139, R140, R141: the history is the last k bytes, oldest first; its key is their sum by powers
of 256, different for different histories of one length; a short history predicts 32768; an update counts the
bit in the bucket of the current key and in no other, or nothing during warm-up under SKIP. -/
def Obligations.ByteContextModel : Prop :=
  (∀ (k : Nat) (x : List Byte), (x.foldl ByteCtx.updateByte (ByteCtx.init k)).hist = x.drop (x.length - k)) ∧
  (∀ hist : List Byte, histKey hist =
    ((List.range hist.length).map fun j => (hist.getD j 0).toNat * 256 ^ (hist.length - 1 - j)).sum) ∧
  (∀ a b : List Byte, a.length = b.length → histKey a = histKey b → a = b) ∧
  (∀ m : ByteCtx, m.hist.length < m.k → m.predict = 32768) ∧
  (∀ m : ByteCtx, m.k ≤ m.hist.length → m.predict = countPredict (bucket m.tab (histKey m.hist))) ∧
  (∀ (m : ByteCtx) (bit : Bool), m.hist.length < m.k → m.updateBit .skip bit = m) ∧
  (∀ (m : ByteCtx) (bit : Bool) (w : WarmupPolicy), (w = .partialKey ∨ m.k ≤ m.hist.length) →
    let m' := m.updateBit w bit
    let b := bucket m.tab (histKey m.hist)
    m'.hist = m.hist ∧ m'.k = m.k ∧ bucket m'.tab (histKey m.hist) = (if bit then (b.1, b.2 + 1) else (b.1 + 1, b.2)) ∧
    ∀ key, key ≠ histKey m.hist → bucket m'.tab key = bucket m.tab key)

/-- R142, R143, R53: the bit history is the last 24 bits, newest in bit 0; it predicts 32768 until 24 bits
are in. -/
def Obligations.BitContextHistory : Prop :=
  ∀ (w : WarmupPolicy) (bits : List Bool),
    let m := bits.foldl (BitCtx.updateBit w) BitCtx.init
    m.nb = min bits.length 24 ∧ m.hb.toNat = (bits.foldl (fun v b => 2 * v + b.toNat) 0) % 2 ^ 24 ∧
    (bits.length < 24 → m.predict = 32768) ∧ (24 ≤ bits.length → m.predict = countPredict (bucket m.tab m.hb.toNat))

/-- R146: the prediction of a match model is 32768 without a match and 32768 ± confidence with one, and
the clamp never acts. R145, R148: until bufPos wraps, a model fed byte by byte has matchLen 0 or 1 and bitPos 0
at each byte; matchLen is 1 exactly if the last c bytes ended at an earlier position, and matchPos is the latest
such position. -/
def Obligations.MatchModelPredictions : Prop :=
  (∀ m : MatchModel,
    (m.matchLen = 0 → m.predict = 32768) ∧
    (0 < m.matchLen →
      let conf := if m.matchLen = 1 then 256 else if m.matchLen = 2 then 1024 else if m.matchLen = 3 then 4096 else 8192
      let pbit := (m.bufAt ((m.matchPos + m.matchLen) % 2 ^ 20)).toNat / 2 ^ (7 - m.bitPos) % 2
      m.predict.toNat = (if pbit = 1 then 32768 + conf else 32768 - conf) ∧ 24576 ≤ m.predict.toNat ∧ m.predict.toNat ≤ 40960)) ∧
  (∀ (c : Nat) (x : List Byte), 1 ≤ c → x.length < 2 ^ 20 →
    let m := x.foldl (fun m b =>
      (m.updateBit.updateBit.updateBit.updateBit.updateBit.updateBit.updateBit.updateBit).updateByte b) (MatchModel.init c)
    let context (n : Nat) : List Byte := (x.take n).drop (n - c)
    m.bufPos = x.length ∧ m.bitPos = 0 ∧ m.matchLen ≤ 1 ∧ (x.length < c → m.matchLen = 0) ∧
    (c ≤ x.length → (m.matchLen = 1 ↔ ∃ n, c ≤ n ∧ n < x.length ∧ context n = context x.length)) ∧
    (m.matchLen = 1 → c ≤ m.matchPos + 1 ∧ m.matchPos + 1 < x.length ∧ context (m.matchPos + 1) = context x.length ∧
      ∀ n, m.matchPos + 1 < n → n < x.length → context n ≠ context x.length))

/-- R149: updateByte of the LZP model with its two writes in order, on a model whose table is in canonical
form, which it keeps. -/
def Obligations.LzpUpdate : Prop :=
  ∀ (m : LzpModel) (b : Byte), rising m.nxt = true →
    let m' := m.updateByte b
    let key := m.prev.toNat * 256 + b.toNat
    rising m'.nxt = true ∧ m'.nxtAt key = some m.pos ∧ (m.pos ≠ key → m'.nxtAt m.pos = m.nxtAt key) ∧
    (∀ j, j ≠ key → j ≠ m.pos → m'.nxtAt j = m.nxtAt j) ∧ tableGet m.pos m'.lbuf = some b ∧
    (∀ j, j ≠ m.pos → tableGet j m'.lbuf = tableGet j m.lbuf) ∧ m'.prev = b ∧ m'.pos = (m.pos + 1) % 2 ^ 20

/-! ### Binary64 and the mixer (00_scope.md, 45_mixer.md) -/

/-- R13: fadd, fsub, fmul and fdiv of finite numbers, when the result is finite, are the exact results rounded
to nearest, ties to even; f(n) is exact below 2^53; round_half_away of a finite x at least 0 is the nearest
integer, ties upwards. That f64 is IEEE binary64 is the spec's own reading (93_implementation_defined.md G1). -/
def Obligations.FloatOperationsRoundToEven : Prop :=
  (∀ a b : F64, fIsFinite a = true → fIsFinite b = true →
    (fIsFinite (fadd a b) = true → NearestEven (fadd a b) 1 (fVal a + fVal b)) ∧
    (fIsFinite (fsub a b) = true → NearestEven (fsub a b) 1 (fVal a - fVal b)) ∧
    (fIsFinite (fmul a b) = true → NearestEven (fmul a b) (2 ^ 1074) (fVal a * fVal b)) ∧
    (fVal b ≠ 0 → fIsFinite (fdiv a b) = true → NearestEven (fdiv a b) (fVal b) (fVal a * 2 ^ 1074))) ∧
  (∀ n : Nat, n < 2 ^ 53 → fIsFinite (fOfNat n) = true ∧ fVal (fOfNat n) = (n : Int) * 2 ^ 1074) ∧
  (∀ x : F64, fIsFinite x = true → 0 ≤ fVal x →
    2 * fVal x < (2 * (roundHalfAway x : Int) + 1) * 2 ^ 1074 ∧ (2 * (roundHalfAway x : Int) - 1) * 2 ^ 1074 ≤ 2 * fVal x)

/-- R14: the literals. -/
def Obligations.LiteralsAreNearest : Prop :=
  NearestEven f1em4 10000 (2 ^ 1074) ∧ fHI = fsub fOne f1em4 ∧ NearestEven fLR 1000 (2 ^ 1074) ∧
  fVal fOne = 2 ^ 1074 ∧ fVal fZero = 0 ∧ fVal f65535 = 65535 * 2 ^ 1074

/-- R160: for every prediction, the clamped probability lies in [1e-4, HI] and the argument of LN is finite
and positive. -/
def Obligations.LogitArgumentsPositive : Prop :=
  ∀ p : U16,
    let q := fClamp (fdiv (fOfNat p.toNat) f65535)
    fIsFinite q = true ∧ fVal f1em4 ≤ fVal q ∧ fVal q ≤ fVal fHI ∧
    fIsFinite (fdiv q (fsub fOne q)) = true ∧ 0 < fVal (fdiv q (fsub fOne q))

/-! ### The range coder (46_range_coder.md) -/

/-- R163: while low ≤ high, no wrap acts and the split point lies in the interval; the initial values. -/
def Obligations.SplitPointInInterval : Prop :=
  (∀ (low high : U32) (p1 : U16), low.toNat ≤ high.toNat →
    coderRange low high = high.toNat - low.toNat + 1 ∧ coderRange low high ≤ 2 ^ 32 ∧
    coderRange low high * (0xFFFF - p1.toNat) < 2 ^ 48 ∧
    (coderBound low high p1).toNat = low.toNat + (high.toNat - low.toNat + 1) * (0xFFFF - p1.toNat) / 2 ^ 16 ∧
    low.toNat ≤ (coderBound low high p1).toNat ∧ (coderBound low high p1).toNat ≤ high.toNat) ∧
  (∀ (low high : U32) (p1 : U16), (coderBound low high p1).toNat =
    (low.toNat + (((high.toNat : Int) - low.toNat + 1) % 2 ^ 64).toNat * (0xFFFF - p1.toNat) % 2 ^ 64 / 2 ^ 16) % 2 ^ 32) ∧
  coderBound 0 0xFFFFFFFF 32768 = 0x7FFF0000 ∧ coderBound 0 0xFFFFFFFF 0 = 0xFFFF0000 ∧ coderBound 0 0xFFFFFFFF 65535 = 0

/-- R165, R170: a renormalisation of encoder or decoder runs at most 32 passes and ends by its own exit; from
equal low, high and follow the decoder's takes the encoder's branches. -/
def Obligations.RenormalisationEnds : Prop :=
  (∀ c : Coder, (encRenorm c).msbAgree = false ∧ (encRenorm c).straddle = false ∧ ∀ n, 32 ≤ n → encRenormN n c = encRenorm c) ∧
  (∀ (pay : List Byte) (c : Coder), (decRenorm pay c).msbAgree = false ∧ (decRenorm pay c).straddle = false ∧
    ∀ n, 32 ≤ n → decRenormN pay n c = decRenorm pay c) ∧
  (∀ (pay : List Byte) (c d : Coder), d.low = c.low → d.high = c.high → d.follow = c.follow →
    (decRenorm pay d).low = (encRenorm c).low ∧ (decRenorm pay d).high = (encRenorm c).high ∧
    (decRenorm pay d).follow = (encRenorm c).follow)

/-- R171: while low ≤ high no straddle occurs and an MSB-agree pass keeps the order; one coded bit inverts the
interval only for bit = 1 with the split point at high, and always then if the interval is renormalised;
otherwise the order is kept and follow stays 0. -/
def Obligations.OrderedIntervalKept : Prop :=
  ∀ c : Coder, c.low.toNat ≤ c.high.toNat →
    c.straddle = false ∧ (c.msbAgree = true → c.shiftByte.low.toNat ≤ c.shiftByte.high.toNat) ∧
    ∀ (bit : Bool) (p1 : U16),
      (coderBound c.low c.high p1 = c.high ↔
        coderRange c.low c.high * (0xFFFF - p1.toNat) / 2 ^ 16 = coderRange c.low c.high - 1) ∧
      ((encodeBit c bit p1).2 = true → bit = true ∧ coderBound c.low c.high p1 = c.high) ∧
      (c.msbAgree = false → bit = true → coderBound c.low c.high p1 = c.high → (encodeBit c bit p1).2 = true) ∧
      (c.follow = 0 → (encodeBit c bit p1).2 = false →
        (encodeBit c bit p1).1.low.toNat ≤ (encodeBit c bit p1).1.high.toNat ∧ (encodeBit c bit p1).1.follow = 0)

/-- R175: if no step of the encoder inverted the interval, CmDecode gives back what CmEncode coded, whatever
the functions EXP and LN and the warm-up policy are. -/
def Obligations.CoderRoundTrip : Prop :=
  ∀ (c : Config) (x : List Byte), (cmEncodePhase c x).inv = false → cmDecode c (cmEncode c x) x.length = x

/-! ### Containers (47_block_driver.md) -/

/-- R182, R187, R189: the blocks STR_ENC encodes are the only cut of its input into blocks of BLOCK_MAX bytes
with a shorter last one; there are ceil(LEN / BLOCK_MAX) of them, and their lengths sum to LEN. In the records
STR_ENC writes, the blockLen field holds the block's length and the primary field a primary below it. -/
def Obligations.BlocksOfInput : Prop :=
  ∀ (c : Config) (x : List Byte), 0 < c.blockMax.toNat →
    let bs := strBlocks c x
    Blocks c.blockMax.toNat x bs ∧ (∀ other, Blocks c.blockMax.toNat x other → other = bs) ∧
    bs.length = (x.length + c.blockMax.toNat - 1) / c.blockMax.toNat ∧ (bs.map List.length).sum = x.length ∧
    (x.length < 2 ^ 32 →
      ((strEncoded c x).map fun e => leNat (e.record.take 4)) = bs.map List.length ∧
      ∀ e ∈ strEncoded c x, leNat ((e.record.drop 4).take 4) = e.primary ∧ e.primary < leNat (e.record.take 4))

/-- R184, R189: BLK_DEC's procedure gives back the block of a record that BlockEncode wrote without an
inversion, wherever the record stands. -/
def Obligations.BlockRoundTrip : Prop :=
  ∀ (c : Config) (s : List Byte) (m : Lmem) (a avail cap : Nat),
    let e := blockEncode c s
    s ≠ [] → s.length < 2 ^ 31 → s.length ≤ c.blockMax.toNat → e.record.length < 2 ^ 32 → e.cm.inv = false →
    m.bytes a e.record.length = e.record → e.record.length ≤ avail → s.length ≤ cap →
    ∃ d, blockDecode c m a avail cap = .ok d ∧ d.block = s ∧ d.recLen = e.record.length ∧ d.primary.toNat = e.primary ∧
      d.trail = false

/-- R189: STR_DEC's loop gives back the input of a container that STR_ENC wrote without an inversion. -/
def Obligations.StreamRoundTrip : Prop :=
  ∀ (c : Config) (x : List Byte) (bs : List (List Byte)) (m : Lmem) (src cap : Nat),
    let out := leBytes 8 x.length ++ bs.flatMap fun b => (blockEncode c b).record
    Blocks c.blockMax.toNat x bs → (∀ b ∈ bs, b.length < 2 ^ 31) → x.length < 2 ^ 32 → out.length < 2 ^ 32 → x.length ≤ cap →
    (∀ b ∈ bs, (blockEncode c b).cm.inv = false) → m.bytes src out.length = out →
    m.read src 8 = x.length ∧
    ∃ q, StrRun c m src out.length cap 8 StrProgress.start q ∧ q.out = x ∧ q.records = bs.length ∧ q.sticky.rleTrail = false

/-! ### LMEM (00_scope.md R15) -/

/-- R15, R62: little-endian reads and writes of n bytes: read after write, each byte, and the rest unchanged. -/
def Obligations.LittleEndianMemory : Prop :=
  ∀ (m : Lmem) (a n v : Nat),
    (m.write a n v).read a n = v % 256 ^ n ∧
    (∀ k, k < n → ((m.write a n v).byte (a + k)).toNat = v / 2 ^ (8 * k) % 256) ∧
    (∀ x, OutsideRange a n x → (m.write a n v).byte x = m.byte x) ∧
    m.read a n = ((List.range n).map fun k => (m.byte (a + k)).toNat * 256 ^ k).sum

/-! ### The host's port (10_state.md, 20_memory.md, 70_reset_and_hazards.md) -/

/-- R95, R29, R201: a CTRL write with bit 1 = 0 sets IRQ_EN to bit 2, idle or BUSY. With bit 0 = 1 it also starts
the list while idle; with bit 0 = 0, and while BUSY, it changes nothing else, and so enables or masks the
interrupt. -/
def Obligations.StartAccepted : Prop :=
  ∀ (s : State) (v : U32) (rest : List HostAccess), s.hostQueue = .mmioWrite (s.cfg.mmioBase + 0x004) 4 v :: rest →
    v.getLsbD 1 = false →
    ∃ t, step s = .next t ∧
      (v.getLsbD 0 = true → s.status.busy = false → t = { s with
        hostQueue := rest, irqEn := v.getLsbD 2, status := { s.status with busy := true, done := false, err := false },
        errCode := .none, errPtr := 0, errInfo := 0, cmdCount := 0 }) ∧
      (v.getLsbD 0 = false ∨ s.status.busy = true → t = { s with hostQueue := rest, irqEn := v.getLsbD 2 } ∧
        t.irq = (v.getLsbD 2 && (s.status.done || s.status.err)))

/-- R212, R29: a CTRL write with SRST = 1 puts every register at its reset value at once, START or not; LMEM
keeps every byte outside the destination window of a running command. That IRQ_EN is 0 after a write that
sets SRST and IRQ_EN together is the model's reading (log 12). -/
def Obligations.SoftResetActs : Prop :=
  ∀ (s : State) (v : U32) (rest : List HostAccess), s.hostQueue = .mmioWrite (s.cfg.mmioBase + 0x004) 4 v :: rest →
    v.getLsbD 1 = true →
    ∃ t, step s = .next t ∧ RegistersReset t ∧ t.cfg = s.cfg ∧ t.hostQueue = rest ∧ t.irq = false ∧
      (s.status.busy = false → t.lmem = s.lmem) ∧
      (∀ a, (∀ i, s.fetchFault = none → decode s.fetched = .ok i →
          OutsideRange (dstWindow i (s.operandsOf i)).start (dstWindow i (s.operandsOf i)).size a) →
        t.lmem.byte a = s.lmem.byte a)

/-- R27, R210, R28, R44: what every offset of the register block reads after power-on reset, whatever the
parameters are. That LMEM takes a new seed is the model's form of R211 (log 3). -/
def Obligations.RegistersAfterReset : Prop :=
  ∀ (s : State) (rest : List HostAccess), s.hostQueue = .powerOnReset :: rest →
    ∃ t, step s = .next t ∧ RegistersReset t ∧ t.cfg = s.cfg ∧ t.irq = false ∧ t.lmem.cells = [] ∧ t.lmem.seed ≠ s.lmem.seed ∧
      ∀ off, off < 4096 → off % 4 = 0 → t.register off =
        (if off = 0x000 then 0x5A420007 else if off = 0x02C then s.cfg.lmemSize else if off = 0x030 then s.cfg.blockMax
         else if off = 0x044 then 0xFFFFFFFF else if 0x080 ≤ off ∧ off < 0x0C0 ∧ off % 8 = 4 then 0x3FF00000 else 0)

/-- R30, R31, R44, R71: host writes other than CTRL. While idle STATUS clears the bits written 1 among DONE,
ERR, RLE_TRAIL, SIZE_MISMATCH and CODER_INV, CMD_PTR takes the value, every other offset ignores the write;
while BUSY all of them are ignored. -/
def Obligations.RegisterWrites : Prop :=
  ∀ (s : State) (off : Nat) (v : U32) (rest : List HostAccess), off < 4096 → off % 4 = 0 → off ≠ 0x004 →
    s.hostQueue = .mmioWrite (s.cfg.mmioBase + off) 4 v :: rest →
    ∃ t, step s = .next t ∧
      (s.status.busy = true → t = { s with hostQueue := rest }) ∧
      (s.status.busy = false →
        (off = 0x008 → t = { s with hostQueue := rest, status := t.status } ∧ t.status.word = s.status.word &&& ~~~(v &&& 0x706)) ∧
        (off = 0x00C → t = { s with hostQueue := rest, cmdPtr := v }) ∧
        (off ≠ 0x008 → off ≠ 0x00C → t = { s with hostQueue := rest }))

/-- R69, R71: a host read changes no register and no LMEM byte, and returns the register; while BUSY that is
promised for STATUS, ID and the CFG registers.The read lands between two commands, so that a
sticky bit set inside a running command is not in STATUS yet: the model's choice (log 24). -/
def Obligations.RegisterReads : Prop :=
  ∀ (s : State) (off : Nat) (rest : List HostAccess), off < 4096 → off % 4 = 0 →
    s.hostQueue = .mmioRead (s.cfg.mmioBase + off) 4 :: rest →
    ∃ t, step s = .next t ∧ t = { s with hostQueue := rest, hostData := t.hostData, freeCount := t.freeCount } ∧
      (s.status.busy = false ∨ off ∈ [0x000, 0x008, 0x02C, 0x030] → t.hostData = .word (s.register off))

/-- R44, R68, R71: a host MMIO access of another width or alignment or outside the block, and a host LMEM
access while BUSY, are refused. -/
def Obligations.MeaninglessAccessesRefused : Prop :=
  (∀ (s : State) (addr width : Nat) (v : U32) (rest : List HostAccess),
    (width ≠ 4 ∨ addr < s.cfg.mmioBase ∨ s.cfg.mmioBase + 4096 ≤ addr ∨ (addr - s.cfg.mmioBase) % 4 ≠ 0) →
    (s.hostQueue = .mmioWrite addr width v :: rest → step s = .refused .mmioAccess) ∧
    (s.hostQueue = .mmioRead addr width :: rest → step s = .refused .mmioAccess)) ∧
  (∀ (s : State) (addr n : Nat) (bs : List Byte) (rest : List HostAccess), s.status.busy = true →
    (s.hostQueue = .lmemWrite addr bs :: rest → step s = .refused .lmemWhileBusy) ∧
    (s.hostQueue = .lmemRead addr n :: rest → step s = .refused .lmemWhileBusy))

/-- R68, R69, R74: host LMEM accesses while idle read and write the bytes they name and nothing else. That they
name LMEM byte addresses is the model's choice (log 25). -/
def Obligations.HostMemoryAccess : Prop :=
  ∀ (s : State) (addr : Nat) (rest : List HostAccess), s.status.busy = false →
    (∀ bs : List Byte, addr + bs.length ≤ s.cfg.lmemSize.toNat → s.hostQueue = .lmemWrite addr bs :: rest →
      ∃ t, step s = .next t ∧ t = { s with hostQueue := rest, lmem := t.lmem } ∧ t.lmem.bytes addr bs.length = bs ∧
        ∀ a, OutsideRange addr bs.length a → t.lmem.byte a = s.lmem.byte a) ∧
    (∀ n, addr + n ≤ s.cfg.lmemSize.toNat → s.hostQueue = .lmemRead addr n :: rest →
      ∃ t, step s = .next t ∧ t = { s with hostQueue := rest, hostData := t.hostData } ∧
        t.hostData = .bytes (s.lmem.bytes addr n))

/-- R201, R202: the interrupt output is IRQ_EN and (DONE or ERR), on IRQ_LINE only; it is low while a list runs
and is IRQ_EN from the very step that clears BUSY. -/
def Obligations.InterruptAtListEnd : Prop :=
  (∀ (s : State) (line : Nat), s.irqOn line = true ↔
    line = s.cfg.irqLine ∧ s.irqEn = true ∧ (s.status.done = true ∨ s.status.err = true)) ∧
  (∀ s : State, s.inv = true → s.status.busy = true → s.irq = false) ∧
  (∀ s t : State, s.inv = true → s.status.busy = true → s.hostQueue = [] → step s = .next t → t.status.busy = false →
    t.irq = s.irqEn)

/-- R199, R195: after a static fault, a START without a CMD_PTR write fetches the faulting descriptor again in
a state in which every command has the operands, the checks and the memory it had before the fault. -/
def Obligations.RestartAfterStaticFault : Prop :=
  ∀ (s t : State) (f : FaultReport), StaticFaultTaken s t f →
    let u := { t with hostQueue := [.mmioWrite (s.cfg.mmioBase + 0x004) 4 1] }
    ∃ v, step u = .next v ∧ v.status.busy = true ∧ v.status.err = false ∧ v.hostQueue = [] ∧ v.cmdPtr = s.cmdPtr ∧
      v.fetched = s.fetched ∧ v.fetchFault = s.fetchFault ∧
      (∀ i, v.operandsOf i = s.operandsOf i ∧ v.staticFault i = s.staticFault i) ∧ v.lmem = s.lmem ∧ v.cfg = s.cfg ∧
      v.dbg = s.dbg ∧ v.resLen = s.resLen ∧ v.resPrimary = s.resPrimary ∧ v.resAux = s.resAux ∧ v.cmdCount = 0 ∧
      v.errCode = .none ∧ v.errPtr = 0 ∧ v.errInfo = 0

/-! ### Whole-machine rules -/

/-- R45, R30, R32 to R34, R7: the invariant every step keeps: the parameters in their ranges, LMEM canonical and
below LMEM_SIZE, at most one of BUSY, DONE and ERR, the error registers 0 unless a fault is recorded. -/
def Obligations.StepKeepsInvariant : Prop :=
  ∀ s t : State, s.inv = true → step s = .next t → t.inv = true

/-- R210: the reset state meets it. The parameter values of the reset state are the model's choice (log 4). -/
def Obligations.ResetMeetsInvariant : Prop := State.reset.inv = true

/-- R108, R109: a running list ends within floor(LMEM_SIZE / 32) + 1 steps, with exactly one of DONE and ERR. -/
def Obligations.EveryListEnds : Prop :=
  ∀ s : State, s.inv = true → s.status.busy = true → s.hostQueue = [] →
    ∃ n t, n ≤ s.cfg.lmemSize.toNat / 32 + 1 ∧ runSteps n s = .next t ∧ t.status.busy = false ∧
      (t.status.done = true ↔ t.status.err = false)
end

