-- ==== Sys2Proof/Laws/Lengths.lean ====
section
/-! SUPPORT. How long the outputs of the stages are (41_bwt.md R111, R114; 42_mtf.md R121, R122; 46_range_coder.md R175). -/

namespace Sys2Proof.Machine

open Sys2Proof

@[simp] theorem leBytes_length (n v : Nat) : (leBytes n v).length = n := by
  induction n generalizing v with
  | zero => rfl
  | succ n ih => simp [leBytes, ih]

@[simp] theorem insertRot_length (s : List Byte) (i : Nat) (l : List Nat) : (insertRot s i l).length = l.length + 1 := by
  induction l with
  | nil => rfl
  | cons j t ih => simp only [insertRot]; split <;> simp [ih]

@[simp] theorem sortRots_length (s : List Byte) (l : List Nat) : (sortRots s l).length = l.length := by
  induction l with
  | nil => rfl
  | cons i t ih => simp [sortRots, ih]

/-- |last| = N (R111). -/
@[simp] theorem bwtForward_length (s : List Byte) : (bwtForward s).1.length = s.length := by simp [bwtForward, suffixOrder]

@[simp] theorem walkNext_length (last : List Byte) (next : List Nat) (n idx : Nat) : (walkNext last next n idx).length = n := by
  induction n generalizing idx with
  | zero => rfl
  | succ n ih => simp [walkNext, ih]

/-- |BwtInverse(last, primary)| = N (R114). -/
@[simp] theorem bwtInverse_length (last : List Byte) (p : Nat) : (bwtInverse last p).length = last.length := by simp [bwtInverse]

@[simp] theorem mtfEncodeFrom_length (t x : List Byte) : (mtfEncodeFrom t x).length = x.length := by
  induction x generalizing t with
  | nil => rfl
  | cons c x ih => simp [mtfEncodeFrom, ih]

/-- |MtfEncode(x)| = |x| (R121). -/
@[simp] theorem mtfEncode_length (x : List Byte) : (mtfEncode x).length = x.length := mtfEncodeFrom_length _ x

@[simp] theorem mtfDecodeFrom_length (t y : List Byte) : (mtfDecodeFrom t y).length = y.length := by
  induction y generalizing t with
  | nil => rfl
  | cons c y ih => simp [mtfDecodeFrom, ih]

/-- |MtfDecode(y)| = |y| (R122). -/
@[simp] theorem mtfDecode_length (y : List Byte) : (mtfDecode y).length = y.length := mtfDecodeFrom_length _ y

@[simp] theorem decBytes_length (c : Config) (pay : List Byte) (n : Nat) (u : CmUnit) : (CmUnit.decBytes c pay n u).2.length = n := by
  induction n generalizing u with
  | zero => rfl
  | succ n ih => simp [CmUnit.decBytes, ih]

/-- The decoder phase gives n bytes (R175). -/
@[simp] theorem cmDecodePhase_length (c : Config) (pay : List Byte) (n : Nat) : (cmDecodePhase c pay n).2.length = n :=
  decBytes_length c pay n _

/-- A decoded block fits the capacity it was given (47_block_driver.md R184). -/
theorem blockDecode_fits {c : Config} {m : Lmem} {a avail cap : Nat} {d : DecodedBlock}
    (h : blockDecode c m a avail cap = .ok d) : d.block.length ≤ cap ∧ 16 ≤ d.recLen := by
  unfold blockDecode at h
  cases hf : headerFault c m a avail cap with
  | some f => simp [hf] at h
  | none =>
    simp only [hf] at h
    split at h
    · cases h
    · rename_i hl
      simp only [Except.ok.injEq] at h
      subst h
      simp only [bwtInverse_length, mtfDecode_length]
      refine ⟨?_, by omega⟩
      have hcap : ¬ cap < m.read a 4 := by
        intro hc
        simp only [headerFault, hc, if_true] at hf
        split at hf <;> try cases hf
        split at hf <;> try cases hf
        split at hf <;> cases hf
      simp only [ne_eq, not_not] at hl
      omega

/-- The output of STR_DEC fits its capacity (47_block_driver.md R188). -/
theorem strDecodeLoop_fits {c : Config} {m : Lmem} {src avail cap : Nat} (fuel off : Nat) (p q : StrProgress)
    (hp : p.out.length ≤ cap) (h : strDecodeLoop c m src avail cap fuel off p = .ok q) : q.out.length ≤ cap := by
  induction fuel generalizing off p with
  | zero => simp only [strDecodeLoop, Except.ok.injEq] at h; exact h ▸ hp
  | succ n ih =>
    simp only [strDecodeLoop] at h
    split at h
    · cases hb : blockDecode c m (src + off) (avail - off) (cap - p.out.length) with
      | error f => simp [hb] at h
      | ok d =>
        simp only [hb] at h
        refine ih _ _ ?_ h
        have := (blockDecode_fits hb).1
        simp only [StrProgress.add, List.length_append]
        omega
    · simp only [Except.ok.injEq] at h; exact h ▸ hp

end Sys2Proof.Machine
end

