-- ==== Sys2Proof/Laws/Coder.lean ====
section
/-! SUPPORT. What a coder phase counts and keeps (46_range_coder.md R175, R178): the bits it codes, and the code register of an encoder. -/

namespace Sys2Proof.Machine

open Sys2Proof

/-- One coded bit counts one and leaves the decoder's code register. -/
theorem encBit_counts (c : Config) (u : CmUnit) (b : Bool) : (u.encBit c b).nbits = u.nbits + 1 ∧ (u.encBit c b).coder.code = u.coder.code := by
  refine ⟨rfl, ?_⟩
  show (encRenorm (u.coder.narrow b _)).code = _
  have : ∀ n (c : Coder), (encRenormN n c).code = c.code := by
    intro n; induction n with
    | zero => intro c; rfl
    | succ n ih => intro c; simp only [encRenormN]; split
                   · rw [ih]; rfl
                   · split
                     · rw [ih]; rfl
                     · rfl
  rw [encRenorm, this]
  simp only [Coder.narrow]; split <;> rfl

/-- One coded byte counts eight bits. -/
theorem encByte_counts (c : Config) (u : CmUnit) (b : Byte) : (u.encByte c b).nbits = u.nbits + 8 ∧ (u.encByte c b).coder.code = u.coder.code := by
  simp only [CmUnit.encByte, bitsOf, List.foldl, CmUnit.learnByte]
  constructor
  · rfl
  · simp only [(encBit_counts c _ _).2]

/-- The encoder's phase over x counts eight bits a byte and leaves code 0. -/
theorem cmEncodePhase_counts (c : Config) (x : List Byte) :
    (cmEncodePhase c x).nbits = 8 * x.length ∧ (cmEncodePhase c x).coder.code = 0 := by
  have run : ∀ u : CmUnit, (x.foldl (CmUnit.encByte c) u).nbits = u.nbits + 8 * x.length ∧
      (x.foldl (CmUnit.encByte c) u).coder.code = u.coder.code := by
    induction x with
    | nil => intro u; exact ⟨rfl, rfl⟩
    | cons b x ih =>
      intro u
      rw [List.foldl_cons, (ih _).1, (ih _).2, (encByte_counts c u b).1, (encByte_counts c u b).2, List.length_cons]
      exact ⟨by omega, rfl⟩
  have h := run CmUnit.init
  exact ⟨h.1.trans (Nat.zero_add _), h.2⟩

/-- n decoded bits count n. -/
theorem decBits_nbits (c : Config) (pay) (n) (u : CmUnit) : (CmUnit.decBits c pay n u).1.nbits = u.nbits + n := by
  induction n generalizing u with
  | zero => rfl
  | succ n ih => simp only [CmUnit.decBits, ih]; show u.nbits + 1 + n = _; omega

/-- n decoded bytes count eight bits each. -/
theorem decBytes_nbits (c : Config) (pay) (n) (u : CmUnit) : (CmUnit.decBytes c pay n u).1.nbits = u.nbits + 8 * n := by
  induction n generalizing u with
  | zero => rfl
  | succ n ih =>
    simp only [CmUnit.decBytes, ih]
    show (CmUnit.decBits c pay 8 u).1.nbits + _ = _
    rw [decBits_nbits]; omega

end Sys2Proof.Machine
end

