-- ==== Sys2Proof/Laws/State.lean ====
section
/-! SUPPORT. One lemma per field per shared update of State, each true by rfl: no later proof unfolds a record update. -/

namespace Sys2Proof.Machine

open Sys2Proof

/-! ### discarding the scratch (10_state.md R47) -/

@[simp] theorem State.dropScratch_cfg (s : State) : s.dropScratch.cfg = s.cfg := rfl
@[simp] theorem State.dropScratch_irqEn (s : State) : s.dropScratch.irqEn = s.irqEn := rfl
@[simp] theorem State.dropScratch_status (s : State) : s.dropScratch.status = s.status := rfl
@[simp] theorem State.dropScratch_cmdPtr (s : State) : s.dropScratch.cmdPtr = s.cmdPtr := rfl
@[simp] theorem State.dropScratch_errCode (s : State) : s.dropScratch.errCode = s.errCode := rfl
@[simp] theorem State.dropScratch_errPtr (s : State) : s.dropScratch.errPtr = s.errPtr := rfl
@[simp] theorem State.dropScratch_errInfo (s : State) : s.dropScratch.errInfo = s.errInfo := rfl
@[simp] theorem State.dropScratch_resLen (s : State) : s.dropScratch.resLen = s.resLen := rfl
@[simp] theorem State.dropScratch_resPrimary (s : State) : s.dropScratch.resPrimary = s.resPrimary := rfl
@[simp] theorem State.dropScratch_resAux (s : State) : s.dropScratch.resAux = s.resAux := rfl
@[simp] theorem State.dropScratch_cmdCount (s : State) : s.dropScratch.cmdCount = s.cmdCount := rfl
@[simp] theorem State.dropScratch_dbg (s : State) : s.dropScratch.dbg = s.dbg := rfl
@[simp] theorem State.dropScratch_lmem (s : State) : s.dropScratch.lmem = s.lmem := rfl
@[simp] theorem State.dropScratch_scratch (s : State) : s.dropScratch.scratch = Config.freeScratch s.freeCount := rfl
@[simp] theorem State.dropScratch_hostQueue (s : State) : s.dropScratch.hostQueue = s.hostQueue := rfl
@[simp] theorem State.dropScratch_hostData (s : State) : s.dropScratch.hostData = s.hostData := rfl
@[simp] theorem State.dropScratch_freeCount (s : State) : s.dropScratch.freeCount = s.freeCount + 1 := rfl

/-! ### taking a fault (60_exceptions.md R194) -/

@[simp] theorem State.raiseFault_cfg (s : State) (f : FaultReport) : (s.raiseFault f).cfg = s.cfg := rfl
@[simp] theorem State.raiseFault_irqEn (s : State) (f : FaultReport) : (s.raiseFault f).irqEn = s.irqEn := rfl
@[simp] theorem State.raiseFault_status (s : State) (f : FaultReport) : (s.raiseFault f).status = s.status.faulted := rfl
@[simp] theorem State.raiseFault_cmdPtr (s : State) (f : FaultReport) : (s.raiseFault f).cmdPtr = s.cmdPtr := rfl
@[simp] theorem State.raiseFault_errCode (s : State) (f : FaultReport) : (s.raiseFault f).errCode = f.code := rfl
@[simp] theorem State.raiseFault_errPtr (s : State) (f : FaultReport) : (s.raiseFault f).errPtr = s.cmdPtr := rfl
@[simp] theorem State.raiseFault_errInfo (s : State) (f : FaultReport) : (s.raiseFault f).errInfo = f.info := rfl
@[simp] theorem State.raiseFault_resLen (s : State) (f : FaultReport) : (s.raiseFault f).resLen = s.resLen := rfl
@[simp] theorem State.raiseFault_resPrimary (s : State) (f : FaultReport) : (s.raiseFault f).resPrimary = s.resPrimary := rfl
@[simp] theorem State.raiseFault_resAux (s : State) (f : FaultReport) : (s.raiseFault f).resAux = s.resAux := rfl
@[simp] theorem State.raiseFault_cmdCount (s : State) (f : FaultReport) : (s.raiseFault f).cmdCount = s.cmdCount := rfl
@[simp] theorem State.raiseFault_dbg (s : State) (f : FaultReport) : (s.raiseFault f).dbg = s.dbg := rfl
@[simp] theorem State.raiseFault_lmem (s : State) (f : FaultReport) : (s.raiseFault f).lmem = s.lmem := rfl
@[simp] theorem State.raiseFault_scratch (s : State) (f : FaultReport) : (s.raiseFault f).scratch = Config.freeScratch s.freeCount := rfl
@[simp] theorem State.raiseFault_hostQueue (s : State) (f : FaultReport) : (s.raiseFault f).hostQueue = s.hostQueue := rfl
@[simp] theorem State.raiseFault_hostData (s : State) (f : FaultReport) : (s.raiseFault f).hostData = s.hostData := rfl
@[simp] theorem State.raiseFault_freeCount (s : State) (f : FaultReport) : (s.raiseFault f).freeCount = s.freeCount + 1 := rfl

/-! ### an accepted START (40_sequencer.md R95) -/

@[simp] theorem State.acceptStart_cfg (s : State) : s.acceptStart.cfg = s.cfg := rfl
@[simp] theorem State.acceptStart_irqEn (s : State) : s.acceptStart.irqEn = s.irqEn := rfl
@[simp] theorem State.acceptStart_status (s : State) : s.acceptStart.status = s.status.start := rfl
@[simp] theorem State.acceptStart_cmdPtr (s : State) : s.acceptStart.cmdPtr = s.cmdPtr := rfl
@[simp] theorem State.acceptStart_errCode (s : State) : s.acceptStart.errCode = .none := rfl
@[simp] theorem State.acceptStart_errPtr (s : State) : s.acceptStart.errPtr = 0 := rfl
@[simp] theorem State.acceptStart_errInfo (s : State) : s.acceptStart.errInfo = 0 := rfl
@[simp] theorem State.acceptStart_resLen (s : State) : s.acceptStart.resLen = s.resLen := rfl
@[simp] theorem State.acceptStart_resPrimary (s : State) : s.acceptStart.resPrimary = s.resPrimary := rfl
@[simp] theorem State.acceptStart_resAux (s : State) : s.acceptStart.resAux = s.resAux := rfl
@[simp] theorem State.acceptStart_cmdCount (s : State) : s.acceptStart.cmdCount = 0 := rfl
@[simp] theorem State.acceptStart_dbg (s : State) : s.acceptStart.dbg = s.dbg := rfl
@[simp] theorem State.acceptStart_lmem (s : State) : s.acceptStart.lmem = s.lmem := rfl
@[simp] theorem State.acceptStart_scratch (s : State) : s.acceptStart.scratch = s.scratch := rfl
@[simp] theorem State.acceptStart_hostQueue (s : State) : s.acceptStart.hostQueue = s.hostQueue := rfl
@[simp] theorem State.acceptStart_hostData (s : State) : s.acceptStart.hostData = s.hostData := rfl
@[simp] theorem State.acceptStart_freeCount (s : State) : s.acceptStart.freeCount = s.freeCount := rfl

/-! ### completion (40_sequencer.md R103) -/

@[simp] theorem State.complete_cfg (s : State) (r : Results) : (s.complete r).cfg = s.cfg := rfl
@[simp] theorem State.complete_irqEn (s : State) (r : Results) : (s.complete r).irqEn = s.irqEn := rfl
@[simp] theorem State.complete_status (s : State) (r : Results) : (s.complete r).status = s.status := rfl
@[simp] theorem State.complete_cmdPtr (s : State) (r : Results) : (s.complete r).cmdPtr = s.cmdPtr + 32 := rfl
@[simp] theorem State.complete_errCode (s : State) (r : Results) : (s.complete r).errCode = s.errCode := rfl
@[simp] theorem State.complete_errPtr (s : State) (r : Results) : (s.complete r).errPtr = s.errPtr := rfl
@[simp] theorem State.complete_errInfo (s : State) (r : Results) : (s.complete r).errInfo = s.errInfo := rfl
@[simp] theorem State.complete_resLen (s : State) (r : Results) : (s.complete r).resLen = r.len.getD s.resLen := rfl
@[simp] theorem State.complete_resPrimary (s : State) (r : Results) : (s.complete r).resPrimary = r.primary.getD s.resPrimary := rfl
@[simp] theorem State.complete_resAux (s : State) (r : Results) : (s.complete r).resAux = r.aux.getD s.resAux := rfl
@[simp] theorem State.complete_cmdCount (s : State) (r : Results) : (s.complete r).cmdCount = s.cmdCount + 1 := rfl
@[simp] theorem State.complete_dbg (s : State) (r : Results) : (s.complete r).dbg = s.dbg := rfl
@[simp] theorem State.complete_lmem (s : State) (r : Results) : (s.complete r).lmem = s.lmem := rfl
@[simp] theorem State.complete_scratch (s : State) (r : Results) : (s.complete r).scratch = Config.freeScratch s.freeCount := rfl
@[simp] theorem State.complete_hostQueue (s : State) (r : Results) : (s.complete r).hostQueue = s.hostQueue := rfl
@[simp] theorem State.complete_hostData (s : State) (r : Results) : (s.complete r).hostData = s.hostData := rfl
@[simp] theorem State.complete_freeCount (s : State) (r : Results) : (s.complete r).freeCount = s.freeCount + 1 := rfl

/-! ### a data command that finished -/

@[simp] theorem State.finish_cfg (s : State) (n : Nat) (out : List Byte) (r : Results) (g : Option Dbg) (k : Sticky) : (s.finish n out r g k).cfg = s.cfg := rfl
@[simp] theorem State.finish_irqEn (s : State) (n : Nat) (out : List Byte) (r : Results) (g : Option Dbg) (k : Sticky) : (s.finish n out r g k).irqEn = s.irqEn := rfl
@[simp] theorem State.finish_status (s : State) (n : Nat) (out : List Byte) (r : Results) (g : Option Dbg) (k : Sticky) : (s.finish n out r g k).status = s.status.stick k := rfl
@[simp] theorem State.finish_cmdPtr (s : State) (n : Nat) (out : List Byte) (r : Results) (g : Option Dbg) (k : Sticky) : (s.finish n out r g k).cmdPtr = s.cmdPtr + 32 := rfl
@[simp] theorem State.finish_errCode (s : State) (n : Nat) (out : List Byte) (r : Results) (g : Option Dbg) (k : Sticky) : (s.finish n out r g k).errCode = s.errCode := rfl
@[simp] theorem State.finish_errPtr (s : State) (n : Nat) (out : List Byte) (r : Results) (g : Option Dbg) (k : Sticky) : (s.finish n out r g k).errPtr = s.errPtr := rfl
@[simp] theorem State.finish_errInfo (s : State) (n : Nat) (out : List Byte) (r : Results) (g : Option Dbg) (k : Sticky) : (s.finish n out r g k).errInfo = s.errInfo := rfl
@[simp] theorem State.finish_resLen (s : State) (n : Nat) (out : List Byte) (r : Results) (g : Option Dbg) (k : Sticky) : (s.finish n out r g k).resLen = r.len.getD s.resLen := rfl
@[simp] theorem State.finish_resPrimary (s : State) (n : Nat) (out : List Byte) (r : Results) (g : Option Dbg) (k : Sticky) : (s.finish n out r g k).resPrimary = r.primary.getD s.resPrimary := rfl
@[simp] theorem State.finish_resAux (s : State) (n : Nat) (out : List Byte) (r : Results) (g : Option Dbg) (k : Sticky) : (s.finish n out r g k).resAux = r.aux.getD s.resAux := rfl
@[simp] theorem State.finish_cmdCount (s : State) (n : Nat) (out : List Byte) (r : Results) (g : Option Dbg) (k : Sticky) : (s.finish n out r g k).cmdCount = s.cmdCount + 1 := rfl
@[simp] theorem State.finish_dbg (s : State) (n : Nat) (out : List Byte) (r : Results) (g : Option Dbg) (k : Sticky) : (s.finish n out r g k).dbg = g.getD s.dbg := rfl
@[simp] theorem State.finish_lmem (s : State) (n : Nat) (out : List Byte) (r : Results) (g : Option Dbg) (k : Sticky) : (s.finish n out r g k).lmem = s.lmem.writeBytes n out := rfl
@[simp] theorem State.finish_scratch (s : State) (n : Nat) (out : List Byte) (r : Results) (g : Option Dbg) (k : Sticky) : (s.finish n out r g k).scratch = Config.freeScratch s.freeCount := rfl
@[simp] theorem State.finish_hostQueue (s : State) (n : Nat) (out : List Byte) (r : Results) (g : Option Dbg) (k : Sticky) : (s.finish n out r g k).hostQueue = s.hostQueue := rfl
@[simp] theorem State.finish_hostData (s : State) (n : Nat) (out : List Byte) (r : Results) (g : Option Dbg) (k : Sticky) : (s.finish n out r g k).hostData = s.hostData := rfl
@[simp] theorem State.finish_freeCount (s : State) (n : Nat) (out : List Byte) (r : Results) (g : Option Dbg) (k : Sticky) : (s.finish n out r g k).freeCount = s.freeCount + 1 := rfl

/-! ### what a dynamic fault leaves (60_exceptions.md R196) -/

@[simp] theorem State.spoil_cfg (s : State) (w : Window) (c : Bool) (k : Sticky) : (s.spoil w c k).cfg = s.cfg := rfl
@[simp] theorem State.spoil_irqEn (s : State) (w : Window) (c : Bool) (k : Sticky) : (s.spoil w c k).irqEn = s.irqEn := rfl
@[simp] theorem State.spoil_status (s : State) (w : Window) (c : Bool) (k : Sticky) : (s.spoil w c k).status = s.status.stick k := rfl
@[simp] theorem State.spoil_cmdPtr (s : State) (w : Window) (c : Bool) (k : Sticky) : (s.spoil w c k).cmdPtr = s.cmdPtr := rfl
@[simp] theorem State.spoil_errCode (s : State) (w : Window) (c : Bool) (k : Sticky) : (s.spoil w c k).errCode = s.errCode := rfl
@[simp] theorem State.spoil_errPtr (s : State) (w : Window) (c : Bool) (k : Sticky) : (s.spoil w c k).errPtr = s.errPtr := rfl
@[simp] theorem State.spoil_errInfo (s : State) (w : Window) (c : Bool) (k : Sticky) : (s.spoil w c k).errInfo = s.errInfo := rfl
@[simp] theorem State.spoil_resLen (s : State) (w : Window) (c : Bool) (k : Sticky) : (s.spoil w c k).resLen = s.resLen := rfl
@[simp] theorem State.spoil_resPrimary (s : State) (w : Window) (c : Bool) (k : Sticky) : (s.spoil w c k).resPrimary = s.resPrimary := rfl
@[simp] theorem State.spoil_resAux (s : State) (w : Window) (c : Bool) (k : Sticky) : (s.spoil w c k).resAux = s.resAux := rfl
@[simp] theorem State.spoil_cmdCount (s : State) (w : Window) (c : Bool) (k : Sticky) : (s.spoil w c k).cmdCount = s.cmdCount := rfl
@[simp] theorem State.spoil_dbg (s : State) (w : Window) (c : Bool) (k : Sticky) : (s.spoil w c k).dbg = if c then Config.freeDbg s.freeCount else s.dbg := rfl
@[simp] theorem State.spoil_lmem (s : State) (w : Window) (c : Bool) (k : Sticky) : (s.spoil w c k).lmem = s.lmem.scramble s.freeCount w := rfl
@[simp] theorem State.spoil_scratch (s : State) (w : Window) (c : Bool) (k : Sticky) : (s.spoil w c k).scratch = s.scratch := rfl
@[simp] theorem State.spoil_hostQueue (s : State) (w : Window) (c : Bool) (k : Sticky) : (s.spoil w c k).hostQueue = s.hostQueue := rfl
@[simp] theorem State.spoil_hostData (s : State) (w : Window) (c : Bool) (k : Sticky) : (s.spoil w c k).hostData = s.hostData := rfl
@[simp] theorem State.spoil_freeCount (s : State) (w : Window) (c : Bool) (k : Sticky) : (s.spoil w c k).freeCount = s.freeCount := rfl

/-! ### the register reset (10_state.md R27) -/

@[simp] theorem State.resetRegisters_cfg (s : State) : s.resetRegisters.cfg = s.cfg := rfl
@[simp] theorem State.resetRegisters_irqEn (s : State) : s.resetRegisters.irqEn = false := rfl
@[simp] theorem State.resetRegisters_status (s : State) : s.resetRegisters.status = Status.reset := rfl
@[simp] theorem State.resetRegisters_cmdPtr (s : State) : s.resetRegisters.cmdPtr = 0 := rfl
@[simp] theorem State.resetRegisters_errCode (s : State) : s.resetRegisters.errCode = .none := rfl
@[simp] theorem State.resetRegisters_errPtr (s : State) : s.resetRegisters.errPtr = 0 := rfl
@[simp] theorem State.resetRegisters_errInfo (s : State) : s.resetRegisters.errInfo = 0 := rfl
@[simp] theorem State.resetRegisters_resLen (s : State) : s.resetRegisters.resLen = 0 := rfl
@[simp] theorem State.resetRegisters_resPrimary (s : State) : s.resetRegisters.resPrimary = 0 := rfl
@[simp] theorem State.resetRegisters_resAux (s : State) : s.resetRegisters.resAux = 0 := rfl
@[simp] theorem State.resetRegisters_cmdCount (s : State) : s.resetRegisters.cmdCount = 0 := rfl
@[simp] theorem State.resetRegisters_dbg (s : State) : s.resetRegisters.dbg = Dbg.reset := rfl
@[simp] theorem State.resetRegisters_lmem (s : State) : s.resetRegisters.lmem = s.lmem := rfl
@[simp] theorem State.resetRegisters_scratch (s : State) : s.resetRegisters.scratch = Config.freeScratch s.freeCount := rfl
@[simp] theorem State.resetRegisters_hostQueue (s : State) : s.resetRegisters.hostQueue = s.hostQueue := rfl
@[simp] theorem State.resetRegisters_hostData (s : State) : s.resetRegisters.hostData = s.hostData := rfl
@[simp] theorem State.resetRegisters_freeCount (s : State) : s.resetRegisters.freeCount = s.freeCount + 1 := rfl

/-! ### the latched descriptor (40_sequencer.md R96) -/

@[simp] theorem State.latch_cfg (s : State) (d : Descriptor) : (s.latch d).cfg = s.cfg := rfl
@[simp] theorem State.latch_irqEn (s : State) (d : Descriptor) : (s.latch d).irqEn = s.irqEn := rfl
@[simp] theorem State.latch_status (s : State) (d : Descriptor) : (s.latch d).status = s.status := rfl
@[simp] theorem State.latch_cmdPtr (s : State) (d : Descriptor) : (s.latch d).cmdPtr = s.cmdPtr := rfl
@[simp] theorem State.latch_errCode (s : State) (d : Descriptor) : (s.latch d).errCode = s.errCode := rfl
@[simp] theorem State.latch_errPtr (s : State) (d : Descriptor) : (s.latch d).errPtr = s.errPtr := rfl
@[simp] theorem State.latch_errInfo (s : State) (d : Descriptor) : (s.latch d).errInfo = s.errInfo := rfl
@[simp] theorem State.latch_resLen (s : State) (d : Descriptor) : (s.latch d).resLen = s.resLen := rfl
@[simp] theorem State.latch_resPrimary (s : State) (d : Descriptor) : (s.latch d).resPrimary = s.resPrimary := rfl
@[simp] theorem State.latch_resAux (s : State) (d : Descriptor) : (s.latch d).resAux = s.resAux := rfl
@[simp] theorem State.latch_cmdCount (s : State) (d : Descriptor) : (s.latch d).cmdCount = s.cmdCount := rfl
@[simp] theorem State.latch_dbg (s : State) (d : Descriptor) : (s.latch d).dbg = s.dbg := rfl
@[simp] theorem State.latch_lmem (s : State) (d : Descriptor) : (s.latch d).lmem = s.lmem := rfl
@[simp] theorem State.latch_scratch (s : State) (d : Descriptor) : (s.latch d).scratch = { s.scratch with latch := d } := rfl
@[simp] theorem State.latch_hostQueue (s : State) (d : Descriptor) : (s.latch d).hostQueue = s.hostQueue := rfl
@[simp] theorem State.latch_hostData (s : State) (d : Descriptor) : (s.latch d).hostData = s.hostData := rfl
@[simp] theorem State.latch_freeCount (s : State) (d : Descriptor) : (s.latch d).freeCount = s.freeCount := rfl

/-! ### a placed command -/

@[simp] theorem State.loadCommand_cfg (s : State) (bs : List Byte) : (s.loadCommand bs).cfg = s.cfg := rfl
@[simp] theorem State.loadCommand_irqEn (s : State) (bs : List Byte) : (s.loadCommand bs).irqEn = s.irqEn := rfl
@[simp] theorem State.loadCommand_status (s : State) (bs : List Byte) : (s.loadCommand bs).status = { s.status with busy := true } := rfl
@[simp] theorem State.loadCommand_cmdPtr (s : State) (bs : List Byte) : (s.loadCommand bs).cmdPtr = s.cmdPtr := rfl
@[simp] theorem State.loadCommand_errCode (s : State) (bs : List Byte) : (s.loadCommand bs).errCode = s.errCode := rfl
@[simp] theorem State.loadCommand_errPtr (s : State) (bs : List Byte) : (s.loadCommand bs).errPtr = s.errPtr := rfl
@[simp] theorem State.loadCommand_errInfo (s : State) (bs : List Byte) : (s.loadCommand bs).errInfo = s.errInfo := rfl
@[simp] theorem State.loadCommand_resLen (s : State) (bs : List Byte) : (s.loadCommand bs).resLen = s.resLen := rfl
@[simp] theorem State.loadCommand_resPrimary (s : State) (bs : List Byte) : (s.loadCommand bs).resPrimary = s.resPrimary := rfl
@[simp] theorem State.loadCommand_resAux (s : State) (bs : List Byte) : (s.loadCommand bs).resAux = s.resAux := rfl
@[simp] theorem State.loadCommand_cmdCount (s : State) (bs : List Byte) : (s.loadCommand bs).cmdCount = s.cmdCount := rfl
@[simp] theorem State.loadCommand_dbg (s : State) (bs : List Byte) : (s.loadCommand bs).dbg = s.dbg := rfl
@[simp] theorem State.loadCommand_lmem (s : State) (bs : List Byte) : (s.loadCommand bs).lmem = s.lmem.writeBytes s.cmdPtr.toNat bs := rfl
@[simp] theorem State.loadCommand_scratch (s : State) (bs : List Byte) : (s.loadCommand bs).scratch = s.scratch := rfl
@[simp] theorem State.loadCommand_hostQueue (s : State) (bs : List Byte) : (s.loadCommand bs).hostQueue = [] := rfl
@[simp] theorem State.loadCommand_hostData (s : State) (bs : List Byte) : (s.loadCommand bs).hostData = s.hostData := rfl
@[simp] theorem State.loadCommand_freeCount (s : State) (bs : List Byte) : (s.loadCommand bs).freeCount = s.freeCount := rfl

/-! ### STATUS updates (10_state.md R30, R46) -/

@[simp] theorem Status.start_busy (s : Status) : s.start.busy = true := rfl
@[simp] theorem Status.start_done (s : Status) : s.start.done = false := rfl
@[simp] theorem Status.start_err (s : Status) : s.start.err = false := rfl
@[simp] theorem Status.start_rleTrail (s : Status) : s.start.rleTrail = s.rleTrail := rfl
@[simp] theorem Status.start_sizeMismatch (s : Status) : s.start.sizeMismatch = s.sizeMismatch := rfl
@[simp] theorem Status.start_coderInv (s : Status) : s.start.coderInv = s.coderInv := rfl
@[simp] theorem Status.faulted_busy (s : Status) : s.faulted.busy = false := rfl
@[simp] theorem Status.faulted_done (s : Status) : s.faulted.done = s.done := rfl
@[simp] theorem Status.faulted_err (s : Status) : s.faulted.err = true := rfl
@[simp] theorem Status.faulted_rleTrail (s : Status) : s.faulted.rleTrail = s.rleTrail := rfl
@[simp] theorem Status.faulted_sizeMismatch (s : Status) : s.faulted.sizeMismatch = s.sizeMismatch := rfl
@[simp] theorem Status.faulted_coderInv (s : Status) : s.faulted.coderInv = s.coderInv := rfl
@[simp] theorem Status.halted_busy (s : Status) : s.halted.busy = false := rfl
@[simp] theorem Status.halted_done (s : Status) : s.halted.done = true := rfl
@[simp] theorem Status.halted_err (s : Status) : s.halted.err = s.err := rfl
@[simp] theorem Status.halted_rleTrail (s : Status) : s.halted.rleTrail = s.rleTrail := rfl
@[simp] theorem Status.halted_sizeMismatch (s : Status) : s.halted.sizeMismatch = s.sizeMismatch := rfl
@[simp] theorem Status.halted_coderInv (s : Status) : s.halted.coderInv = s.coderInv := rfl
@[simp] theorem Status.stick_busy (s : Status) (k : Sticky) : (s.stick k).busy = s.busy := rfl
@[simp] theorem Status.stick_done (s : Status) (k : Sticky) : (s.stick k).done = s.done := rfl
@[simp] theorem Status.stick_err (s : Status) (k : Sticky) : (s.stick k).err = s.err := rfl
@[simp] theorem Status.stick_rleTrail (s : Status) (k : Sticky) : (s.stick k).rleTrail = (s.rleTrail || k.rleTrail) := rfl
@[simp] theorem Status.stick_sizeMismatch (s : Status) (k : Sticky) : (s.stick k).sizeMismatch = (s.sizeMismatch || k.sizeMismatch) := rfl
@[simp] theorem Status.stick_coderInv (s : Status) (k : Sticky) : (s.stick k).coderInv = (s.coderInv || k.coderInv) := rfl

end Sys2Proof.Machine
end

