-- ==== Sys2Proof/Laws/Memory.lean ====
section
/-! SUPPORT. The laws of the sparse tables and of LMEM (00_scope.md R15): read after write, every other byte unchanged, and the canonical form kept by every memory operation. -/

namespace Sys2Proof.Machine

open Sys2Proof

/-! ### Tables -/

theorem tableGet_set_same {α : Type} (k : Nat) (v : α) (t : List (Nat × α)) : tableGet k (tableSet k v t) = some v := by
  induction t with
  | nil => simp [tableSet, tableGet]
  | cons e t ih =>
    simp only [tableSet]
    split
    · simp [tableGet]
    · split
      · simp [tableGet]
      · rename_i h; simp [tableGet, h, ih]

theorem tableGet_set_other {α : Type} {j k : Nat} (v : α) (t : List (Nat × α)) (h : j ≠ k) :
    tableGet j (tableSet k v t) = tableGet j t := by
  induction t with
  | nil => simp [tableSet, tableGet, h]
  | cons e t ih =>
    simp only [tableSet]
    split
    · simp [tableGet, h]
    · split
      · rename_i hk; subst hk; simp [tableGet, h]
      · simp [tableGet, ih]

theorem risingFrom_mono {α : Type} {m n : Nat} (t : List (Nat × α)) (h : m ≤ n) (hr : risingFrom n t = true) :
    risingFrom m t = true := by
  cases t with
  | nil => rfl
  | cons e t => simp [risingFrom] at hr ⊢; exact ⟨by omega, hr.2⟩

theorem risingFrom_set {α : Type} (n k : Nat) (v : α) (t : List (Nat × α)) (hn : n ≤ k) (h : risingFrom n t = true) :
    risingFrom n (tableSet k v t) = true := by
  induction t generalizing n with
  | nil => simp [tableSet, risingFrom, hn]
  | cons e t ih =>
    simp only [risingFrom, Bool.and_eq_true, decide_eq_true_eq] at h
    simp only [tableSet]
    split
    · simp [risingFrom, hn, h.2]; omega
    · split
      · rename_i hk; simp [risingFrom, hn]; rw [hk]; exact h.2
      · simp only [risingFrom, Bool.and_eq_true, decide_eq_true_eq]
        exact ⟨h.1, ih _ (by omega) h.2⟩

/-- A write keeps the canonical form. -/
theorem rising_set {α : Type} (k : Nat) (v : α) (t : List (Nat × α)) (h : rising t = true) : rising (tableSet k v t) = true :=
  risingFrom_set 0 k v t (Nat.zero_le k) h

theorem all_set {α : Type} (p : Nat × α → Bool) (k : Nat) (v : α) (t : List (Nat × α)) (hk : p (k, v) = true)
    (h : t.all p = true) : (tableSet k v t).all p = true := by
  induction t with
  | nil => simp [tableSet, hk]
  | cons e t ih =>
    simp only [List.all_cons, Bool.and_eq_true] at h
    simp only [tableSet]
    split
    · simp [hk, h.1]; simpa using h.2
    · split
      · simp [hk]; simpa using h.2
      · simp only [List.all_cons, Bool.and_eq_true]; exact ⟨h.1, ih h.2⟩

/-! ### LMEM -/

@[simp] theorem Lmem.writeByte_seed (m : Lmem) (a : Nat) (b : Byte) : (m.writeByte a b).seed = m.seed := rfl

theorem Lmem.byte_writeByte_same (m : Lmem) (a : Nat) (b : Byte) : (m.writeByte a b).byte a = b := by
  simp [Lmem.byte, Lmem.writeByte, tableGet_set_same]

theorem Lmem.byte_writeByte_other (m : Lmem) {a x : Nat} (b : Byte) (h : x ≠ a) : (m.writeByte a b).byte x = m.byte x := by
  simp [Lmem.byte, Lmem.writeByte, tableGet_set_other _ _ h]

/-- A write of a byte sequence leaves every address outside it alone. -/
theorem Lmem.byte_writeBytes_outside (m : Lmem) (a : Nat) (bs : List Byte) (x : Nat) (h : x < a ∨ a + bs.length ≤ x) :
    (m.writeBytes a bs).byte x = m.byte x := by
  induction bs generalizing m a with
  | nil => rfl
  | cons b bs ih =>
    simp only [List.length_cons] at h
    rw [Lmem.writeBytes, ih _ _ (by omega), Lmem.byte_writeByte_other _ _ (by omega)]

/-- Reading back the bytes a write stored. -/
theorem Lmem.bytes_writeBytes_same (m : Lmem) (a : Nat) (bs : List Byte) : (m.writeBytes a bs).bytes a bs.length = bs := by
  induction bs generalizing m a with
  | nil => rfl
  | cons b bs ih =>
    simp only [Lmem.writeBytes, List.length_cons, Lmem.bytes]
    rw [Lmem.byte_writeBytes_outside _ _ _ _ (by omega), Lmem.byte_writeByte_same, ih]

@[simp] theorem Lmem.bytes_length (m : Lmem) (a n : Nat) : (m.bytes a n).length = n := by
  induction n generalizing a with
  | zero => rfl
  | succ n ih => simp [Lmem.bytes, ih]

/-- Two memories that agree on a range give the same bytes there. -/
theorem Lmem.bytes_congr (m m' : Lmem) (a n : Nat) (h : ∀ x, a ≤ x → x < a + n → m'.byte x = m.byte x) :
    m'.bytes a n = m.bytes a n := by
  induction n generalizing a with
  | zero => rfl
  | succ n ih => simp only [Lmem.bytes]; rw [h a (by omega) (by omega), ih (a + 1) (fun x h1 h2 => h x (by omega) (by omega))]

@[simp] theorem Lmem.writeBytes_seed (m : Lmem) (a : Nat) (bs : List Byte) : (m.writeBytes a bs).seed = m.seed := by
  induction bs generalizing m a with
  | nil => rfl
  | cons b bs ih => simp [Lmem.writeBytes, ih]

/-- Every memory operation keeps the canonical form: one byte. -/
theorem Memory.wf_writeByte (m : Lmem) (a : Nat) (b : Byte) (h : Memory.wf m = true) : Memory.wf (m.writeByte a b) = true :=
  rising_set a b m.cells h

/-- Every memory operation keeps the canonical form: a byte sequence. -/
theorem Memory.wf_writeBytes (m : Lmem) (a : Nat) (bs : List Byte) (h : Memory.wf m = true) : Memory.wf (m.writeBytes a bs) = true := by
  induction bs generalizing m a with
  | nil => exact h
  | cons b bs ih => exact ih _ _ (Memory.wf_writeByte m a b h)

/-- Every memory operation keeps the canonical form: a window that becomes unspecified. -/
theorem Memory.wf_scramble (m : Lmem) (k : Nat) (w : Window) (h : Memory.wf m = true) : Memory.wf (m.scramble k w) = true :=
  Memory.wf_writeBytes m _ _ h

/-- The memory of State.reset is canonical. -/
theorem Memory.wf_reset : Memory.wf State.reset.lmem = true := rfl

@[simp] theorem freeBytes_length (k : Nat) (w : Window) : (freeBytes k w).length = w.size := by simp [freeBytes]

theorem Lmem.byte_scramble_outside (m : Lmem) (k : Nat) (w : Window) (x : Nat) (h : x < w.start ∨ w.start + w.size ≤ x) :
    (m.scramble k w).byte x = m.byte x :=
  Lmem.byte_writeBytes_outside m w.start (freeBytes k w) x (by simpa using h)

/-- Writes below a bound keep the listed addresses below it. -/
theorem Lmem.all_writeBytes (m : Lmem) (n a : Nat) (bs : List Byte) (hb : a + bs.length ≤ n)
    (h : m.cells.all (fun e => decide (e.1 < n)) = true) : (m.writeBytes a bs).cells.all (fun e => decide (e.1 < n)) = true := by
  induction bs generalizing m a with
  | nil => exact h
  | cons b bs ih =>
    simp only [List.length_cons] at hb
    exact ih _ _ (by omega) (all_set _ _ _ _ (by simp; omega) h)

end Sys2Proof.Machine
end

