-- ==== Sys2Proof/Laws/Command.lean ====
section
/-! SUPPORT. What the frame of a command can do (40_sequencer.md R98 to R105, 60_exceptions.md R194 to R196), said once: every proof about a command cites these instead of unfolding `runCommand`. -/

namespace Sys2Proof.Machine

open Sys2Proof

/-! ### The three ways a data command ends -/

theorem runCommand_static {i : Instr} {s : State} {op : Operands → Effect} {f : FaultReport} (h : s.staticFault i = some f) :
    runCommand i s op = .next (s.raiseFault f) := by simp [runCommand, h]

theorem runCommand_done {i : Instr} {s : State} {op : Operands → Effect} {out : List Byte} {r : Results} {g : Option Dbg} {k : Sticky}
    (h : s.staticFault i = none) (ho : op (s.operandsOf i) = .done out r g k) :
    runCommand i s op = .next (s.finish (dstWindow i (s.operandsOf i)).start out r g k) := by
  simp [runCommand, h, ho, State.applyEffect]

theorem runCommand_fault {i : Instr} {s : State} {op : Operands → Effect} {f : FaultReport} {c : Bool} {k : Sticky}
    (h : s.staticFault i = none) (ho : op (s.operandsOf i) = .fault f c k) :
    runCommand i s op = .next ((s.spoil (dstWindow i (s.operandsOf i)) c k).raiseFault f) := by
  simp [runCommand, h, ho, State.applyEffect]

/-- Everything a data command can answer: never a stop of the model. -/
theorem runCommand_cases (i : Instr) (s : State) (op : Operands → Effect) :
    (∃ f, s.staticFault i = some f ∧ runCommand i s op = .next (s.raiseFault f)) ∨
    (∃ out r g k, s.staticFault i = none ∧ op (s.operandsOf i) = .done out r g k ∧
      runCommand i s op = .next (s.finish (dstWindow i (s.operandsOf i)).start out r g k)) ∨
    (∃ f c k, s.staticFault i = none ∧ op (s.operandsOf i) = .fault f c k ∧
      runCommand i s op = .next ((s.spoil (dstWindow i (s.operandsOf i)) c k).raiseFault f)) := by
  cases h : s.staticFault i with
  | some f => exact .inl ⟨f, rfl, runCommand_static h⟩
  | none =>
    cases ho : op (s.operandsOf i) with
    | done out r g k => exact .inr (.inl ⟨out, r, g, k, rfl, rfl, runCommand_done h ho⟩)
    | fault f c k => exact .inr (.inr ⟨f, c, k, rfl, rfl, runCommand_fault h ho⟩)

/-! ### What each way leaves -/

theorem commandDone_finish (s : State) (dst : Nat) (out : List Byte) (r : Results) (g : Option Dbg) (k : Sticky) :
    CommandDone s (s.finish dst out r g k) dst out r (g.getD s.dbg) k where
  stored := Lmem.bytes_writeBytes_same _ _ _
  otherBytes _ h := Lmem.byte_writeBytes_outside _ _ _ _ h
  resLen := rfl
  resPrimary := rfl
  resAux := rfl
  cmdCount := rfl
  cmdPtr := rfl
  dbg := rfl
  busy := rfl
  done := rfl
  err := rfl
  rleTrail := rfl
  sizeMismatch := rfl
  coderInv := rfl
  errCode := rfl
  errPtr := rfl
  errInfo := rfl
  hostSide := ⟨rfl, rfl, rfl, rfl⟩

theorem staticFaultTaken_raise (s : State) (f : FaultReport) : StaticFaultTaken s (s.raiseFault f) f where
  registers := ⟨rfl, rfl, rfl, rfl, rfl, rfl, rfl, rfl, rfl, rfl, rfl, ⟨rfl, rfl, rfl, rfl⟩⟩
  lmem := rfl
  dbg := rfl
  rleTrail := rfl
  sizeMismatch := rfl
  coderInv := rfl

theorem dynamicFaultTaken_spoil (s : State) (w : Window) (c : Bool) (k : Sticky) (f : FaultReport) :
    DynamicFaultTaken s ((s.spoil w c k).raiseFault f) f w.start w.size c k where
  registers := ⟨rfl, rfl, rfl, rfl, rfl, rfl, rfl, rfl, rfl, rfl, rfl, ⟨rfl, rfl, rfl, rfl⟩⟩
  otherBytes _ h := Lmem.byte_scramble_outside _ _ _ _ h
  dbg h := by simp [h]
  rleTrail := rfl
  sizeMismatch := rfl
  coderInv := rfl

/-! ### The static checks -/

/-- A command that passes the static checks has both windows in range and apart (R100, R101). -/
theorem windows_of_staticFault_none {s : State} {i : Instr} (h : s.staticFault i = none) :
    (srcWindow i (s.operandsOf i)).inRange s.cfg = true ∧ (dstWindow i (s.operandsOf i)).inRange s.cfg = true ∧
    (srcWindow i (s.operandsOf i)).overlaps (dstWindow i (s.operandsOf i)) = false := by
  simp only [State.staticFault, Option.or_eq_none_iff] at h
  have hw := h.2
  simp only [windowCheck] at hw
  split at hw
  · cases hw
  · split at hw
    · cases hw
    · split at hw
      · cases hw
      · simp_all

/-- No static check raises NONE. -/
theorem staticFault_code_ne_none {s : State} {i : Instr} {f : FaultReport} (h : s.staticFault i = some f) : f.code ≠ .none := by
  have hb : ∀ {c o f}, blockLenCheck c o = some f → f.code ≠ .none := by
    intro c o f h; simp only [blockLenCheck] at h
    split at h
    · cases h; simp
    · split at h <;> cases h; simp
  have hp : ∀ {o f}, primaryCheck o = some f → f.code ≠ .none := by
    intro o f h; simp only [primaryCheck] at h
    split at h <;> cases h; simp
  have hw : ∀ {c v w o f}, windowCheck c v w o = some f → f.code ≠ .none := by
    intro c v w o f h; simp only [windowCheck] at h
    split at h
    · cases h; simp
    · split at h
      · cases h; simp
      · split at h <;> cases h; simp
  have ho : ∀ {c i o f}, opcodeCheck c i o = some f → f.code ≠ .none := by
    intro c i o f h
    cases i <;> simp only [opcodeCheck, reduceCtorEq] at h
    · exact hb h
    · rcases Option.or_eq_some_iff.mp h with h | h
      · exact hb h
      · exact hp h.2
    · exact hb h
  simp only [State.staticFault] at h
  rcases Option.or_eq_some_iff.mp h with h | h
  · exact ho h
  · exact hw h.2

/-! ### What an operation may write -/

/-- The output of an operation fits n bytes, and a dynamic fault of it has a code. -/
def Effect.fits (n : Nat) : Effect → Prop
  | .done out _ _ _ => out.length ≤ n
  | .fault f _ _ => f.code ≠ .none

theorem opBwtFwd_fits (m : Lmem) (o : Operands) : (opBwtFwd m o).fits o.lenEff.toNat := by simp [opBwtFwd, Effect.fits]
theorem opBwtInv_fits (m : Lmem) (o : Operands) : (opBwtInv m o).fits o.lenEff.toNat := by simp [opBwtInv, Effect.fits]
theorem opMtfEnc_fits (m : Lmem) (o : Operands) : (opMtfEnc m o).fits o.lenEff.toNat := by simp [opMtfEnc, Effect.fits]
theorem opMtfDec_fits (m : Lmem) (o : Operands) : (opMtfDec m o).fits o.lenEff.toNat := by simp [opMtfDec, Effect.fits]

theorem opRle0Enc_fits (m : Lmem) (o : Operands) : (opRle0Enc m o).fits o.argEff.toNat := by
  simp only [opRle0Enc]; split
  · simp [Effect.fits]
  · simp only [Effect.fits]; omega

theorem opRle0Dec_fits (m : Lmem) (o : Operands) : (opRle0Dec m o).fits o.argEff.toNat := by
  simp only [opRle0Dec]; split
  · simp [Effect.fits]
  · simp only [Effect.fits]; omega

theorem opCmEnc_fits (c : Config) (m : Lmem) (o : Operands) : (opCmEnc c m o).fits o.argEff.toNat := by
  simp only [opCmEnc]; split
  · simp [Effect.fits]
  · simp only [Effect.fits]; omega

theorem opCmDec_fits (c : Config) (m : Lmem) (o : Operands) : (opCmDec c m o).fits o.lenEff.toNat := by
  simp [opCmDec, Effect.fits]

theorem opBlkEnc_fits (c : Config) (m : Lmem) (o : Operands) : (opBlkEnc c m o).fits o.argEff.toNat := by
  simp only [opBlkEnc]; split
  · simp [Effect.fits]
  · simp only [Effect.fits]; omega

theorem opStrEnc_fits (c : Config) (m : Lmem) (o : Operands) : (opStrEnc c m o).fits o.argEff.toNat := by
  simp only [opStrEnc]; split
  · simp [Effect.fits]
  · simp only [Effect.fits]; omega

/-- A fault inside BlockDecode has a code (47_block_driver.md R184). -/
theorem blockDecode_fault_code {c : Config} {m : Lmem} {a avail cap : Nat} {f : BlockFault}
    (h : blockDecode c m a avail cap = .error f) : f.report.code ≠ .none := by
  unfold blockDecode at h
  cases hf : headerFault c m a avail cap with
  | some g =>
    simp only [hf, Except.error.injEq] at h
    subst h
    simp only [headerFault] at hf
    split at hf
    · cases hf; simp
    · split at hf
      · cases hf; simp
      · split at hf
        · cases hf; simp
        · split at hf
          · cases hf; simp
          · split at hf
            · cases hf; simp
            · split at hf <;> cases hf; simp
  | none =>
    simp only [hf] at h
    split at h
    · simp only [Except.error.injEq] at h; subst h; simp
    · cases h

theorem opBlkDec_fits (c : Config) (m : Lmem) (o : Operands) : (opBlkDec c m o).fits o.lenEff.toNat := by
  simp only [opBlkDec]
  cases h : blockDecode c m o.src.toNat o.argEff.toNat o.lenEff.toNat with
  | error f => exact blockDecode_fault_code h
  | ok d => exact (blockDecode_fits h).1

theorem strDecodeLoop_fault_code {c : Config} {m : Lmem} {src avail cap : Nat} {f : BlockFault} (fuel off : Nat) (p : StrProgress)
    (h : strDecodeLoop c m src avail cap fuel off p = .error f) : f.report.code ≠ .none := by
  induction fuel generalizing off p with
  | zero => cases h
  | succ n ih =>
    simp only [strDecodeLoop] at h
    split at h
    · cases hb : blockDecode c m (src + off) (avail - off) (cap - p.out.length) with
      | error g =>
        simp only [hb, Except.error.injEq] at h
        subst h
        show g.report.code ≠ .none
        exact blockDecode_fault_code hb
      | ok d => simp only [hb] at h; exact ih _ _ h
    · cases h

theorem opStrDec_fits (c : Config) (m : Lmem) (o : Operands) : (opStrDec c m o).fits o.lenEff.toNat := by
  simp only [opStrDec]
  split
  · simp [Effect.fits]
  · cases h : strDecodeLoop c m o.src.toNat o.argEff.toNat o.lenEff.toNat o.argEff.toNat 8 StrProgress.start with
    | error f => exact strDecodeLoop_fault_code _ _ _ h
    | ok p => exact strDecodeLoop_fits _ _ _ _ (by simp [StrProgress.start]) h

/-! ### Every command, said once -/

/-- Everything `exec` can answer: a completed NOP or HALT, a static fault, a finished operation that fits the
destination window, or a dynamic fault. -/
theorem exec_cases (i : Instr) (s : State) :
    (i = .nop ∧ exec i s = .next (s.complete Results.keep)) ∨
    (i = .halt ∧ exec i s = .next { s.complete Results.keep with status := s.status.halted }) ∨
    (∃ f, s.staticFault i = some f ∧ exec i s = .next (s.raiseFault f)) ∨
    (∃ out r g k, s.staticFault i = none ∧ out.length ≤ (dstWindow i (s.operandsOf i)).size ∧
      exec i s = .next (s.finish (dstWindow i (s.operandsOf i)).start out r g k)) ∨
    (∃ f c k, s.staticFault i = none ∧ f.code ≠ .none ∧
      exec i s = .next ((s.spoil (dstWindow i (s.operandsOf i)) c k).raiseFault f)) := by
  have run : ∀ (op : Operands → Effect), (op (s.operandsOf i)).fits (dstWindow i (s.operandsOf i)).size →
      exec i s = runCommand i s op →
      (∃ f, s.staticFault i = some f ∧ exec i s = .next (s.raiseFault f)) ∨
      (∃ out r g k, s.staticFault i = none ∧ out.length ≤ (dstWindow i (s.operandsOf i)).size ∧
        exec i s = .next (s.finish (dstWindow i (s.operandsOf i)).start out r g k)) ∨
      (∃ f c k, s.staticFault i = none ∧ f.code ≠ .none ∧
        exec i s = .next ((s.spoil (dstWindow i (s.operandsOf i)) c k).raiseFault f)) := by
    intro op hfit he
    rcases runCommand_cases i s op with ⟨f, h, hr⟩ | ⟨out, r, g, k, h, ho, hr⟩ | ⟨f, c, k, h, ho, hr⟩
    · exact .inl ⟨f, h, he.trans hr⟩
    · rw [ho] at hfit; exact .inr (.inl ⟨out, r, g, k, h, hfit, he.trans hr⟩)
    · rw [ho] at hfit; exact .inr (.inr ⟨f, c, k, h, hfit, he.trans hr⟩)
  cases i with
  | nop => exact .inl ⟨rfl, rfl⟩
  | halt => exact .inr (.inl ⟨rfl, rfl⟩)
  | bwtFwd => exact .inr (.inr (run _ (opBwtFwd_fits _ _) rfl))
  | bwtInv => exact .inr (.inr (run _ (opBwtInv_fits _ _) rfl))
  | mtfEnc => exact .inr (.inr (run _ (opMtfEnc_fits _ _) rfl))
  | mtfDec => exact .inr (.inr (run _ (opMtfDec_fits _ _) rfl))
  | rle0Enc => exact .inr (.inr (run _ (opRle0Enc_fits _ _) rfl))
  | rle0Dec => exact .inr (.inr (run _ (opRle0Dec_fits _ _) rfl))
  | cmEnc => exact .inr (.inr (run _ (opCmEnc_fits _ _ _) rfl))
  | cmDec => exact .inr (.inr (run _ (opCmDec_fits _ _ _) rfl))
  | blkEnc => exact .inr (.inr (run _ (opBlkEnc_fits _ _ _) rfl))
  | blkDec => exact .inr (.inr (run _ (opBlkDec_fits _ _ _) rfl))
  | strEnc => exact .inr (.inr (run _ (opStrEnc_fits _ _ _) rfl))
  | strDec => exact .inr (.inr (run _ (opStrDec_fits _ _ _) rfl))

/-! ### What the statements' terms give -/

/-- No command reads the latch or the unit state (10_state.md R47, R48). -/
theorem exec_scratch (i : Instr) (s : State) (u : Scratch) : exec i { s with scratch := u } = exec i s := by
  cases i <;> rfl

/-- The clipped window is in range. -/
theorem Window.clip_inRange (w : Window) (c : Config) : (w.clip c).inRange c = true := by
  refine decide_eq_true ?_
  simp only [Window.clip]
  omega

/-- What lies outside a window lies outside its clipped part. -/
theorem Window.outside_clip {w : Window} {c : Config} {a : Nat} (h : OutsideRange w.start w.size a) :
    OutsideRange (w.clip c).start (w.clip c).size a := by
  simp only [OutsideRange, Window.clip] at *
  omega

/-- A window in range is its own clipped part. -/
theorem Window.clip_of_inRange {w : Window} {c : Config} (h : w.inRange c = true) : w.clip c = w := by
  simp only [Window.inRange, decide_eq_true_eq] at h
  simp only [Window.clip, show min w.start c.lmemSize.toNat = w.start by omega,
    show min (w.start + w.size) c.lmemSize.toNat - w.start = w.size by omega]

/-- A soft reset that finds a running command frees the clipped destination window of the command it decodes,
and nothing when nothing decodes. -/
theorem runningWindow_cases (s : State) :
    (∃ i, s.fetchFault = none ∧ decode s.fetched = .ok i ∧ s.runningWindow = some ((dstWindow i (s.operandsOf i)).clip s.cfg)) ∨
    s.runningWindow = none := by
  unfold State.runningWindow
  cases hf : s.fetchFault with
  | some f => exact .inr rfl
  | none =>
    cases hd : decode s.fetched with
    | error r => exact .inr rfl
    | ok i => exact .inl ⟨i, rfl, rfl, rfl⟩

/-- A command whose static checks fail takes that fault and does nothing else. -/
theorem exec_static {i : Instr} {s : State} {f : FaultReport} (h : s.staticFault i = some f) :
    ∃ t, exec i s = .next t ∧ StaticFaultTaken s t f := by
  refine ⟨s.raiseFault f, ?_, staticFaultTaken_raise s f⟩
  cases i <;> first | exact runCommand_static h | skip
  · simp [State.staticFault, opcodeCheck, windowCheck, srcWindow, dstWindow, Window.inRange, Window.overlaps] at h
  · simp [State.staticFault, opcodeCheck, windowCheck, srcWindow, dstWindow, Window.inRange, Window.overlaps] at h

/-- Windows that are in range and apart pass the window checks. -/
theorem windowCheck_of_windowsOk {c : Config} {v w : Window} {o : Operands} (h : WindowsOk c v.start v.size w.start w.size) :
    windowCheck c v w o = none := by
  obtain ⟨h1, h2, h3⟩ := h
  simp only [windowCheck, Window.inRange, Window.overlaps]
  simp [h1, h2]
  intro a b c
  by_contra hh
  exact h3 ⟨a, b, c, by omega⟩

/-- A command that passes the checks of R99 and has good windows has no static fault. -/
theorem staticFault_none {i : Instr} {s : State} (hc : opcodeCheck s.cfg i (s.operandsOf i) = none)
    (hw : WindowsOk s.cfg (srcWindow i (s.operandsOf i)).start (srcWindow i (s.operandsOf i)).size
      (dstWindow i (s.operandsOf i)).start (dstWindow i (s.operandsOf i)).size) : s.staticFault i = none := by
  simp only [State.staticFault, hc, Option.none_or]
  exact windowCheck_of_windowsOk hw

/-- A command whose operation finishes completes with that output. -/
theorem exec_done {i : Instr} {s : State} {op : Operands → Effect} {out : List Byte} {r : Results} {g : Option Dbg} {k : Sticky}
    (he : exec i s = runCommand i s op) (hs : s.staticFault i = none) (ho : op (s.operandsOf i) = .done out r g k) :
    ∃ t, exec i s = .next t ∧ CommandDone s t (dstWindow i (s.operandsOf i)).start out r (g.getD s.dbg) k :=
  ⟨_, he.trans (runCommand_done hs ho), commandDone_finish _ _ _ _ _ _⟩

/-- A command whose operation raises a dynamic fault takes it. -/
theorem exec_fault {i : Instr} {s : State} {op : Operands → Effect} {f : FaultReport} {c : Bool} {k : Sticky}
    (he : exec i s = runCommand i s op) (hs : s.staticFault i = none) (ho : op (s.operandsOf i) = .fault f c k) :
    ∃ t, exec i s = .next t ∧
      DynamicFaultTaken s t f (dstWindow i (s.operandsOf i)).start (dstWindow i (s.operandsOf i)).size c k :=
  ⟨_, he.trans (runCommand_fault hs ho), dynamicFaultTaken_spoil _ _ _ _ _⟩

/-- A fetch fault has a code. -/
theorem fetchFault_code {s : State} {f : FaultReport} (h : s.fetchFault = some f) : f.code ≠ .none := by
  simp only [State.fetchFault] at h
  split at h
  · cases h; simp
  · split at h <;> cases h
    simp

/-- A rejected descriptor's fault has a code. -/
theorem rejectReport_code (r : Reject) : (rejectReport r).code ≠ .none := by cases r <;> simp [rejectReport]

/-- An output no longer than the window keeps LMEM below LMEM_SIZE (10_state.md R45). -/
theorem lmemBounded_writeBytes {s : State} {w : Window} {bs : List Byte} (hw : w.inRange s.cfg = true) (hl : bs.length ≤ w.size)
    (h : s.lmemBounded = true) : (s.lmem.writeBytes w.start bs).cells.all (fun e => decide (e.1 < s.cfg.lmemSize.toNat)) = true := by
  apply Lmem.all_writeBytes _ _ _ _ _ h
  simp [Window.inRange] at hw
  omega

end Sys2Proof.Machine
end

