-- ==== Sys2Proof/Laws/Encoding.lean ====
section
/-! SUPPORT. The fields of W0 and the words of a descriptor read back (30_encoding.md R79, R80): the lemmas about the encoding that a proof cites instead of unfolding it. -/

namespace Sys2Proof.Machine

open Sys2Proof

/-! ### The fields of W0 (R80) -/

theorem opField_eq (w : U32) : opField w = w.toNat % 256 := by
  simp [opField, BitVec.extractLsb'_toNat]

@[simp] theorem opField_w0Of (op : Op) (l p a : Bool) : opField (w0Of op l p a) = op.code := by
  revert l p a; cases op <;> decide +kernel
@[simp] theorem lBit_w0Of (op : Op) (l p a : Bool) : lBit (w0Of op l p a) = l := by
  revert l p a; cases op <;> decide +kernel
@[simp] theorem pBit_w0Of (op : Op) (l p a : Bool) : pBit (w0Of op l p a) = p := by
  revert l p a; cases op <;> decide +kernel
@[simp] theorem aBit_w0Of (op : Op) (l p a : Bool) : aBit (w0Of op l p a) = a := by
  revert l p a; cases op <;> decide +kernel
@[simp] theorem res_w0Of (op : Op) (l p a : Bool) : reservedField (w0Of op l p a) = 0 := by
  revert l p a; cases op <;> decide +kernel
@[simp] theorem ofCode_code (op : Op) : Op.ofCode op.code = some op := by cases op <;> rfl

/-- A first word with no reserved bit set is the one its fields encode to. -/
theorem w0_eq (w : U32) (op : Op) (hop : Op.ofCode (opField w) = some op) (hr : reservedField w = 0) : w = w0Of op (lBit w) (pBit w) (aBit w) := by
  have hc : op.code = opField w := by
    have key : ∀ n : Fin 256, ∀ o, Op.ofCode n.val = some o → o.code = n.val := by
      have : ∀ n : Fin 256, (match Op.ofCode n.val with | some o => decide (o.code = n.val) | none => true) = true := by decide +kernel
      intro n o ho; have := this n; simp [ho] at this; exact this
    have hlt : opField w < 256 := by simp only [opField]; exact BitVec.isLt _
    exact key ⟨_, hlt⟩ op hop
  apply BitVec.eq_of_toNat_eq
  have hr' : w.toNat / 2048 % 2097152 = 0 := by
    have := congrArg BitVec.toNat hr
    simp [reservedField, BitVec.extractLsb'_toNat, Nat.shiftRight_eq_div_pow] at this; omega
  have hw := w.isLt
  simp only [w0Of, hc, opField_eq, lBit, pBit, aBit, BitVec.getLsbD, Nat.testBit_eq_decide_div_mod_eq]
  rcases Nat.mod_two_eq_zero_or_one (w.toNat / 256) with h8 | h8 <;> rcases Nat.mod_two_eq_zero_or_one (w.toNat / 512) with h9 | h9 <;> rcases Nat.mod_two_eq_zero_or_one (w.toNat / 1024) with h10 | h10 <;> simp [h8,h9,h10] <;> omega

/-! ### Little-endian words and the bytes of a descriptor (R79) -/

theorem leNat_lt (bs : List Byte) : leNat bs < 256 ^ bs.length := by
  induction bs with
  | nil => simp [leNat]
  | cons b bs ih => simp [leNat, pow_succ]; have := b.isLt; omega

theorem leNat_leBytes (n v : Nat) : leNat (leBytes n v) = v % 256 ^ n := by
  induction n generalizing v with
  | zero => simp [leBytes, leNat, Nat.mod_one]
  | succ n ih => simp [leBytes, leNat, ih, pow_succ, Nat.mul_comm]; rw [Nat.mod_mul]

theorem leBytes_leNat (bs : List Byte) : leBytes bs.length (leNat bs) = bs := by
  induction bs with
  | nil => rfl
  | cons b bs ih =>
    simp only [leNat, List.length_cons, leBytes]
    have : (b.toNat + 256 * leNat bs) / 256 = leNat bs := by have := b.isLt; omega
    rw [this, ih]
    congr 1
    apply BitVec.eq_of_toNat_eq; simp; have := b.isLt; omega

theorem ofBytes_toBytes (d : Descriptor) : Descriptor.ofBytes d.toBytes = d := by
  cases d
  simp only [Descriptor.ofBytes, Descriptor.toBytes, wordAt, leBytes, List.cons_append, List.nil_append, List.drop, List.take, Nat.reduceMul]
  have h : ∀ w : U32, BitVec.ofNat 32 (leNat [BitVec.ofNat 8 w.toNat, BitVec.ofNat 8 (w.toNat/256), BitVec.ofNat 8 (w.toNat/256/256), BitVec.ofNat 8 (w.toNat/256/256/256)]) = w := by
    intro w
    have := leNat_leBytes 4 w.toNat
    simp only [leBytes] at this
    rw [this]
    apply BitVec.eq_of_toNat_eq; simp; have := w.isLt; omega
  simp only [h]

theorem toBytes_ofBytes (bs : List Byte) (h : bs.length = 32) : (Descriptor.ofBytes bs).toBytes = bs := by
  have hw : ∀ j, j < 8 → leBytes 4 (wordAt bs j).toNat = (bs.drop (4*j)).take 4 := by
    intro j hj
    have hl : ((bs.drop (4*j)).take 4).length = 4 := by simp; omega
    have h1 := leBytes_leNat ((bs.drop (4*j)).take 4)
    have h2 := leNat_lt ((bs.drop (4*j)).take 4)
    rw [hl] at h1 h2
    simp only [wordAt, BitVec.toNat_ofNat]
    rw [Nat.mod_eq_of_lt (by simpa using h2), h1]
  simp only [Descriptor.ofBytes, Descriptor.toBytes]
  rw [hw 0 (by omega), hw 1 (by omega), hw 2 (by omega), hw 3 (by omega), hw 4 (by omega), hw 5 (by omega), hw 6 (by omega), hw 7 (by omega)]
  match bs, h with
  | [b0,b1,b2,b3,b4,b5,b6,b7,b8,b9,b10,b11,b12,b13,b14,b15,b16,b17,b18,b19,b20,b21,b22,b23,b24,b25,b26,b27,b28,b29,b30,b31], _ => rfl

/-- What a decoded descriptor passed, and the command it is. -/
theorem decode_ok {d : Descriptor} {i : Instr} (h : decode d = .ok i) : ∃ op, Op.ofCode (opField d.w0) = some op ∧ offendingWord op d = none ∧ i = buildInstr op d := by
  simp only [decode] at h
  split at h
  · cases h
  · split at h
    · cases h
    · cases h; exact ⟨_, ‹_›, ‹_›, rfl⟩

end Sys2Proof.Machine
end

