-- ==== Sys2Proof/Laws/Host.lean ====
section
/-! SUPPORT. What a step does with the host's next access (log 2; 10_state.md R29 to R44, 20_memory.md R68, R71): every proof about a host access cites these instead of unfolding `step` and `hostStep`. -/

namespace Sys2Proof.Machine

open Sys2Proof

/-- An aligned 32-bit access within the register block is the access of its offset. -/
@[simp] theorem mmioOffset_block (c : Config) {off : Nat} (h : off < 4096) (h4 : off % 4 = 0) :
    mmioOffset c (c.mmioBase + off) 4 = some off := by
  simp [mmioOffset, mmioSize, h, h4]

/-- Every other access has none. -/
theorem mmioOffset_none (c : Config) {addr width : Nat}
    (h : width ≠ 4 ∨ addr < c.mmioBase ∨ c.mmioBase + 4096 ≤ addr ∨ (addr - c.mmioBase) % 4 ≠ 0) : mmioOffset c addr width = none := by
  rw [mmioOffset, if_neg]
  simp only [mmioSize]
  omega

/-- A step with an access at the head of the queue that is no turn makes that access. -/
theorem step_access {s : State} {a : HostAccess} {rest : List HostAccess} (hq : s.hostQueue = a :: rest) (ha : a ≠ .turn) :
    step s = hostStep { s with hostQueue := rest } a := by
  cases a <;> first | exact absurd rfl ha | simp only [step, nextMove, hq]

/-- A step that makes a register write. -/
theorem step_mmioWrite {s : State} {off : Nat} {v : U32} {rest : List HostAccess} (h : off < 4096) (h4 : off % 4 = 0)
    (hq : s.hostQueue = .mmioWrite (s.cfg.mmioBase + off) 4 v :: rest) :
    step s = .next ({ s with hostQueue := rest }.mmioWrite off v) := by
  rw [step_access hq (by simp)]
  simp [hostStep, h, h4]

/-- A step that makes a register read. -/
theorem step_mmioRead {s : State} {off : Nat} {rest : List HostAccess} (h : off < 4096) (h4 : off % 4 = 0)
    (hq : s.hostQueue = .mmioRead (s.cfg.mmioBase + off) 4 :: rest) :
    step s = .next ({ s with hostQueue := rest }.mmioRead off) := by
  rw [step_access hq (by simp)]
  simp [hostStep, h, h4]

/-- What a CTRL write does (R29): a soft reset, an accepted START, or IRQ_EN alone. -/
theorem writeCtrl_cases (s : State) (v : U32) :
    (v.getLsbD 1 = true ∧ s.writeCtrl v = s.softReset) ∨
    (v.getLsbD 1 = false ∧ v.getLsbD 0 = true ∧ s.status.busy = false ∧
      s.writeCtrl v = { s with irqEn := v.getLsbD 2 }.acceptStart) ∨
    (v.getLsbD 1 = false ∧ (v.getLsbD 0 = false ∨ s.status.busy = true) ∧ s.writeCtrl v = { s with irqEn := v.getLsbD 2 }) := by
  unfold State.writeCtrl
  cases h1 : v.getLsbD 1 <;> cases h0 : v.getLsbD 0 <;> cases hb : s.status.busy <;> simp

end Sys2Proof.Machine
end

