-- ==== Sys2Proof/Laws/PerInstr.lean ====
section
/-! SUPPORT. The families of statements made per instruction. TableRow (30_encoding.md R87): the descriptor of every command selects its own row of the opcode map, and the reserved words are 0. -/

namespace Sys2Proof.Laws.TableRow

open Sys2Proof

/-- W0 under the row's mask is the row's match, and W5 = W6 = W7 = 0 (30_encoding.md R79, R87). -/
def Statement (i : Instr) : Prop :=
  (encode i).w0 &&& i.op.rowMask = i.op.rowMatch ∧ (encode i).w5 = 0 ∧ (encode i).w6 = 0 ∧ (encode i).w7 = 0

/-- The flags that a row allows lie outside its mask (30_encoding.md R86, R87). -/
theorem w0Of_selects_row (op : Op) (l p a : Bool) (hl : l = true → op.allowsL = true) (hp : p = true → op.allowsP = true)
    (ha : a = true → op.allowsA = true) : w0Of op l p a &&& op.rowMask = op.rowMatch := by
  cases op <;> revert l p a <;> decide +kernel

theorem nop : Statement .nop := ⟨by decide, rfl, rfl, rfl⟩
theorem halt : Statement .halt := ⟨by decide, rfl, rfl, rfl⟩
theorem bwtFwd (l : Bool) (src dst len : U32) : Statement (.bwtFwd l src dst len) :=
  ⟨w0Of_selects_row .bwtFwd l false false (by simp [Op.allowsL]) (by simp) (by simp), rfl, rfl, rfl⟩
theorem bwtInv (l p : Bool) (src dst len arg : U32) : Statement (.bwtInv l p src dst len arg) :=
  ⟨w0Of_selects_row .bwtInv l p false (by simp [Op.allowsL]) (by simp [Op.allowsP]) (by simp), rfl, rfl, rfl⟩
theorem mtfEnc (l : Bool) (src dst len : U32) : Statement (.mtfEnc l src dst len) :=
  ⟨w0Of_selects_row .mtfEnc l false false (by simp [Op.allowsL]) (by simp) (by simp), rfl, rfl, rfl⟩
theorem mtfDec (l : Bool) (src dst len : U32) : Statement (.mtfDec l src dst len) :=
  ⟨w0Of_selects_row .mtfDec l false false (by simp [Op.allowsL]) (by simp) (by simp), rfl, rfl, rfl⟩
theorem rle0Enc (l a : Bool) (src dst len arg : U32) : Statement (.rle0Enc l a src dst len arg) :=
  ⟨w0Of_selects_row .rle0Enc l false a (by simp [Op.allowsL]) (by simp) (by simp [Op.allowsA]), rfl, rfl, rfl⟩
theorem rle0Dec (l a : Bool) (src dst len arg : U32) : Statement (.rle0Dec l a src dst len arg) :=
  ⟨w0Of_selects_row .rle0Dec l false a (by simp [Op.allowsL]) (by simp) (by simp [Op.allowsA]), rfl, rfl, rfl⟩
theorem cmEnc (l a : Bool) (src dst len arg : U32) : Statement (.cmEnc l a src dst len arg) :=
  ⟨w0Of_selects_row .cmEnc l false a (by simp [Op.allowsL]) (by simp) (by simp [Op.allowsA]), rfl, rfl, rfl⟩
theorem cmDec (l a : Bool) (src dst len arg : U32) : Statement (.cmDec l a src dst len arg) :=
  ⟨w0Of_selects_row .cmDec l false a (by simp [Op.allowsL]) (by simp) (by simp [Op.allowsA]), rfl, rfl, rfl⟩
theorem blkEnc (l a : Bool) (src dst len arg : U32) : Statement (.blkEnc l a src dst len arg) :=
  ⟨w0Of_selects_row .blkEnc l false a (by simp [Op.allowsL]) (by simp) (by simp [Op.allowsA]), rfl, rfl, rfl⟩
theorem blkDec (l a : Bool) (src dst len arg : U32) : Statement (.blkDec l a src dst len arg) :=
  ⟨w0Of_selects_row .blkDec l false a (by simp [Op.allowsL]) (by simp) (by simp [Op.allowsA]), rfl, rfl, rfl⟩
theorem strEnc (l a : Bool) (src dst len arg : U32) : Statement (.strEnc l a src dst len arg) :=
  ⟨w0Of_selects_row .strEnc l false a (by simp [Op.allowsL]) (by simp) (by simp [Op.allowsA]), rfl, rfl, rfl⟩
theorem strDec (l a : Bool) (src dst len arg : U32) : Statement (.strDec l a src dst len arg) :=
  ⟨w0Of_selects_row .strDec l false a (by simp [Op.allowsL]) (by simp) (by simp [Op.allowsA]), rfl, rfl, rfl⟩

end Sys2Proof.Laws.TableRow
end

