-- ==== Sys2Proof/Tests/Slice0.lean ====
section
/-! SUPPORT. Tests of one step or one function each, with the values spec/95_test_vectors.md and the rules' examples give, and one witness for the hypotheses of every obligation that has some. -/

namespace Sys2Proof.Tests

set_option Elab.async false

open Sys2Proof Sys2Proof.Machine

/-! ### Helpers -/

/-- A property of the next state; false of a fault and of a refusal. -/
def leaves (o : Host.Outcome State Fault Refusal) (p : State → Bool) : Bool :=
  match o with
  | .next t => p t
  | .fault _ => false
  | .refused _ => false

/-- A running list over LMEM of 0x1000 bytes with BLOCK_MAX = 0x100 and the given bytes written. -/
def lab (segs : List (Nat × List Byte)) : State :=
  { State.reset with
    cfg := { Config.standard with blockMax := 0x100 }
    status := ⟨true, false, false, false, false, false⟩
    lmem := segs.foldl (fun m e => m.writeBytes e.1 e.2) State.reset.lmem }

/-- A running list with a descriptor at an address and CMD_PTR there. -/
def listAt (p : Nat) (d : Descriptor) : State := { lab [(p, d.toBytes)] with cmdPtr := BitVec.ofNat 32 p }

/-- An idle engine with RES_LEN = 7 and one host access to make. -/
def idleWith (a : HostAccess) : State := { State.reset with resLen := 7, hostQueue := [a] }

/-- The state shows a fault with this code and ERR_INFO (60_exceptions.md R194). -/
def faultIs (c : ErrCode) (info : U32) (t : State) : Bool := t.errCode == c && t.errInfo == info && t.status.err && !t.status.busy

def banana : List Byte := [0x62, 0x61, 0x6E, 0x61, 0x6E, 0x61]
def nnbaaa : List Byte := [0x6E, 0x6E, 0x62, 0x61, 0x61, 0x61]
def ranks : List Byte := [0x6E, 0x00, 0x63, 0x63, 0x00, 0x00]
def rleBanana : List Byte := [0x6E, 0x00, 0x01, 0x63, 0x63, 0x00, 0x02]
def payBanana : List Byte := [0x6D, 0xFD, 0xBC, 0x5B, 0x34, 0xDF, 0xDA, 0xA6, 0xF8, 0x00, 0x00]
def recBanana : List Byte := [0x06, 0, 0, 0, 0x03, 0, 0, 0, 0x07, 0, 0, 0, 0x0B, 0, 0, 0] ++ payBanana
def recA : List Byte := [0x01, 0, 0, 0, 0, 0, 0, 0, 0x01, 0, 0, 0, 0x04, 0, 0, 0, 0x40, 0xFB, 0xD0, 0x15]
def contA : List Byte := [0x01, 0, 0, 0, 0, 0, 0, 0] ++ recA

/-- glibc's exp at the arguments the mixer meets on the "banana" stream (computed outside Lean). -/
def bananaExp : List (F64 × F64) :=
  [(0xBF300010001554F5, 0x3FEFFE000DFFC801), (0xBF30000FFBFC9CA3, 0x3FEFFE000E004B0F), (0xBF30001000151B9C, 0x3FEFFE000DFFC808),
    (0xBF300010042D9A97, 0x3FEFFE000DFF4500), (0xBF3000100014DA13, 0x3FEFFE000DFFC810), (0xBF300010042D590C, 0x3FEFFE000DFF4508),
    (0xBF3000100845CFD4, 0x3FEFFE000DFEC202), (0xBF3000100C5E469D, 0x3FEFFE000DFE3EFB), (0xBF2800180C684905, 0x3FEFFE80077F2785),
    (0x3FE62C830E417A16, 0x3FFFFE401B863121), (0x3FF19454BECEF5FF, 0x4008009F684446ED), (0x3FF6304237283877, 0x401001FF58165CF8),
    (0x3FF9C4C4E8703865, 0x401405A4783F5CFC), (0x3FFCB1F522FD824F, 0x40180A5FFAAADE9F), (0x3FFF2C7CC077F8E0, 0x401C1197242AAB56),
    (0x4000A9115FC8F0E5, 0x40200CC3558FAD51), (0xBFDA01768FD49104, 0x3FE5508FA7B1D15D), (0x3FE055128B409643, 0x3FFAA7A8796A9F67),
    (0x3FF194B60BC5078F, 0x40080131613AA021), (0x3FF8A91B9FB33886, 0x4012AEB002F0797C)] ++
  [(0x3FFE6115FD4E166E, 0x401AB57AB261AE80), (0x4001987A6E1EB81E, 0x40220A46D1A240FC), (0x4003ADA6F7E9E70E, 0x4027679CA3757A04),
    (0x40058386A0DE36BD, 0x402D70BFD7BACB7C), (0x3E4B7AB9A78B8000, 0x3FF00000036F5735), (0x4000A31A95DC2389, 0x402000D0B291D73E),
    (0xBE676A6F8A458C00, 0x3FEFFFFFE895907E), (0xBFF3745B439BBD6E, 0x3FD2F8E352DDABAB), (0xBE7364ED9AD8F000, 0x3FEFFFFFD93624E2),
    (0x3FEB98669E7DA7BD, 0x4002F3284F0FEC73), (0x3FF880BB7CF2CAF0, 0x40127FC65424AE26), (0x3FE56613090CE15E, 0x3FFF3A3D2428E559),
    (0x3F0FF0807EEC46DE, 0x3FF0003FE18082A4), (0x400628B8EA8D5D25, 0x402FE9DF585929B0), (0x3F0FE5D0A6AECEB7, 0x3FF0003FCC207CE2),
    (0xBFF9E8B903EB25F8, 0x3FC9592CBA1F1EA6), (0x3F0FE045151CEFE9, 0x3FF0003FC1092D89), (0x3FF26067E286EE76, 0x40093A8544DE9D18),
    (0x4000510B8A182602, 0x401EBFD1F7E02D00), (0x3FEC7FCCB40CE460, 0x40037E24331C5C57)] ++
  [(0x3F0FD767C130B50B, 0x3FF0003FAF4E3F16), (0x40020BEB2C242A5F, 0x40231612CA76A793), (0x400CFC4CD200308D, 0x4042BA7EB7CA1B28),
    (0x4012780CEA373202, 0x40594DB1A4E379B0), (0x40159C5EB374D326, 0x406BC0323CEAFDD3), (0x4018369C9CD7C4B4, 0x407A9874867AC130),
    (0x401A70C25124D7DA, 0x4087348E04CF94AD), (0x401C62C271D033C9, 0x4092DEAA02E02AC1), (0x3FDCE0EB2D96D88D, 0x3FF91FB31BD54AE8),
    (0x4004E5BF70BBF8A5, 0x402B41EB8D3B16D9), (0x400F3EEAA3647C99, 0x4048D7CB381EE0D9), (0x40135CA84EC22C5B, 0x405FA1F8B3A331B7),
    (0x40164F3615FCC72D, 0x407085F110EB86E7), (0x4018BFD88A7DC86A, 0x407E68E056F1172F), (0x401AD68B4D8D5CF4, 0x4089A1631C319AC1),
    (0x4011F9799F13ADC3, 0x40565C80E3754DB1)]

/-- glibc's log at the arguments the mixer meets on the "banana" stream. -/
def bananaLn : List (F64 × F64) :=
  [(0x3FF0002000400080, 0x3F000010001554F5), (0x3FEFFFC000000000, 0xBF00001000155575), (0x3FDFFFFFFFFFFFFF, 0xBFE62E42FEFA39F0),
    (0x3FD5550000000000, 0xBFF1942A7B2D0460), (0x3FD0000000000000, 0xBFF62E42FEFA39EF), (0x3FC9993D707EF9CC, 0xBFF9C07B9205E074),
    (0x3FC5553C71B25EBF, 0xBFFCAB1EA4EF3C9C), (0x3FC2489249249249, 0xBFFF22F2B0326502), (0x3FBFFF27FFC9FFF3, 0xC000A2E83FFF6F06),
    (0x3FF7FFFFFFFFFFFF, 0x3FD9F323ECBF9849), (0x3FF333170A37CED7, 0x3FC755945579A22F), (0x3FEB6D50FB0F4CAD, 0xBFC3BD1110180B72),
    (0x3FE7FFD5FFF57FFD, 0xBFD269D211B2DC3E), (0x3FE5555555555556, 0xBFD9F323ECBF984A), (0x3FE3330000000000, 0xBFE059045048318E),
    (0x3FE1745D1745D175, 0xBFE36576E9A89D29), (0x3FE999547AEF1A9C, 0xBFCC915162C1A6FF), (0x3FEAAA6638EEF682, 0xBFC757989BDBFE0B),
    (0x3FE6DB5634314266, 0xBFD58904AD77EF4A), (0x3FE3FFBF00103FFC, 0xBFDE155A1B45290E)] ++
  [(0x3FE1C700CA393D6F, 0xBFE2CF57C2323AC9), (0x3FDD16E8BA2E8BA3, 0xBFE93B71552C0196), (0x3FDAAAAAAAAAAAAC, 0xBFEC03D703735F8B),
    (0x3FE45CCFDE400C45, 0xBFDCEE336ECBEAC4), (0x3FE2AA84AAA12AA9, 0xBFE13FB6BBCEA66A), (0x3FE13B00C1D914D4, 0xBFE3CF4E7ABD1607),
    (0x3FDDDDD79BDA4D31, 0xBFE8637A3D42A859), (0x3FDBFFC67FEA6FF8, 0xBFEA746856BBBF68), (0x3FDA5A2A84C8B6F6, 0xBFEC6503C158903B),
    (0x3FDE1E026F893FAB, 0xBFE81F03748700C4), (0x3FD249014E49E398, 0xBFF40B700A5257D1)]

/-- glibc's exp at the arguments the mixer meets on the byte "A". -/
def expA : List (F64 × F64) :=
  [(0xBF30000FF7E3AAF8, 0x3FEFFE000E00CE25), (0xBF30000FF3CAF2A7, 0x3FEFFE000E015134), (0xBF30000FEFB23A53, 0x3FEFFE000E01D443),
    (0xBF30000FEB998201, 0x3FEFFE000E025752), (0xBF30000FFBFC9CA3, 0x3FEFFE000E004B0F), (0xBF30000FFBFC6349, 0x3FEFFE000E004B17),
    (0xBF30001000151B9C, 0x3FEFFE000DFFC808)]

/-- EXP and LN as glibc's at the arguments the "banana" and "A" vectors meet; BLOCK_MAX as given. -/
def glibc (blockMax : U32) : Config := { Config.standard with blockMax := blockMax, expPins := bananaExp ++ expA, lnPins := bananaLn }

/-- `lab` with that configuration. -/
def labG (blockMax : U32) (segs : List (Nat × List Byte)) : State := { lab segs with cfg := glibc blockMax }

/-! ### WellFormed refuses each ill-formed kind of term (30_encoding.md R89 items 6 and 7) -/

theorem test_wf_bwtFwd : Instr.wf (.bwtFwd true 0x100 0x200 6) = false := by decide
theorem test_wf_bwtInv_len : Instr.wf (.bwtInv true false 0x100 0x200 6 0) = false := by decide
theorem test_wf_bwtInv_arg : Instr.wf (.bwtInv false true 0x100 0x200 6 3) = false := by decide
theorem test_wf_mtf : Instr.wf (.mtfEnc true 0 0 1) = false ∧ Instr.wf (.mtfDec true 0 0 1) = false := by decide
theorem test_wf_capacity_len : ((Instr.wf (.rle0Enc true false 0 0 1 0) || Instr.wf (.rle0Dec true false 0 0 1 0) ||
    Instr.wf (.cmEnc true false 0 0 1 0) || Instr.wf (.cmDec true false 0 0 1 0) || Instr.wf (.blkEnc true false 0 0 1 0) ||
    Instr.wf (.blkDec true false 0 0 1 0) || Instr.wf (.strEnc true false 0 0 1 0) || Instr.wf (.strDec true false 0 0 1 0)) = false) := by decide
theorem test_wf_capacity_arg : ((Instr.wf (.rle0Enc false true 0 0 0 1) || Instr.wf (.rle0Dec false true 0 0 0 1) ||
    Instr.wf (.cmEnc false true 0 0 0 1) || Instr.wf (.cmDec false true 0 0 0 1) || Instr.wf (.blkEnc false true 0 0 0 1) ||
    Instr.wf (.blkDec false true 0 0 0 1) || Instr.wf (.strEnc false true 0 0 0 1) || Instr.wf (.strDec false true 0 0 0 1)) = false) := by decide
theorem test_wf_accepts : Instr.wf (.bwtInv true true 0x280 0x290 0 0) = true ∧ Instr.wf (.cmEnc false false 1 2 3 4) = true := by decide

/-! ### Decode: words written out from 30_encoding.md R79, R80, R87 -/

theorem test_decode_nop : decode ⟨0x00000000, 0, 0, 0, 0, 0, 0, 0⟩ = .ok .nop := by decide +kernel
theorem test_decode_halt : decode ⟨0x00000001, 0, 0, 0, 0, 0, 0, 0⟩ = .ok .halt := by decide +kernel
theorem test_decode_bwtFwd : decode ⟨0x00000110, 0x100, 0x200, 0, 0, 0, 0, 0⟩ = .ok (.bwtFwd true 0x100 0x200 0) := by decide +kernel
theorem test_decode_bwtInv : decode ⟨0x00000211, 0x200, 0x300, 6, 0, 0, 0, 0⟩ = .ok (.bwtInv false true 0x200 0x300 6 0) := by decide +kernel
theorem test_decode_mtfEnc : decode ⟨0x00000020, 0x210, 0x220, 6, 0, 0, 0, 0⟩ = .ok (.mtfEnc false 0x210 0x220 6) := by decide +kernel
theorem test_decode_mtfDec : decode ⟨0x00000121, 0x270, 0x280, 0, 0, 0, 0, 0⟩ = .ok (.mtfDec true 0x270 0x280 0) := by decide +kernel
theorem test_decode_rle0Enc : decode ⟨0x00000030, 0x220, 0x230, 6, 12, 0, 0, 0⟩ = .ok (.rle0Enc false false 0x220 0x230 6 12) := by decide +kernel
theorem test_decode_rle0Dec : decode ⟨0x00000531, 0x260, 0x270, 0, 0, 0, 0, 0⟩ = .ok (.rle0Dec true true 0x260 0x270 0 0) := by decide +kernel
theorem test_decode_cmEnc : decode ⟨0x00000140, 0x230, 0x240, 0, 16, 0, 0, 0⟩ = .ok (.cmEnc true false 0x230 0x240 0 16) := by decide +kernel
theorem test_decode_cmDec : decode ⟨0x00000441, 0x240, 0x260, 7, 0, 0, 0, 0⟩ = .ok (.cmDec false true 0x240 0x260 7 0) := by decide +kernel
theorem test_decode_blkEnc : decode ⟨0x00000050, 0x100, 0x200, 6, 64, 0, 0, 0⟩ = .ok (.blkEnc false false 0x100 0x200 6 64) := by decide +kernel
theorem test_decode_blkDec : decode ⟨0x00000451, 0x200, 0x300, 6, 0, 0, 0, 0⟩ = .ok (.blkDec false true 0x200 0x300 6 0) := by decide +kernel
theorem test_decode_strEnc : decode ⟨0x00000560, 0x100, 0x200, 0, 0, 0, 0, 0⟩ = .ok (.strEnc true true 0x100 0x200 0 0) := by decide +kernel
theorem test_decode_strDec : decode ⟨0x00000461, 0x200, 0x300, 16, 0, 0, 0, 0⟩ = .ok (.strDec false true 0x200 0x300 16 0) := by decide +kernel
/-- The host's numbering: the first byte is the least significant. -/
theorem test_decode_tableWord : decodeTableWord 40 0x0500000010 = some (.bwtFwd false 5 0 0) := by decide +kernel

/-- 95_test_vectors.md section 12: what the decoder rejects, and at which word. -/
theorem test_decode_rejects :
    decode ⟨0x00000012, 0, 0, 0, 0, 0, 0, 0⟩ = .error (.illegalOp 0x12) ∧
    decode ⟨0xFFFFFFFF, 1, 1, 1, 1, 1, 1, 1⟩ = .error (.illegalOp 0xFFFFFFFF) ∧
    decode ⟨0x00000810, 0x100, 0x200, 6, 0, 0, 0, 0⟩ = .error (.reservedNz 0) ∧
    decode ⟨0x00000220, 0x100, 0x200, 6, 0, 0, 0, 0⟩ = .error (.reservedNz 0) ∧
    decode ⟨0x00000001, 0, 0, 1, 0, 0, 0, 0⟩ = .error (.reservedNz 3) ∧
    decode ⟨0x00000010, 0x100, 0x200, 6, 1, 0, 0, 1⟩ = .error (.reservedNz 4) ∧
    decode ⟨0x00000110, 0x100, 0x200, 6, 0, 0, 0, 0⟩ = .error (.reservedNz 3) ∧
    decode ⟨0x00000440, 0x100, 0x200, 6, 5, 0, 0, 0⟩ = .error (.reservedNz 4) := by decide +kernel

/-! ### Assembly (30_encoding.md R92 to R94; 95_test_vectors.md program P1) -/

theorem test_assemble_p1 : assemble
    [.org 0, .command .bwtFwd [] (.num 0x200) (.num 0x100) (.num 6) none,
     .command .bwtInv ['P'] (.num 0x300) (.num 0x200) (.num 6) none, .plain .halt, .org 0x100,
     .ascii ['b', 'a', 'n', 'a', 'n', 'a']] =
    some [(0x000, [0x10, 0, 0, 0, 0x00, 0x01, 0, 0, 0x00, 0x02, 0, 0, 0x06, 0, 0, 0, 0, 0, 0, 0, 0, 0, 0, 0, 0, 0, 0, 0, 0, 0, 0, 0]),
      (0x020, [0x11, 0x02, 0, 0, 0x00, 0x02, 0, 0, 0x00, 0x03, 0, 0, 0x06, 0, 0, 0, 0, 0, 0, 0, 0, 0, 0, 0, 0, 0, 0, 0, 0, 0, 0, 0]),
      (0x040, [0x01, 0, 0, 0, 0, 0, 0, 0, 0, 0, 0, 0, 0, 0, 0, 0, 0, 0, 0, 0, 0, 0, 0, 0, 0, 0, 0, 0, 0, 0, 0, 0]),
      (0x100, banana)] := by decide +kernel

/-- A label defined twice and a character that is not ASCII are errors (log 23), a label stands for its address. -/
theorem test_assemble_labels : assemble [.label "a", .plain .halt, .label "a"] = none ∧ assemble [.ascii ['b', Char.ofNat 0x100]] = none ∧
    assemble [.org 0x40, .label "a", .word [.label "a"]] = some [(0x40, [0x40, 0, 0, 0])] := by decide +kernel

/-- P2's first four commands are the expansion of its PIPE_ENC. -/
theorem test_pipeEnc_p2 : pipeEnc 0x240 0x200 6 16 0x210 0x220 0x230 =
    some [.bwtFwd false 0x200 0x210 6, .mtfEnc false 0x210 0x220 6, .rle0Enc false false 0x220 0x230 6 12,
      .cmEnc true false 0x230 0x240 0 16] := by decide +kernel

/-! ### The transforms (95_test_vectors.md sections 2 to 4) -/

theorem test_bwt_banana : bwtForward banana = (nnbaaa, 3) := by decide +kernel
/-- "abab": equal rotations are ordered by start index. -/
theorem test_bwt_periodic : bwtForward [0x61, 0x62, 0x61, 0x62] = ([0x62, 0x62, 0x61, 0x61], 0) := by decide +kernel
theorem test_bwt_inverse : nextArray nnbaaa = [3, 4, 5, 2, 0, 1] ∧ bwtInverse nnbaaa 3 = banana := by decide +kernel
/-- "abc" with primary 0 comes from no block. -/
theorem test_bwt_inverse_cycle : bwtInverse [0x61, 0x62, 0x63] 0 = [0x61, 0x61, 0x61] := by decide +kernel
theorem test_mtf_encode : mtfEncode nnbaaa = ranks ∧ mtfEncode [0xFF, 0xFE] = [0xFF, 0xFF] := by decide +kernel
theorem test_mtf_decode : mtfDecode [0xFF, 0xFF] = [0xFF, 0xFE] ∧ mtfDecode [1, 1, 1] = [1, 0, 1] := by decide +kernel
theorem test_rle_encode : rleEncode ranks = rleBanana ∧ rleEncode (List.replicate 511 0) = [0, 0xFF, 0, 0xFF, 0, 1] := by decide +kernel
theorem test_rle_decode : rleDecode [5, 0] = ([5, 0], true) ∧ rleDecode [0, 0] = ([], false) ∧
    rleDecode [0, 0, 0, 1] = ([0], false) := by decide +kernel

/-! ### The predictors (95_test_vectors.md sections 5 and 6) -/

/-- A byte through a match model as the ensemble feeds it. -/
def matchByte (m : MatchModel) (b : Byte) : MatchModel :=
  (m.updateBit.updateBit.updateBit.updateBit.updateBit.updateBit.updateBit.updateBit).updateByte b

/-- bufPos, matchPos, matchLen and the prediction. -/
def matchRow (m : MatchModel) : Nat × Nat × Nat × U16 := (m.bufPos, m.matchPos, m.matchLen, m.predict)

theorem test_countPredict : countPredict (3, 5) = 39321 ∧ countPredict (100, 0) = 642 ∧ countPredict (0, 100) = 64892 := by decide +kernel
/-- Order 2: the warm-up bucket of key 5 is shared with the full history 00 05. -/
theorem test_byteCtx_warmup :
    let m := ((bitsOf 6).foldl (ByteCtx.updateBit .partialKey) ((ByteCtx.init 2).updateByte 5))
    bucket m.tab 5 = (6, 2) ∧ ((m.updateByte 0).updateByte 5).predict = 19660 := by decide +kernel
theorem test_byteCtx_skip : ByteCtx.updateBit .skip (ByteCtx.init 1) true = ByteCtx.init 1 := by decide +kernel
theorem test_bitCtx : ((List.replicate 24 false).foldl (BitCtx.updateBit .partialKey) BitCtx.init).predict = 2520 ∧
    ((List.replicate 23 true).foldl (BitCtx.updateBit .partialKey) BitCtx.init).predict = 32768 ∧
    ((List.replicate 24 true).foldl (BitCtx.updateBit .partialKey) BitCtx.init).predict = 32767 := by decide +kernel
/-- Five bytes "a" into the order-4 match model. -/
theorem test_match_repeat :
    let m := [0x61, 0x61, 0x61, 0x61, 0x61].foldl MatchModel.updateByte (MatchModel.init 4)
    (m.bufPos, m.matchPos, m.matchLen, m.predict) = (5, 3, 1, 32512) := by decide +kernel
/-- The wrap of bufPos: from the row 2^20 - 1 of section 6.4, one more "a" leaves the advanced match, and the
next one finds it invalidated. The buffer lists the one byte the prediction reads. -/
theorem test_match_wrap :
    matchRow ⟨4, [(1048574, 0x61)], 1048575, [], 1048573, 1, 0⟩ = (1048575, 1048573, 1, 32512) ∧
    matchRow (matchByte ⟨4, [(1048574, 0x61)], 1048575, [], 1048573, 1, 0⟩ 0x61) = (0, 1048573, 2, 31744) ∧
    (let r := matchRow (matchByte (matchByte ⟨4, [(1048574, 0x61)], 1048575, [], 1048573, 1, 0⟩ 0x61) 0x61); (r.1, r.2.2) = (1, 0, 32768)) := by
  decide +kernel
theorem test_lzp :
    let f (x : List Byte) := (x.foldl LzpModel.updateByte LzpModel.init)
    ((f [0, 3, 0x80]).predict, (f [0, 2]).predict, (f [0, 1]).predict, (f [0x80, 0x80, 0x80, 1]).nxtAt 0x8080) =
      (49152, 16384, 32768, some 2) := by decide +kernel
/-- Section 6.3, byte 8 of "abcdabcdab", at its first bit and, after a 0 bit, its second. -/
theorem test_ensemble_trace :
    let byte (e : Ensemble) (b : Byte) := ((bitsOf b).foldl (Ensemble.updateBit .partialKey) e).updateByte b
    let e := [0x61, 0x62, 0x63, 0x64, 0x61, 0x62, 0x63, 0x64].foldl byte Ensemble.init
    e.predict = ⟨26214, 26214, 26214, 26214, 21845, 32512, 32768, 32768⟩ ∧
    (e.updateBit .partialKey false).predict = ⟨23830, 23830, 23830, 23830, 43690, 33024, 32768, 32768⟩ := by decide +kernel

/-! ### Binary64 and the mixer (45_mixer.md R156, R161; 95_test_vectors.md section 7) -/

/-- The values R156 gives: Clamp(0.0) = 1e-4, HI, and fsub(1.0, HI) = 9.999999999998899e-05. -/
theorem test_float_clamp : fClamp fZero = f1em4 ∧ fClamp fOne = 0x3FEFFF2E48E8A71E ∧ fsub fOne fHI = 0x3F1A36E2EB1C4000 := by decide +kernel
/-- 0.1 + 0.2, 1/3 and a tie to even (2^53 + 1), by hand from IEEE 754. -/
theorem test_float_rounding : fadd 0x3FB999999999999A 0x3FC999999999999A = 0x3FD3333333333334 ∧
    fdiv fOne 0x4008000000000000 = 0x3FD5555555555555 ∧ fadd 0x4340000000000000 fOne = 0x4340000000000000 := by decide +kernel
/-- Overflow to infinity, the smallest subnormal halved (a tie to even zero), and 1.0 over infinity. -/
theorem test_float_edges : fmul 0x7FEFFFFFFFFFFFFF 0x4000000000000000 = 0x7FF0000000000000 ∧
    fmul 1 0x3FE0000000000000 = 0 ∧ fdiv fOne 0x7FF0000000000000 = 0 := by decide +kernel
theorem test_round_half_away : roundHalfAway 0x3FE0000000000000 = 1 ∧ roundHalfAway 0x4004000000000000 = 3 ∧ roundHalfAway 0 = 0 := by decide +kernel
/-- [32768] x 8 gives 32771, and MixUpdate with bit 0 gives 0x1.ffffff7ce978dp-1 in every weight. -/
theorem test_mix_initial :
    let env := mathOf (glibc 0x100)
    mix env (Eight.all weightOne) (Eight.all 32768) = 32771 ∧
    mixUpdate env (Eight.all weightOne) false 32771 (Eight.all 32768) = Eight.all 0x3FEFFFFFF7CE978D := by decide +kernel
/-- [21845, 32768 x 7] gives 21848; eight predictions of 65535 and of 0 give the ends (glibc's values pinned). -/
theorem test_mix_ends :
    let ln : List (F64 × F64) := [(0x3FDFFFFFFFFFFFFF, 0xBFE62E42FEFA39F0), (0x3FF0002000400080, 0x3F000010001554F5),
      (0x3F1A378EBBF957E5, 0xC0226BA4A018EBAE), (0x40C387800000025D, 0x40226BA4A018EBEC)]
    let ex : List (F64 × F64) := [(0x3FE62C82FD3A379D, 0x3FFFFE400A7FDD03), (0x40526BA4A018EBAF, 0x4693B4AC17D9D4A8),
      (0xC0526BA4A018EBEC, 0x3949FB7593A81307)]
    let env := mathOf { Config.standard with expPins := ex, lnPins := ln }
    mix env (Eight.all weightOne) ⟨21845, 32768, 32768, 32768, 32768, 32768, 32768, 32768⟩ = 21848 ∧
    mix env (Eight.all weightOne) (Eight.all 65535) = 65535 ∧ mix env (Eight.all weightOne) (Eight.all 0) = 0 := by decide +kernel

/-! ### The range coder alone (46_range_coder.md R172, R179; 95_test_vectors.md section 8) -/

/-- The coder over bits with given probabilities, and whether a step inverted the interval. -/
def codeBits (x : List (Bool × U16)) : Coder × Bool :=
  x.foldl (fun s e => let r := encodeBit s.1 e.1 e.2; (r.1, s.2 || r.2)) (Coder.init, false)

/-- The bits a decoder reads under given probabilities, and its byte reads. -/
def readBits (pay : List Byte) (ps : List U16) : List Bool × Nat :=
  let r := ps.foldl (fun s p => let d := decodeBit pay s.1 p; (d.2.1, s.2 ++ [d.1])) (decoderInit pay, [])
  (r.2, r.1.rd)

theorem test_coder_byte : encFinish (codeBits ((bitsOf 0xB2).map fun b => (b, 32768))).1 = [0xB1, 0xFE, 0xBC, 0x02] := by decide +kernel
theorem test_coder_unlikely : encFinish (codeBits (List.replicate 8 (true, 0))).1 = List.replicate 16 0xFF ++ [0, 8, 0, 0] := by decide +kernel
theorem test_coder_inverts :
    let r := codeBits [(false, 65534), (true, 1), (true, 1)]
    r.2 = true ∧ r.1.low = 0x01000000 ∧ r.1.high = 0x00FFFFFF ∧ encFinish r.1 = [0, 1, 0, 1, 0, 0, 0] := by decide +kernel
theorem test_decoder : readBits [0xB1, 0xFE, 0xBC, 0x02] (List.replicate 8 32768) = (bitsOf 0xB2, 4) ∧
    readBits (List.replicate 16 0xFF ++ [0, 8, 0, 0]) (List.replicate 8 0) = (List.replicate 8 true, 20) ∧
    (readBits [0, 1, 0, 1, 0, 0, 0] [65534, 1, 1]).1 = [true, false, false] := by decide +kernel

/-! ### Commands (95_test_vectors.md sections 2 to 4, 9 to 12) -/

theorem test_nop : leaves (exec .nop (lab [])) (fun t => t.cmdPtr == 0x20 && t.cmdCount == 1 && t.status.busy) = true := by decide +kernel
theorem test_halt : leaves (exec .halt { lab [] with cmdPtr := 0x40 })
    (fun t => t.cmdPtr == 0x60 && t.cmdCount == 1 && t.status.word == 2) = true := by decide +kernel
theorem test_bwtFwd : leaves (exec (.bwtFwd false 0x100 0x200 6) (lab [(0x100, banana)]))
    (fun t => t.lmem.bytes 0x200 6 == nnbaaa && t.resLen == 6 && t.resPrimary == 3 && t.cmdPtr == 0x20) = true := by decide +kernel
theorem test_bwtFwd_at_end : leaves (exec (.bwtFwd false 0xFF8 0x200 8) (lab [(0xFF8, banana ++ [0x21, 0x21])]))
    (fun t => t.lmem.bytes 0x200 8 == [0x61, 0x21, 0x6E, 0x6E, 0x62, 0x21, 0x61, 0x61] && t.resPrimary == 5) = true := by decide +kernel
theorem test_bwtInv_flagP : leaves (exec (.bwtInv false true 0x200 0x300 6 0) { lab [(0x200, nnbaaa)] with resPrimary := 3 })
    (fun t => t.lmem.bytes 0x300 6 == banana && t.resLen == 6 && t.resPrimary == 3) = true := by decide +kernel
theorem test_bwtInv_primary_range : leaves (exec (.bwtInv false false 0x100 0x200 6 6) (lab [])) (faultIs .primaryRange 6) = true := by decide +kernel
theorem test_mtfEnc : leaves (exec (.mtfEnc true 0x210 0x220 0) { lab [(0x210, nnbaaa)] with resLen := 6 })
    (fun t => t.lmem.bytes 0x220 6 == ranks && t.resLen == 6) = true := by decide +kernel
theorem test_mtfEnc_overlap : leaves (exec (.mtfEnc false 0x100 0x102 4) (lab [])) (faultIs .overlap 0x102) = true := by decide +kernel
theorem test_mtfDec : leaves (exec (.mtfDec false 0x210 0x220 6) (lab [(0x210, ranks)]))
    (fun t => t.lmem.bytes 0x220 6 == nnbaaa && t.resLen == 6) = true := by decide +kernel
theorem test_mtfDec_empty_at_end : leaves (exec (.mtfDec false 0x1000 0x1000 0) (lab [])) (fun t => t.resLen == 0 && t.cmdCount == 1) = true := by decide +kernel
theorem test_rle0Enc : leaves (exec (.rle0Enc false false 0x220 0x230 6 12) (lab [(0x220, ranks)]))
    (fun t => t.lmem.bytes 0x230 7 == rleBanana && t.resLen == 7) = true := by decide +kernel
theorem test_rle0Enc_overflow : leaves (exec (.rle0Enc false false 0x100 0x200 6 6) (lab [(0x100, ranks)])) (faultIs .outOverflow 6) = true := by decide +kernel
theorem test_rle0Dec_trail : leaves (exec (.rle0Dec false false 0x100 0x180 2 8) (lab [(0x100, [5, 0])]))
    (fun t => t.lmem.bytes 0x180 2 == [5, 0] && t.resLen == 2 && t.status.word == 0x101) = true := by decide +kernel
theorem test_rle0Dec_trail_then_fault : leaves (exec (.rle0Dec false false 0x100 0x200 3 1) (lab [(0x100, [5, 5, 0])]))
    (fun t => faultIs .outOverflow 1 t && t.status.word == 0x104) = true := by decide +kernel
theorem test_cmEnc : leaves (exec (.cmEnc true false 0x230 0x240 0 16) { labG 0x100 [(0x230, rleBanana)] with resLen := 7 })
    (fun t => t.lmem.bytes 0x240 11 == payBanana && t.resLen == 11 && t.dbg.low == 0xA6F80000 && t.dbg.high == 0xEBD583BE &&
      t.dbg.follow == 0 && t.dbg.code == 0 && t.dbg.nbits == 56 && !t.status.coderInv) = true := by decide +kernel
theorem test_cmEnc_empty_overflow : leaves (exec (.cmEnc false false 0x100 0x200 0 3) (lab [])) (faultIs .outOverflow 3) = true := by decide +kernel
theorem test_cmDec : leaves (exec (.cmDec false true 0x240 0x260 7 0) { labG 0x100 [(0x240, payBanana)] with resLen := 11 })
    (fun t => t.lmem.bytes 0x260 7 == rleBanana && t.resLen == 7 && t.resAux == 11 && t.dbg.code == 0xA6F80000 && t.dbg.pmix == 0x2D5 &&
      t.dbg.wHi == ⟨0x3FEFEB7E, 0x3FEFD4B2, 0x3FEFD9D4, 0x3FEFE563, 0x3FEFFFFF, 0x3FF00000, 0x3FF00000, 0x3FF00000⟩ &&
      t.dbg.wLo == ⟨0x12F2E7D4, 0xCFB23A40, 0xA31E3BCF, 0xF948EEEA, 0xCB2FB720, 0x00268777, 0x00268777, 0x00268777⟩) = true := by decide +kernel
theorem test_cmDec_empty : leaves (exec (.cmDec false false 0x100 0x200 0 0) (lab [])) (fun t => t.resLen == 0 && t.resAux == 4) = true := by decide +kernel
theorem test_blkEnc : leaves (exec (.blkEnc false false 0x100 0x200 1 20) (labG 0x100 [(0x100, [0x41])]))
    (fun t => t.lmem.bytes 0x200 20 == recA && t.resLen == 20 && t.resPrimary == 0 && t.resAux == 1) = true := by decide +kernel
theorem test_blkEnc_overflow : leaves (exec (.blkEnc false false 0x100 0x200 1 19) (labG 0x100 [(0x100, [0x41])])) (faultIs .outOverflow 19) = true := by decide +kernel
theorem test_blkDec : leaves (exec (.blkDec false true 0x200 0x300 6 0) { labG 0x100 [(0x200, recA)] with resLen := 20, resPrimary := 5 })
    (fun t => t.lmem.bytes 0x300 1 == [0x41] && t.resLen == 1 && t.resPrimary == 0 && t.resAux == 20) = true := by decide +kernel
/-- rleCount changed to 6: RLE_TRAIL is set, then LEN_MISMATCH. -/
theorem test_blkDec_trail : leaves (exec (.blkDec false false 0x200 0x300 6 27) (labG 0x100 [(0x200, recBanana), (0x208, [6])]))
    (fun t => faultIs .lenMismatch 0x200 t && t.status.word == 0x104) = true := by decide +kernel
/-- BLOCK_MAX = 1 cuts "AA" into two blocks, whose records are equal (47_block_driver.md R187). -/
theorem test_strEnc : leaves (exec (.strEnc false false 0x100 0x200 2 64) (labG 1 [(0x100, [0x41, 0x41])]))
    (fun t => t.lmem.bytes 0x200 48 == [2, 0, 0, 0, 0, 0, 0, 0] ++ recA ++ recA && t.resLen == 48 && t.resAux == 2) = true := by decide +kernel
theorem test_strEnc_empty : leaves (exec (.strEnc false false 0x200 0x300 0 8) (lab []))
    (fun t => t.lmem.bytes 0x300 8 == List.replicate 8 0 && t.resLen == 8 && t.resAux == 0 && t.dbg == Dbg.reset) = true := by decide +kernel
theorem test_strDec : leaves (exec (.strDec false true 0x200 0x300 16 0)
    { labG 6 [(0x200, [2, 0, 0, 0, 0, 0, 0, 0] ++ recA ++ recA)] with resLen := 48 })
    (fun t => t.lmem.bytes 0x300 2 == [0x41, 0x41] && t.resLen == 2 && t.resAux == 2 && t.status.word == 1 &&
      t.dbg.low == 0x40FBD015 && t.dbg.high == 0x41FBB015 && t.dbg.code == 0x40FBD015 && t.dbg.pmix == 0x8003 && t.dbg.nbits == 8) = true := by decide +kernel
/-- A stray byte after the last record starts a record: TRUNCATED at 0x21C. -/
theorem test_strDec_stray : leaves (exec (.strDec false false 0x200 0x300 6 29) (labG 0x100 [(0x200, contA ++ [0])])) (faultIs .truncated 0x21C) = true := by decide +kernel

/-! ### The sequencer and the host (95_test_vectors.md sections 12 and 13) -/

theorem test_fetch_align : leaves (step { lab [] with cmdPtr := 2 }) (faultIs .cmdAlign 2) = true := by decide +kernel
theorem test_fetch_range : leaves (step { lab [] with cmdPtr := 0xFFFFFFFC }) (faultIs .cmdRange 0xFFFFFFFC) = true := by decide +kernel
theorem test_step_reserved : leaves (step (listAt 0x20 ⟨0x00000810, 0x100, 0x200, 6, 0, 0, 0, 0⟩))
    (fun t => faultIs .reservedNz 0 t && t.errPtr == 0x20 && t.cmdPtr == 0x20 && t.cmdCount == 0) = true := by decide +kernel
theorem test_step_last_descriptor : leaves (step (listAt 0xFE0 ⟨1, 0, 0, 0, 0, 0, 0, 0⟩))
    (fun t => t.cmdPtr == 0x1000 && t.cmdCount == 1 && t.status.word == 2) = true := by decide +kernel
/-- A command whose destination holds a later descriptor changes what is fetched next (70_reset_and_hazards.md
R217): MTF_ENC writes the word 1 over a descriptor of zeros. -/
theorem test_self_modifying : leaves (exec (.mtfEnc false 0x100 0x20 1) (lab [(0x20, List.replicate 32 0), (0x100, [1])]))
    (fun t => t.fetched == ⟨1, 0, 0, 0, 0, 0, 0, 0⟩) = true := by decide +kernel
theorem test_ctrl_start : leaves (step (idleWith (.mmioWrite 4 4 5)))
    (fun t => t.status.word == 1 && t.ctrlWord == 4 && t.resLen == 7 && !t.irq) = true := by decide +kernel
/-- A CTRL write of 0 masks the interrupt without clearing DONE (60_exceptions.md R201). -/
theorem test_ctrl_mask : leaves (step { idleWith (.mmioWrite 4 4 0) with irqEn := true, status := ⟨false, true, false, false, false, false⟩ })
    (fun t => !t.irq && t.status.word == 2 && t.resLen == 7) = true := by decide +kernel
/-- A power-on takes a new seed (log 3). -/
theorem test_powerOn_seed : leaves (step (idleWith .powerOnReset)) (fun t => t.lmem != State.reset.lmem && t.lmem.cells == []) = true := by decide +kernel
theorem test_ctrl_srst_wins : leaves (step (idleWith (.mmioWrite 4 4 3))) (fun t => t.status.word == 0 && t.resLen == 0 && t.ctrlWord == 0) = true := by decide +kernel
/-- 70_reset_and_hazards.md R212 over an MTF_ENC whose windows overlap, over one whose window runs past LMEM, and over NOP. -/
theorem test_srst_window : (listAt 0x20 ⟨0x20, 0x100, 0x102, 4, 0, 0, 0, 0⟩).runningWindow = some ⟨0x102, 4⟩ ∧
    (listAt 0x20 ⟨0x20, 0x100, 0xFFE, 4, 0, 0, 0, 0⟩).runningWindow = some ⟨0xFFE, 2⟩ ∧
    (listAt 0x20 ⟨0, 0, 0, 0, 0, 0, 0, 0⟩).runningWindow = some ⟨0, 0⟩ := by decide +kernel
theorem test_status_w1c : leaves (step { idleWith (.mmioWrite 8 4 0x702) with status := ⟨false, true, false, true, true, true⟩ })
    (fun t => t.status.word == 0) = true := by decide +kernel
theorem test_busy_writes : leaves (step { lab [] with hostQueue := [.mmioWrite 0xC 4 0x40] }) (fun t => t.cmdPtr == 0) = true ∧
    leaves (step { lab [] with hostQueue := [.mmioWrite 4 4 5] }) (fun t => t.irqEn && t.status.word == 1) = true := by decide +kernel
theorem test_host_stops : step { lab [] with hostQueue := [.lmemRead 0 1] } = .refused .lmemWhileBusy ∧
    step (idleWith (.lmemWrite 0xFFF [1, 2])) = .fault .hostLmemRange ∧ step (idleWith (.mmioRead 2 4)) = .refused .mmioAccess := ⟨rfl, rfl, rfl⟩
/-- 10_state.md R27: every offset of the register block after reset, with the parameters of State.reset. -/
theorem test_register_map : ((List.range 1024).all fun k =>
    let off := 4 * k
    State.reset.register off == (if off = 0 then 0x5A420007 else if off = 0x02C ∨ off = 0x030 then 0x1000 else if off = 0x044 then 0xFFFFFFFF
      else if 0x080 ≤ off ∧ off < 0x0C0 ∧ off % 8 = 4 then 0x3FF00000 else 0)) = true := by decide +kernel
/-- 60_exceptions.md R193: the numbers of the codes. -/
theorem test_error_codes : [ErrCode.none, .illegalOp, .reservedNz, .cmdAlign, .cmdRange, .srcRange, .dstRange, .overlap, .lenZero, .lenLimit,
    .primaryRange, .outOverflow, .truncated, .lenMismatch].map ErrCode.num = [0, 1, 2, 3, 4, 5, 6, 7, 8, 9, 10, 11, 12, 13] := by decide +kernel
theorem test_withFetchWord : leaves (step (State.reset.withFetchWord 32 1)) (fun t => t.status.word == 2 && t.cmdPtr == 0x20) = true := by decide +kernel

/-! ### Witnesses: states and operands that meet the hypotheses of the obligations, at the ends of their ranges -/

/-- `leaves` gives the next state it looked at. -/
theorem leaves_next {o : Host.Outcome State Fault Refusal} {p : State → Bool} (h : leaves o p = true) : ∃ t, o = .next t ∧ p t = true := by
  cases o with
  | next t => exact ⟨t, rfl, h⟩
  | fault f => cases h
  | refused r => cases h

/-- The state runs, the host waits, and the fetch of this descriptor is in range. -/
def fetches (s : State) (d : Descriptor) : Bool := s.status.busy && s.hostQueue == [] && s.fetchFault == none && s.fetched == d

/-- `WindowsOk` as a Bool. -/
def windowsOkB (src n dst m : Nat) : Bool :=
  decide (src + n ≤ 0x1000) && decide (dst + m ≤ 0x1000) && !(decide (0 < n) && decide (0 < m) && decide (src < dst + m) && decide (dst < src + n))

theorem windowsOk_of {c : Config} {src n dst m : Nat} (h : windowsOkB src n dst m = true) (hc : c.lmemSize = 0x1000) : WindowsOk c src n dst m := by
  simp [windowsOkB] at h
  refine ⟨by rw [hc]; exact h.1.1, by rw [hc]; exact h.1.2, ?_⟩
  intro ⟨h1, h2, h3, h4⟩
  omega

theorem witness_DecodeInvertsEncode :
    (Instr.wf .nop && Instr.wf (.bwtInv true true 0xFFFFFFFF 0xFFFFFFFF 0 0) && Instr.wf (.bwtInv false false 0 0 0xFFFFFFFF 0xFFFFFFFF) &&
      Instr.wf (.strDec false true 0 0xFFFFFFFF 0xFFFFFFFF 0)) = true := by decide +kernel
theorem witness_EncodeInvertsDecode : decodeBytes (List.replicate 32 0) = .ok .nop ∧
    decodeBytes ([0x61, 5, 0, 0] ++ List.replicate 8 0xFF ++ List.replicate 20 0) = .ok (.strDec true true 0xFFFFFFFF 0xFFFFFFFF 0 0) := by decide +kernel
/-- Each end of each illegal range, and the legal values beside them. -/
theorem witness_IllegalOpFaults :
    ([0x02, 0x0F, 0x12, 0x1F, 0x22, 0x2F, 0x32, 0x3F, 0x42, 0x4F, 0x52, 0x5F, 0x62, 0xFF, 0x00, 0x01, 0x10, 0x11, 0x20, 0x21, 0x30,
      0x31, 0x40, 0x41, 0x50, 0x51, 0x60, 0x61, 0xFFFFFFFF].all fun w =>
      fetches (listAt 0x20 ⟨BitVec.ofNat 32 w, 0, 0, 0, 0, 0, 0, 0⟩) ⟨BitVec.ofNat 32 w, 0, 0, 0, 0, 0, 0, 0⟩) = true := by decide +kernel
/-- Each word of NOP as the lowest that offends, with every later word nonzero. -/
theorem witness_ReservedWordFaults :
    (∀ d ∈ [(⟨0x800, 1, 1, 1, 1, 1, 1, 1⟩ : Descriptor), ⟨0, 1, 1, 1, 1, 1, 1, 1⟩, ⟨0, 0, 1, 1, 1, 1, 1, 1⟩, ⟨0, 0, 0, 1, 1, 1, 1, 1⟩, ⟨0, 0, 0, 0, 1, 1, 1, 1⟩,
      ⟨0, 0, 0, 0, 0, 1, 1, 1⟩, ⟨0, 0, 0, 0, 0, 0, 1, 1⟩, ⟨0, 0, 0, 0, 0, 0, 0, 1⟩, ⟨0, 0, 0, 0, 0, 0, 0, 0⟩], fetches (listAt 0x20 d) d = true) ∧
    Op.ofCode 0 = some .nop ∧ Offends .nop ⟨0x800, 1, 1, 1, 1, 1, 1, 1⟩ 0 ∧
    (Offends .nop ⟨0, 1, 1, 1, 1, 1, 1, 1⟩ 1 ∧ ∀ k, k < 1 → ¬ Offends .nop ⟨0, 1, 1, 1, 1, 1, 1, 1⟩ k) ∧
    (Offends .nop ⟨0, 0, 1, 1, 1, 1, 1, 1⟩ 2 ∧ ∀ k, k < 2 → ¬ Offends .nop ⟨0, 0, 1, 1, 1, 1, 1, 1⟩ k) ∧
    (Offends .nop ⟨0, 0, 0, 1, 1, 1, 1, 1⟩ 3 ∧ ∀ k, k < 3 → ¬ Offends .nop ⟨0, 0, 0, 1, 1, 1, 1, 1⟩ k) ∧
    (Offends .nop ⟨0, 0, 0, 0, 1, 1, 1, 1⟩ 4 ∧ ∀ k, k < 4 → ¬ Offends .nop ⟨0, 0, 0, 0, 1, 1, 1, 1⟩ k) ∧
    (Offends .nop ⟨0, 0, 0, 0, 0, 1, 1, 1⟩ 5 ∧ ∀ k, k < 5 → ¬ Offends .nop ⟨0, 0, 0, 0, 0, 1, 1, 1⟩ k) ∧
    (Offends .nop ⟨0, 0, 0, 0, 0, 0, 1, 1⟩ 6 ∧ ∀ k, k < 6 → ¬ Offends .nop ⟨0, 0, 0, 0, 0, 0, 1, 1⟩ k) ∧
    (Offends .nop ⟨0, 0, 0, 0, 0, 0, 0, 1⟩ 7 ∧ ∀ k, k < 7 → ¬ Offends .nop ⟨0, 0, 0, 0, 0, 0, 0, 1⟩ k) ∧
    ∀ j, ¬ Offends .nop ⟨0, 0, 0, 0, 0, 0, 0, 0⟩ j := by
  refine ⟨by decide +kernel, rfl, by simp [Offends], ⟨by simp [Offends], ?_⟩, ⟨by simp [Offends], ?_⟩, ⟨by simp [Offends], ?_⟩,
    ⟨by simp [Offends], ?_⟩, ⟨by simp [Offends], ?_⟩, ⟨by simp [Offends], ?_⟩, ⟨by simp [Offends], ?_⟩, ?_⟩
  case refine_8 =>
    intro j
    rcases j with _ | _ | _ | _ | _ | _ | _ | _ | j <;> simp [Offends]
  all_goals
    intro k hk
    interval_cases k <;> simp [Offends]
/-- Flags that offend only with some opcodes, and operand words that the flags force to 0. -/
theorem witness_ReservedWordFaults_flags :
    Offends .halt ⟨0x101, 0, 0, 0, 0, 0, 0, 0⟩ 0 ∧ Offends .bwtFwd ⟨0x210, 0, 0, 0, 0, 0, 0, 0⟩ 0 ∧ Offends .bwtInv ⟨0x411, 0, 0, 0, 0, 0, 0, 0⟩ 0 ∧
    Offends .mtfEnc ⟨0x420, 0, 0, 0, 0, 0, 0, 0⟩ 0 ∧ Offends .cmEnc ⟨0x140, 9, 9, 1, 0, 0, 0, 0⟩ 3 ∧ Offends .bwtInv ⟨0x211, 9, 9, 1, 1, 0, 0, 0⟩ 4 ∧
    Offends .strDec ⟨0x461, 9, 9, 1, 1, 0, 0, 0⟩ 4 := by simp [Offends]
theorem witness_OperandsResolve : decode ⟨0x00000311, 0x280, 0x290, 0, 0, 0, 0, 0⟩ = .ok (.bwtInv true true 0x280 0x290 0 0) ∧
    decode ⟨0x00000461, 0x200, 0x300, 16, 0, 0, 0, 0⟩ = .ok (.strDec false true 0x200 0x300 16 0) ∧
    decode ⟨0x00000050, 1, 2, 3, 4, 0, 0, 0⟩ = .ok (.blkEnc false false 1 2 3 4) := by decide +kernel
theorem witness_StepRunsDecodedCommand :
    let d : Descriptor := ⟨0x110, 0x100, 0x200, 0, 0, 0, 0, 0⟩
    (fetches (listAt 0xFE0 d) d && (match decode d with | .ok i => i == .bwtFwd true 0x100 0x200 0 | .error _ => false) &&
      ({ listAt 0xFE0 d with hostQueue := [.turn] }).hostQueue == [.turn] && !State.reset.status.busy && State.reset.hostQueue == []) = true := by decide +kernel
/-- Each misalignment; the last descriptor of LMEM and the four places after it; the largest CMD_PTR. -/
theorem witness_FetchChecksAndReads :
    ([1, 2, 3, 0xFE0, 0xFE4, 0x1000, 0xFFFFFFFC].all fun p =>
      let s := listAt p ⟨0, 0, 0, 0, 0, 0, 0, 0⟩
      s.status.busy && s.hostQueue == [] && s.cmdPtr.toNat == p && s.cfg.lmemSize == 0x1000) = true ∧
    (let s := listAt 0xFE0 ⟨0x210, 1, 2, 3, 4, 5, 6, 0xFFFFFFFF⟩;
      s.lmem.read 0xFE0 4 = 0x210 ∧ s.lmem.read 0xFE4 4 = 1 ∧ s.lmem.read 0xFE8 4 = 2 ∧ s.lmem.read 0xFEC 4 = 3 ∧ s.lmem.read 0xFF0 4 = 4 ∧
      s.lmem.read 0xFF4 4 = 5 ∧ s.lmem.read 0xFF8 4 = 6 ∧ s.lmem.read 0xFFC 4 = 0xFFFFFFFF) ∧
    decode ⟨0x210, 1, 2, 3, 4, 5, 6, 0xFFFFFFFF⟩ = .error (.reservedNz 0) ∧ decode ⟨1, 0, 0, 0, 0, 0, 0, 0⟩ = .ok .halt := by decide +kernel
/-- LEN_eff = 0, BLOCK_MAX and BLOCK_MAX + 1, from the word and from RES_LEN; the primary at LEN_eff and one below it. -/
theorem witness_StaticOpcodeChecks :
    ((lab []).lenOf false 0).toNat = 0 ∧ ({ lab [] with resLen := 0x101 }.lenOf true 0).toNat = 0x101 ∧ ((lab []).lenOf false 0x100).toNat = 0x100 ∧
    (lab []).cfg.blockMax.toNat = 0x100 ∧ ((lab []).primaryOf false 0x100).toNat = 0x100 ∧ ({ lab [] with resPrimary := 0xFF }.primaryOf true 0).toNat = 0xFF := by
  decide +kernel
/-- A command without a check of R99 whose windows are fine, with a window that ends at LMEM_SIZE. -/
theorem witness_StaticOpcodeChecks_windows :
    Instr.op (.cmDec false false 0x800 0x100 0x10 0x800) ∉ [Op.bwtFwd, Op.bwtInv, Op.blkEnc] ∧ WindowsOk (lab []).cfg 0x800 0x800 0x100 0x10 ∧
    srcWindow (.cmDec false false 0x800 0x100 0x10 0x800) ((lab []).operandsOf (.cmDec false false 0x800 0x100 0x10 0x800)) = ⟨0x800, 0x800⟩ ∧
    dstWindow (.cmDec false false 0x800 0x100 0x10 0x800) ((lab []).operandsOf (.cmDec false false 0x800 0x100 0x10 0x800)) = ⟨0x100, 0x10⟩ :=
  ⟨by decide, windowsOk_of (by decide) rfl, rfl, rfl⟩
/-- Windows that end at LMEM_SIZE and one byte beyond it, that meet and overlap by one byte, that are empty at
LMEM_SIZE, and a sum above 2^32. -/
theorem witness_WindowChecks :
    ([(0xF00, 0x100, 0x100, 0x100, true), (0xF01, 0x100, 0x100, 0x100, false), (0x100, 0x100, 0xF01, 0x100, false), (0x100, 0x10, 0x110, 0x10, true),
      (0x100, 0x10, 0x10F, 0x10, false), (0x10F, 0x10, 0x100, 0x10, false), (0x1000, 0, 0x1000, 0, true), (0x1001, 0, 0x1000, 0, false),
      (0xFFFFFFFF, 2, 0x100, 2, false), (0x100, 0x10, 0x108, 0, true)].all fun (a, n, b, m, ok) =>
      let i : Instr := .rle0Enc false false (BitVec.ofNat 32 a) (BitVec.ofNat 32 b) (BitVec.ofNat 32 n) (BitVec.ofNat 32 m)
      let o := (lab []).operandsOf i
      opcodeCheck (lab []).cfg i o == none && srcWindow i o == ⟨a, n⟩ && dstWindow i o == ⟨b, m⟩ && windowsOkB a n b m == ok) = true := by decide +kernel
/-- A command that writes, one that faults, a fetch that faults, and addresses beside the window. -/
theorem witness_WritesStayInDestination :
    (∃ t, step (listAt 0x20 ⟨0x20, 0x100, 0x200, 6, 0, 0, 0, 0⟩) = .next t) ∧
    fetches (listAt 0x20 ⟨0x20, 0x100, 0x200, 6, 0, 0, 0, 0⟩) ⟨0x20, 0x100, 0x200, 6, 0, 0, 0, 0⟩ = true ∧
    decode ⟨0x20, 0x100, 0x200, 6, 0, 0, 0, 0⟩ = .ok (.mtfEnc false 0x100 0x200 6) ∧ OutsideRange 0x200 6 0x1FF ∧ OutsideRange 0x200 6 0x206 ∧
    (∃ t, step { lab [] with cmdPtr := 2 } = .next t) ∧ ({ lab [] with cmdPtr := 2 }).fetchFault ≠ none ∧
    (∃ t, step (listAt 0x20 ⟨2, 0, 0, 0, 0, 0, 0, 0⟩) = .next t) ∧ decode ⟨2, 0, 0, 0, 0, 0, 0, 0⟩ = .error (.illegalOp 2) := by
  refine ⟨(leaves_next (p := fun _ => true) ?_).imp fun _ h => h.1, by decide +kernel, by decide +kernel, .inl (by decide), .inr (by decide),
    (leaves_next (p := fun _ => true) ?_).imp fun _ h => h.1, by decide +kernel, (leaves_next (p := fun _ => true) ?_).imp fun _ h => h.1, by decide +kernel⟩ <;>
    decide +kernel
/-- Two memories that agree on the six bytes of the source window and differ at the byte after it. -/
theorem witness_OperationsReadOnlySource :
    let s := lab [(0x100, banana)]
    let i : Instr := .mtfEnc false 0x100 0x200 6
    srcWindow i (s.operandsOf i) = ⟨0x100, 6⟩ ∧ (s.lmem.writeByte 0x106 7).byte 0x106 = 7 ∧
    ∀ a, (srcWindow i (s.operandsOf i)).has a = true → (s.lmem.writeByte 0x106 7).byte a = s.lmem.byte a := by
  refine ⟨rfl, by decide +kernel, fun a h => Lmem.byte_writeByte_other _ _ ?_⟩
  simp [Window.has, srcWindow, State.operandsOf, State.resolve] at h
  omega
/-- Lengths 1 and BLOCK_MAX, the primary at its largest. -/
theorem witness_BwtCommandsComplete :
    ([(1, 0), (0x100, 0xFF)].all fun (n, p) =>
      decide (0 < ((lab []).lenOf false (BitVec.ofNat 32 n)).toNat) && decide (n ≤ (lab []).cfg.blockMax.toNat) && windowsOkB 0x100 n 0x200 n &&
        decide (((lab []).primaryOf false (BitVec.ofNat 32 p)).toNat < n)) = true ∧
    WindowsOk (lab []).cfg 0x100 0x100 0x200 0x100 := ⟨by decide +kernel, windowsOk_of (by decide) rfl⟩
/-- Empty windows at LMEM_SIZE and windows that meet at the end of LMEM. -/
theorem witness_MtfCommandsComplete :
    WindowsOk (lab []).cfg 0x1000 ((lab []).lenOf false 0).toNat 0x1000 ((lab []).lenOf false 0).toNat ∧
    WindowsOk (lab []).cfg 0 ({ lab [] with resLen := 0x800 }.lenOf true 0).toNat 0x800 ({ lab [] with resLen := 0x800 }.lenOf true 0).toNat :=
  ⟨windowsOk_of (by decide) rfl, windowsOk_of (by decide) rfl⟩
/-- Outputs as long as their capacity. -/
theorem witness_Rle0CommandsComplete :
    (rleEncode ((lab [(0x220, ranks)]).lmem.bytes 0x220 6)).length = 7 ∧ ((lab []).capOf false 7).toNat = 7 ∧ ((lab []).capOf false 12).toNat = 2 * 6 ∧
    (rleDecode ((lab [(0x220, rleBanana)]).lmem.bytes 0x220 7)).1.length = 6 ∧ windowsOkB 0x220 6 0x230 7 = true ∧
    windowsOkB 0x220 6 0x230 12 = true ∧ windowsOkB 0x220 7 0x230 6 = true := by decide +kernel
/-- The empty payload of 4 bytes and the payload of "A", each as long as its capacity. -/
theorem witness_CmCommandsComplete :
    (cmEncode (lab []).cfg ((lab []).lmem.bytes 0x100 0)).length = 4 ∧
    (cmEncode (glibc 0x100) ((labG 0x100 [(0x100, [0x41])]).lmem.bytes 0x100 1)).length = 4 ∧
    windowsOkB 0x100 0 0x200 4 = true ∧ windowsOkB 0x100 1 0x200 4 = true ∧ windowsOkB 0x100 0 0x200 0x10 = true := by decide +kernel
/-- A record as long as its capacity. -/
theorem witness_BlkEncCompletes :
    let x := (labG 1 [(0x100, [0x41])]).lmem.bytes 0x100 1
    let b := bwtForward x
    let r := rleEncode (mtfEncode b.1)
    let pay := cmEncode (glibc 1) r
    (leBytes 4 1 ++ leBytes 4 b.2 ++ leBytes 4 r.length ++ leBytes 4 pay.length ++ pay).length = 20 ∧
    (glibc 1).blockMax.toNat = 1 ∧ windowsOkB 0x100 1 0x200 20 = true := by decide +kernel
/-- The record of "A" with avail its length and cap 1. -/
theorem witness_BlkDecCompletes :
    let s := labG 1 [(0x200, recA)]
    let d := cmDecodePhase s.cfg (s.lmem.bytes (0x200 + 16) (s.lmem.read (0x200 + 12) 4)) (s.lmem.read (0x200 + 8) 4)
    s.lmem.read 0x200 4 = 1 ∧ s.cfg.blockMax.toNat = 1 ∧ s.lmem.read (0x200 + 4) 4 = 0 ∧ s.lmem.read (0x200 + 8) 4 = 1 ∧
    s.lmem.read (0x200 + 12) 4 = 4 ∧ (rleDecode d.2).1.length = 1 ∧ windowsOkB 0x200 20 0x300 1 = true := by decide +kernel
/-- "AA" in blocks of one byte, and an empty input, with capacities as long as the containers. -/
theorem witness_StrEncCompletes :
    Blocks 1 [0x41, 0x41] [[0x41], [0x41]] ∧ Blocks 1 [] [] ∧ (labG 1 [(0x100, [0x41, 0x41])]).lmem.bytes 0x100 2 = [0x41, 0x41] ∧
    (leBytes 8 2 ++ [[0x41], [0x41]].flatMap fun b => (blockEncode (glibc 1) b).record).length = 48 ∧
    windowsOkB 0x100 2 0x200 48 = true ∧ windowsOkB 0x100 0 0x200 8 = true :=
  ⟨⟨by decide, by decide, by decide⟩, ⟨by decide, by decide, by decide⟩, by decide +kernel, by decide +kernel, by decide, by decide⟩

/-- What the record of "A" decodes to. -/
def recADecodes (c : Config) (m : Lmem) (a avail cap : Nat) : Bool :=
  match blockDecode c m a avail cap with
  | .ok d => d.block == [0x41] && d.recLen == 20
  | .error _ => false

theorem recA_ok {c : Config} {m : Lmem} {a avail cap : Nat} (h : recADecodes c m a avail cap = true) :
    ∃ d, blockDecode c m a avail cap = .ok d ∧ d.block = [0x41] ∧ d.recLen = 20 := by
  unfold recADecodes at h
  split at h
  · rename_i d hd
    simp at h
    exact ⟨d, hd, h.1, h.2⟩
  · cases h

/-- A container of fullSize alone, and the container of "A" with cap 1. -/
theorem witness_StrDecCompletes :
    let m := (labG 0x100 [(0x200, contA)]).lmem
    StrRun (glibc 0x100) m 0x200 8 0 8 StrProgress.start StrProgress.start ∧
    (∃ q, StrRun (glibc 0x100) m 0x200 28 1 8 StrProgress.start q ∧ q.out = [0x41] ∧ q.records = 1) ∧
    windowsOkB 0x200 8 0x300 0 = true ∧ windowsOkB 0x200 28 0x300 1 = true := by
  refine ⟨.eof _ _ (by decide), ?_, by decide, by decide⟩
  obtain ⟨d, hd, hb, hr⟩ := recA_ok (c := glibc 0x100) (m := (labG 0x100 [(0x200, contA)]).lmem) (a := 0x208) (avail := 20) (cap := 1) (by decide +kernel)
  exact ⟨_, .record _ _ _ d (by decide) hd (.eof _ _ (by simp [hr])), by simp [StrProgress.add, StrProgress.start, hb], rfl⟩
/-- Each command with one byte of capacity too few. -/
theorem witness_CapacityFaults :
    (rleEncode ((lab [(0x220, ranks)]).lmem.bytes 0x220 6)).length = 7 ∧ ((lab []).capOf false 6).toNat = 6 ∧
    (rleDecode ((lab [(0x220, rleBanana)]).lmem.bytes 0x220 7)).1.length = 6 ∧ ((lab []).capOf false 5).toNat = 5 ∧
    (cmEncode (lab []).cfg ((lab []).lmem.bytes 0x220 0)).length = 4 ∧ (strContainer (lab []).cfg ((lab []).lmem.bytes 0x220 0)).length = 8 ∧
    (blockEncode (glibc 0x100) ((labG 0x100 [(0x220, [0x41])]).lmem.bytes 0x220 1)).record.length = 20 ∧
    (strContainer (glibc 0x100) ((labG 0x100 [(0x220, [0x41])]).lmem.bytes 0x220 1)).length = 28 ∧
    windowsOkB 0x220 6 0x230 6 = true ∧ windowsOkB 0x220 7 0x230 5 = true ∧ windowsOkB 0x220 0 0x230 3 = true ∧
    windowsOkB 0x220 1 0x230 19 = true ∧ windowsOkB 0x220 0 0x230 7 = true ∧ windowsOkB 0x220 1 0x230 27 = true := by decide +kernel
/-- The record with header words n, primary, rleCount and cmSize before the payload of "A", as the words read. -/
def headerReads (n pr rc cs : Nat) : Bool :=
  let m := (labG 1 [(0x200, leBytes 4 n ++ leBytes 4 pr ++ leBytes 4 rc ++ leBytes 4 cs ++ [0x40, 0xFB, 0xD0, 0x15])]).lmem
  m.read 0x200 4 == n && m.read 0x204 4 == pr && m.read 0x208 4 == rc && m.read 0x20C 4 == cs
/-- Each check at the first value that fails it, those before it passed: avail 15; n = BLOCK_MAX + 1; primary = n,
also for n = 0; cap = n − 1; cmSize one more than avail leaves, at its largest too; rleCount = 2n + 1; a stream of no byte. -/
theorem witness_BlkDecFaultsInOrder :
    (headerReads 2 0 1 4 && headerReads 1 1 1 4 && headerReads 0 0 1 4 && headerReads 1 0 1 4 && headerReads 1 0 1 5 && headerReads 1 0 1 0xFFFFFFFF &&
      headerReads 1 0 3 4 && headerReads 1 0 0 4 && windowsOkB 0x200 15 0x300 1 && windowsOkB 0x200 16 0x300 1 && windowsOkB 0x200 20 0x300 0 &&
      windowsOkB 0x200 20 0x300 1) = true ∧
    (glibc 1).blockMax.toNat = 1 ∧ (rleDecode (cmDecodePhase (glibc 1) [0x40, 0xFB, 0xD0, 0x15] 0).2).1.length = 0 := by decide +kernel
/-- avail 7; a record without room for its header; the same after the record of "A" (95_test_vectors.md section 12). -/
theorem witness_StrDecFaults :
    let m := (labG 0x100 [(0x200, contA ++ [0])]).lmem
    windowsOkB 0x200 7 0x300 6 = true ∧ windowsOkB 0x200 9 0x300 6 = true ∧ windowsOkB 0x200 29 0x300 6 = true ∧
    StrFails (glibc 0x100) m 0x200 9 6 8 StrProgress.start ⟨⟨.truncated, 0x208⟩, false, Sticky.quiet⟩ ∧
    ∃ f, StrFails (glibc 0x100) m 0x200 29 6 8 StrProgress.start f ∧ f.report = ⟨.truncated, 0x21C⟩ ∧ f.coder = true := by
  refine ⟨by decide, by decide, by decide, .here 8 _ ⟨⟨.truncated, 0x208⟩, false, Sticky.quiet⟩ (by decide) rfl, ?_⟩
  obtain ⟨d, hd, hb, hr⟩ := recA_ok (c := glibc 0x100) (m := (labG 0x100 [(0x200, contA ++ [0])]).lmem) (a := 0x208) (avail := 21) (cap := 6) (by decide +kernel)
  refine ⟨_, .later 8 _ d _ (by decide) hd (.here _ _ ⟨⟨.truncated, 0x21C⟩, false, Sticky.quiet⟩ (by simp [hr]) ?_), rfl, rfl⟩
  rw [hr]
  rfl
/-- One rotation, and equal rotations. -/
theorem witness_BwtForwardSortsRotations : (suffixOrder [0x61]).Perm (List.range 1) ∧ suffixOrder [0x61, 0x62, 0x61, 0x62] = [0, 2, 1, 3] ∧
    ([0x61, 0x62, 0x61, 0x62] : List Byte) ≠ [] ∧ rot ([0x61, 0x62, 0x61, 0x62] : List Byte) 0 = rot [0x61, 0x62, 0x61, 0x62] 2 := by decide +kernel
theorem witness_BwtBijection : ([0x61] : List Byte) ≠ [] := by decide
/-- The identity table, with ranks 0 and 255. -/
theorem witness_MoveToFrontPermutes : IsPermTable mtfIdentity ∧ 0 < 256 ∧ 255 < 256 := by
  refine ⟨⟨by decide +kernel, ?_⟩, by decide, by decide⟩
  simp only [mtfIdentity]
  refine List.Nodup.map_on ?_ List.nodup_range
  intro x hx y hy h
  have := congrArg BitVec.toNat h
  simp at hx hy this
  omega
/-- A nonzero byte between runs, and runs of 1 and 256 zeros between nonzero bytes and alone. -/
theorem witness_RleStreamProperties : (1 : Byte) ≠ 0 ∧ ([5] : List Byte).getLast? ≠ some 0 ∧ ([6, 0] : List Byte).head? ≠ some 0 ∧
    ([] : List Byte).getLast? ≠ some 0 ∧ ([] : List Byte).head? ≠ some 0 := by decide
/-- A history one byte short and a full one, with another key; histories of one length. -/
theorem witness_ByteContextModel :
    ((ByteCtx.init 2).updateByte 5).hist.length = 1 ∧ ((ByteCtx.init 2).updateByte 5).k = 2 ∧
    (((ByteCtx.init 2).updateByte 5).updateByte 6).hist.length = 2 ∧ histKey [5, 6] = 0x506 ∧ histKey [5] ≠ histKey [6] := by decide +kernel
theorem witness_BitContextHistory : (List.replicate 23 true).length < 24 ∧ 24 ≤ (List.replicate 24 true).length := by decide
/-- Matches of no byte, of 1 to 4 bytes; inputs of no byte, of c − 1, of c and of more bytes, with a match and without. -/
theorem witness_MatchModelPredictions :
    (MatchModel.init 4).matchLen = 0 ∧ ([1, 2, 3, 4].all fun n => decide (0 < (⟨4, [], 9, [], 3, n, 7⟩ : MatchModel).matchLen)) = true ∧
    ([] : List Byte).length < 2 ^ 20 ∧ (List.replicate 5 0x61 : List Byte).length < 2 ^ 20 ∧
    ([0x61, 0x61, 0x61, 0x61, 0x61].foldl matchByte (MatchModel.init 4)).matchLen = 1 ∧
    ([1, 2, 3].foldl matchByte (MatchModel.init 4)).matchLen = 0 ∧ ([1, 2, 3, 4].foldl matchByte (MatchModel.init 4)).matchLen = 0 ∧
    4 ≤ [1, 2, 3, 4].length ∧ [1, 2, 3].length < 4 := by decide +kernel
/-- The initial table, one with entries, and a position equal to the key. -/
theorem witness_LzpUpdate : rising LzpModel.init.nxt = true ∧ rising ([0, 3, 0x80].foldl LzpModel.updateByte LzpModel.init).nxt = true ∧
    LzpModel.init.pos = LzpModel.init.prev.toNat * 256 + (0 : Byte).toNat := by decide +kernel
/-- Finite operands with finite results, one of them subnormal, and a nonzero divisor. -/
theorem witness_FloatOperationsRoundToEven :
    ([(fOne, 0x4008000000000000), (1, fOne), (0x7FEFFFFFFFFFFFFF, fOne), (0xBFF0000000000000, fOne)].all fun (a, b) =>
      fIsFinite a && fIsFinite b && fIsFinite (fadd a b) && fIsFinite (fsub a b) && fIsFinite (fmul a b) && fIsFinite (fdiv a b) && decide (fVal b ≠ 0)) = true ∧
    2 ^ 53 - 1 < 2 ^ 53 ∧ (0 : Int) ≤ fVal fZero ∧ fIsFinite fZero = true ∧ 0 ≤ fVal 0x3FE0000000000000 := by decide +kernel
/-- low = high, and the whole range. -/
theorem witness_SplitPointInInterval : (7 : U32).toNat ≤ (7 : U32).toNat ∧ (0 : U32).toNat ≤ (0xFFFFFFFF : U32).toNat := by decide
theorem witness_RenormalisationEnds : 32 ≤ 32 ∧ (decoderInit [1, 2, 3, 4]).low = Coder.init.low ∧ (decoderInit [1, 2, 3, 4]).high = Coder.init.high ∧
    (decoderInit [1, 2, 3, 4]).follow = Coder.init.follow := by decide +kernel
/-- An interval whose bytes agree, and one of two values across a byte whose split point is high. -/
theorem witness_OrderedIntervalKept :
    let a : Coder := { Coder.init with low := 0x12000000, high := 0x12FFFFFF }
    let b : Coder := { Coder.init with low := 0x00FFFFFF, high := 0x01000000 }
    a.low.toNat ≤ a.high.toNat ∧ a.msbAgree = true ∧ b.low.toNat ≤ b.high.toNat ∧ b.msbAgree = false ∧ coderBound b.low b.high 0 = b.high ∧
    b.follow = 0 ∧ (encodeBit b true 0).2 = true ∧ (encodeBit b false 0).2 = false := by decide +kernel
/-- The empty stream and "A" run without an inversion. -/
theorem witness_CoderRoundTrip : (cmEncodePhase (lab []).cfg []).inv = false ∧ (cmEncodePhase (glibc 1) [0x41]).inv = false := by decide +kernel
/-- BLOCK_MAX = 2 over three bytes and over none, one record of the first block "A", and a cut. -/
theorem witness_BlocksOfInput :
    let c := glibc 2
    0 < c.blockMax.toNat ∧ strBlocks c [1, 2, 3] = [[1, 2], [3]] ∧ strBlocks c [] = [] ∧ Blocks c.blockMax.toNat [1, 2, 3] [[1, 2], [3]] ∧
    ([1, 2, 3] : List Byte).length < 2 ^ 32 ∧ (strEncoded c [0x41]).length = 1 :=
  ⟨by decide, by decide, rfl, ⟨by decide, by decide, by decide⟩, by decide, by decide⟩
/-- The block "A" with BLOCK_MAX = 1, avail the record's length and cap 1. -/
theorem witness_BlockRoundTrip :
    let e := blockEncode (glibc 1) [0x41]
    ([0x41] : List Byte) ≠ [] ∧ (glibc 1).blockMax.toNat = 1 ∧ e.record.length = 20 ∧ e.cm.inv = false ∧
    (labG 1 [(0x200, recA)]).lmem.bytes 0x200 20 = e.record := by decide +kernel
/-- "AA" with BLOCK_MAX = 1 and cap 2. -/
theorem witness_StreamRoundTrip :
    Blocks (glibc 1).blockMax.toNat [0x41, 0x41] [[0x41], [0x41]] ∧ (∀ b ∈ [[0x41], ([0x41] : List Byte)], b.length < 2 ^ 31) ∧ (blockEncode (glibc 1) [0x41]).cm.inv = false ∧
    (labG 1 [(0x200, [2, 0, 0, 0, 0, 0, 0, 0] ++ recA ++ recA)]).lmem.bytes 0x200 48 =
      leBytes 8 2 ++ [[0x41], [0x41]].flatMap fun b => (blockEncode (glibc 1) b).record :=
  ⟨⟨by decide, by decide, by decide⟩, by decide, by decide +kernel, by decide +kernel⟩
theorem witness_LittleEndianMemory : 3 < 4 ∧ OutsideRange 0x10 4 0xF ∧ OutsideRange 0x10 4 0x14 := ⟨by decide, .inl (by decide), .inr (by decide)⟩
/-- START alone and with IRQ_EN, neither, IRQ_EN alone and with reserved bits, idle and while a list runs. -/
theorem witness_StartAccepted :
    ([1, 5, 0, 4, 0xFFFFFFFC].all fun v => (idleWith (.mmioWrite (State.reset.cfg.mmioBase + 0x004) 4 v)).hostQueue == [.mmioWrite (State.reset.cfg.mmioBase + 0x004) 4 v] &&
      v.getLsbD 0 == (v == 1 || v == 5) && !v.getLsbD 1) = true ∧ (idleWith .turn).status.busy = false ∧ (lab []).status.busy = true := by decide +kernel
/-- SRST alone and with every other bit; idle, over a running MTF_ENC with good windows, over one that would
fault with OVERLAP, and over a list whose fetch will fault. -/
theorem witness_SoftResetActs :
    ([2, 0xFFFFFFFF].all fun (v : U32) => v.getLsbD 1) = true ∧ (idleWith (.mmioWrite (State.reset.cfg.mmioBase + 0x004) 4 2)).status.busy = false ∧
    fetches (listAt 0x20 ⟨0x20, 0x100, 0x200, 6, 0, 0, 0, 0⟩) ⟨0x20, 0x100, 0x200, 6, 0, 0, 0, 0⟩ = true ∧
    (listAt 0x20 ⟨0x20, 0x100, 0x200, 6, 0, 0, 0, 0⟩).staticFault (.mtfEnc false 0x100 0x200 6) = none ∧ OutsideRange 0x200 6 0x206 ∧
    fetches (listAt 0x20 ⟨0x20, 0x100, 0x102, 4, 0, 0, 0, 0⟩) ⟨0x20, 0x100, 0x102, 4, 0, 0, 0, 0⟩ = true ∧
    (listAt 0x20 ⟨0x20, 0x100, 0x102, 4, 0, 0, 0, 0⟩).staticFault (.mtfEnc false 0x100 0x102 4) = some ⟨.overlap, 0x102⟩ ∧
    OutsideRange 0x102 4 0x101 ∧ ({ lab [] with cmdPtr := 2 }).fetchFault ≠ none :=
  ⟨by decide, by decide, by decide +kernel, by decide +kernel, .inr (by decide), by decide +kernel, by decide +kernel, .inl (by decide),
    by decide +kernel⟩
theorem witness_RegistersAfterReset : (idleWith .powerOnReset).hostQueue = [.powerOnReset] ∧ 0 < 4096 ∧ 4092 % 4 = 0 ∧ 0x0BC % 8 = 4 := by decide
/-- The first and last offsets, STATUS, CMD_PTR and a reserved offset; idle and while a list runs. -/
theorem witness_RegisterWrites :
    ([0x000, 0x008, 0x00C, 0x010, 0xFFC].all fun off => decide (off < 4096) && decide (off % 4 = 0) && decide (off ≠ 0x004) &&
      (idleWith (.mmioWrite (State.reset.cfg.mmioBase + off) 4 9)).hostQueue == [.mmioWrite (State.reset.cfg.mmioBase + off) 4 9]) = true ∧
    State.reset.status.busy = false ∧ (lab []).status.busy = true := by decide +kernel
theorem witness_RegisterReads :
    ([0x000, 0x008, 0x02C, 0x030, 0x018, 0xFFC].all fun off => decide (off < 4096) && decide (off % 4 = 0) &&
      (idleWith (.mmioRead (State.reset.cfg.mmioBase + off) 4)).hostQueue == [.mmioRead (State.reset.cfg.mmioBase + off) 4]) = true ∧
    State.reset.status.busy = false ∧ (lab []).status.busy = true := by decide +kernel
/-- A width of 1, an address below the block, one past it, a misaligned one; LMEM while a list runs. -/
theorem witness_MeaninglessAccessesRefused :
    (1 ≠ 4) ∧ (0xFFF < ({ Config.standard with mmioBase := 0x1000 } : Config).mmioBase) ∧ Config.standard.mmioBase + 4096 ≤ 0x1000 ∧
    (0xFFE - Config.standard.mmioBase) % 4 ≠ 0 ∧ ({ lab [] with hostQueue := [.lmemWrite 0 [1]] }).status.busy = true := by decide +kernel
/-- The last byte of LMEM, and no byte at LMEM_SIZE. -/
theorem witness_HostMemoryAccess :
    (idleWith (.lmemWrite 0xFFF [1])).status.busy = false ∧ 0xFFF + [1].length ≤ State.reset.cfg.lmemSize.toNat ∧ 0x1000 + 0 ≤ State.reset.cfg.lmemSize.toNat ∧
    OutsideRange 0xFFF 1 0xFFE := ⟨by decide, by decide, by decide, .inl (by decide)⟩
/-- A list that HALTs next and one that faults next, with the interrupt enabled. -/
theorem witness_InterruptAtListEnd :
    let h := { listAt 0x20 ⟨1, 0, 0, 0, 0, 0, 0, 0⟩ with irqEn := true }
    h.inv = true ∧ h.status.busy = true ∧ h.hostQueue = [] ∧ (∃ t, step h = .next t ∧ (!t.status.busy) = true) ∧
    ∃ t, step { h with cmdPtr := 2 } = .next t ∧ (!t.status.busy) = true := by
  refine ⟨by decide +kernel, rfl, rfl, leaves_next ?_, leaves_next ?_⟩ <;> decide +kernel
/-- A misaligned CMD_PTR. -/
theorem witness_RestartAfterStaticFault :
    let s := { lab [] with cmdPtr := 2, resLen := 7 }
    ∃ t, step s = .next t ∧ StaticFaultTaken s t ⟨.cmdAlign, 2⟩ :=
  ⟨_, rfl, ⟨⟨rfl, rfl, rfl, rfl, rfl, rfl, rfl, rfl, rfl, rfl, rfl, ⟨rfl, rfl, rfl, rfl⟩⟩, rfl, rfl, rfl, rfl, rfl⟩⟩
/-- The reset state with a host access, and a running list. -/
theorem witness_StepKeepsInvariant :
    let s := idleWith (.lmemWrite 0xFFF [1])
    s.inv = true ∧ (lab [(0x100, banana)]).inv = true ∧ ∃ t, step s = .next t ∧ (t.lmem.byte 0xFFF == 1) = true :=
  ⟨by decide +kernel, by decide +kernel, leaves_next (by decide +kernel)⟩
theorem witness_EveryListEnds : (lab [(0, banana)]).inv = true ∧ (lab [(0, banana)]).status.busy = true ∧ (lab [(0, banana)]).hostQueue = [] := by decide +kernel

end Sys2Proof.Tests
end

section
/-! The invariant of the machine, kept by every operation of the model and so by every step (10_state.md sections 2 and 3, 00_scope.md R7). -/

namespace Sys2Proof.Machine

open Sys2Proof

/-! ### The parts of the invariant -/

theorem State.inv_iff (s : State) : s.inv = true ↔
    s.cfg.wf = true ∧ Memory.wf s.lmem = true ∧ s.lmemBounded = true ∧ s.status.exclusive = true ∧ s.errClear = true := by
  simp only [State.inv, Bool.and_eq_true, and_assoc]

/-- A state with the parameters, LMEM, STATUS and error registers of another meets the invariant with it. -/
theorem State.inv_congr {s t : State} (hcfg : t.cfg = s.cfg) (hlmem : t.lmem = s.lmem) (hstatus : t.status = s.status)
    (hcode : t.errCode = s.errCode) (hptr : t.errPtr = s.errPtr) (hinfo : t.errInfo = s.errInfo) : t.inv = s.inv := by
  simp only [State.inv, State.lmemBounded, State.errClear, hcfg, hlmem, hstatus, hcode, hptr, hinfo]

@[simp] theorem Status.exclusive_reset : Status.reset.exclusive = true := rfl
@[simp] theorem Status.exclusive_start (s : Status) : s.start.exclusive = true := rfl
@[simp] theorem Status.exclusive_stick (s : Status) (k : Sticky) : (s.stick k).exclusive = s.exclusive := rfl

/-- While BUSY is set, DONE and ERR are clear (10_state.md R30). -/
theorem Status.of_busy {s : Status} (h : s.exclusive = true) (hb : s.busy = true) : s.done = false ∧ s.err = false := by
  rw [Status.exclusive, hb] at h
  revert h
  cases s.done <;> cases s.err <;> simp

theorem Status.exclusive_faulted {s : Status} (h : s.exclusive = true) (hb : s.busy = true) : s.faulted.exclusive = true := by
  simp [Status.exclusive, (Status.of_busy h hb).1]

theorem Status.exclusive_halted {s : Status} (h : s.exclusive = true) (hb : s.busy = true) : s.halted.exclusive = true := by
  simp [Status.exclusive, (Status.of_busy h hb).2]

/-- Clearing flags leaves at most one of them set. -/
theorem Status.exclusive_writeOneToClear {s : Status} (v : U32) (h : s.exclusive = true) : (s.writeOneToClear v).exclusive = true := by
  simp only [Status.exclusive, Status.writeOneToClear, Bool.and_eq_true, Bool.not_eq_true', Bool.and_eq_false_iff] at h ⊢
  tauto

/-! ### Updates of one part -/

theorem State.inv_withStatus {s : State} {u : Status} (h : s.inv = true) (hu : u.exclusive = true) :
    ({ s with status := u } : State).inv = true := by
  obtain ⟨hcfg, hwf, hbound, -, herr⟩ := s.inv_iff.mp h
  exact (State.inv_iff _).mpr ⟨hcfg, hwf, hbound, hu, herr⟩

/-- Bytes written inside a window that lies in LMEM keep LMEM canonical and below LMEM_SIZE (10_state.md R45). -/
theorem State.inv_writeBytes {s : State} {w : Window} {bs : List Byte} (h : s.inv = true) (hw : w.inRange s.cfg = true)
    (hl : bs.length ≤ w.size) : ({ s with lmem := s.lmem.writeBytes w.start bs } : State).inv = true := by
  obtain ⟨hcfg, hwf, hbound, hstatus, herr⟩ := s.inv_iff.mp h
  exact (State.inv_iff _).mpr ⟨hcfg, Memory.wf_writeBytes _ _ _ hwf, lmemBounded_writeBytes hw hl hbound, hstatus, herr⟩

/-- A window of LMEM that becomes unspecified keeps the invariant (60_exceptions.md R196, 70_reset_and_hazards.md R212). -/
theorem State.inv_scramble {s : State} {w : Window} (k : Nat) (h : s.inv = true) (hw : w.inRange s.cfg = true) :
    ({ s with lmem := s.lmem.scramble k w } : State).inv = true :=
  State.inv_writeBytes h hw (freeBytes_length k w).le

/-! ### The shared operations -/

@[simp] theorem State.inv_complete (s : State) (r : Results) : (s.complete r).inv = s.inv :=
  State.inv_congr rfl rfl rfl rfl rfl rfl

theorem State.inv_raiseFault {s : State} {f : FaultReport} (h : s.inv = true) (hb : s.status.busy = true) (hf : f.code ≠ .none) :
    (s.raiseFault f).inv = true := by
  obtain ⟨hcfg, hwf, hbound, hstatus, -⟩ := s.inv_iff.mp h
  exact (State.inv_iff _).mpr ⟨hcfg, hwf, hbound, Status.exclusive_faulted hstatus hb, by simp [State.errClear, hf]⟩

theorem State.inv_acceptStart {s : State} (h : s.inv = true) : s.acceptStart.inv = true := by
  obtain ⟨hcfg, hwf, hbound, -, -⟩ := s.inv_iff.mp h
  exact (State.inv_iff _).mpr ⟨hcfg, hwf, hbound, Status.exclusive_start _, by simp [State.errClear]⟩

theorem State.inv_finish {s : State} {w : Window} {out : List Byte} (r : Results) (g : Option Dbg) (k : Sticky)
    (h : s.inv = true) (hw : w.inRange s.cfg = true) (hl : out.length ≤ w.size) : (s.finish w.start out r g k).inv = true := by
  have hstatus : (s.status.stick k).exclusive = true := (s.inv_iff.mp h).2.2.2.1
  rw [← State.inv_withStatus (State.inv_writeBytes h hw hl) hstatus]
  exact State.inv_congr rfl rfl rfl rfl rfl rfl

theorem State.inv_spoil {s : State} {w : Window} (c : Bool) (k : Sticky) (h : s.inv = true) (hw : w.inRange s.cfg = true) :
    (s.spoil w c k).inv = true := by
  have hstatus : (s.status.stick k).exclusive = true := (s.inv_iff.mp h).2.2.2.1
  rw [← State.inv_withStatus (State.inv_scramble s.freeCount h hw) hstatus]
  exact State.inv_congr rfl rfl rfl rfl rfl rfl

/-! ### The sequencer's turn (40_sequencer.md R104) -/

theorem exec_keeps_inv {i : Instr} {s t : State} (h : s.inv = true) (hb : s.status.busy = true) (he : exec i s = .next t) :
    t.inv = true := by
  rcases exec_cases i s with ⟨-, hx⟩ | ⟨-, hx⟩ | ⟨f, hf, hx⟩ | ⟨out, r, g, k, hs, hl, hx⟩ | ⟨f, c, k, hs, hf, hx⟩ <;>
    obtain rfl := Host.Outcome.next.inj (hx.symm.trans he)
  case inl => exact (State.inv_complete s _).trans h
  case inr.inl =>
    have hstatus := (s.inv_iff.mp h).2.2.2.1
    exact State.inv_withStatus ((State.inv_complete s _).trans h) (Status.exclusive_halted hstatus hb)
  case inr.inr.inl => exact State.inv_raiseFault h hb (staticFault_code_ne_none hf)
  case inr.inr.inr.inl => exact State.inv_finish r g k h (windows_of_staticFault_none hs).2.1 hl
  case inr.inr.inr.inr => exact State.inv_raiseFault (State.inv_spoil c k h (windows_of_staticFault_none hs).2.1) hb hf

/-- Everything a step of the running list can answer (R96, R97, R104). -/
theorem commandStep_cases (s : State) :
    (∃ f, s.fetchFault = some f ∧ commandStep s = .next (s.raiseFault f)) ∨
    (∃ r, decode s.fetched = .error r ∧ commandStep s = .next ((s.latch s.fetched).raiseFault (rejectReport r))) ∨
    (∃ i, decode s.fetched = .ok i ∧ commandStep s = exec i s) := by
  unfold commandStep
  cases hf : s.fetchFault with
  | some f => exact .inl ⟨f, rfl, rfl⟩
  | none =>
    cases hd : decode s.fetched with
    | error r => exact .inr (.inl ⟨r, rfl, rfl⟩)
    | ok i => exact .inr (.inr ⟨i, rfl, exec_scratch i s _⟩)

theorem commandStep_keeps_inv {s t : State} (h : s.inv = true) (hb : s.status.busy = true) (he : commandStep s = .next t) :
    t.inv = true := by
  rcases commandStep_cases s with ⟨f, hf, hx⟩ | ⟨r, -, hx⟩ | ⟨i, -, hx⟩
  · obtain rfl := Host.Outcome.next.inj (hx.symm.trans he)
    exact State.inv_raiseFault h hb (fetchFault_code hf)
  · obtain rfl := Host.Outcome.next.inj (hx.symm.trans he)
    have hlatch : (s.latch s.fetched).inv = true := (State.inv_congr rfl rfl rfl rfl rfl rfl).trans h
    exact State.inv_raiseFault hlatch hb (rejectReport_code r)
  · exact exec_keeps_inv h hb (hx.symm.trans he)

theorem sequencerTurn_keeps_inv {s t : State} (h : s.inv = true) (he : sequencerTurn s = .next t) : t.inv = true := by
  unfold sequencerTurn at he
  split at he
  · exact commandStep_keeps_inv h ‹_› he
  · exact Host.Outcome.next.inj he ▸ h

/-! ### The host's port (10_state.md R29 to R44, 70_reset_and_hazards.md R210, R212) -/

theorem State.inv_resetRegisters {s : State} (hcfg : s.cfg.wf = true) (hwf : Memory.wf s.lmem = true) (hbound : s.lmemBounded = true) :
    s.resetRegisters.inv = true :=
  (State.inv_iff _).mpr ⟨hcfg, hwf, hbound, Status.exclusive_reset, rfl⟩

theorem State.inv_powerOn {s : State} (h : s.inv = true) : s.powerOn.inv = true :=
  State.inv_resetRegisters (s.inv_iff.mp h).1 rfl rfl

theorem State.inv_stopRunning {s : State} (h : s.inv = true) : s.stopRunning.inv = true := by
  rcases runningWindow_cases s with ⟨i, -, -, hw⟩ | hw
  · simp only [State.stopRunning, hw]
    exact State.inv_scramble s.freeCount h (Window.clip_inRange _ _)
  · simpa only [State.stopRunning, hw] using h

theorem State.inv_softReset {s : State} (h : s.inv = true) : s.softReset.inv = true := by
  have reset : ∀ {u : State}, u.inv = true → u.resetRegisters.inv = true := fun {u} hu =>
    have ⟨hcfg, hwf, hbound, _⟩ := u.inv_iff.mp hu
    State.inv_resetRegisters hcfg hwf hbound
  unfold State.softReset
  split
  · exact reset (State.inv_stopRunning h)
  · exact reset h

theorem State.inv_writeCtrl {s : State} (v : U32) (h : s.inv = true) : (s.writeCtrl v).inv = true := by
  have hirq : ({ s with irqEn := v.getLsbD 2 } : State).inv = true := (State.inv_congr rfl rfl rfl rfl rfl rfl).trans h
  rcases writeCtrl_cases s v with ⟨-, hx⟩ | ⟨-, -, -, hx⟩ | ⟨-, -, hx⟩ <;> rw [hx]
  · exact State.inv_softReset h
  · exact State.inv_acceptStart hirq
  · exact hirq

theorem State.inv_mmioWrite {s : State} (off : Nat) (v : U32) (h : s.inv = true) : (s.mmioWrite off v).inv = true := by
  unfold State.mmioWrite
  split
  · exact State.inv_writeCtrl v h
  split
  · exact h
  split
  · exact State.inv_withStatus h (Status.exclusive_writeOneToClear v (s.inv_iff.mp h).2.2.2.1)
  split
  · exact (State.inv_congr rfl rfl rfl rfl rfl rfl).trans h
  · exact h

@[simp] theorem State.inv_mmioRead (s : State) (off : Nat) : (s.mmioRead off).inv = s.inv := by
  unfold State.mmioRead
  split <;> exact State.inv_congr rfl rfl rfl rfl rfl rfl

theorem hostStep_keeps_inv {s t : State} {a : HostAccess} (h : s.inv = true) (he : hostStep s a = .next t) : t.inv = true := by
  cases a with
  | turn => exact Host.Outcome.next.inj he ▸ h
  | mmioWrite addr width v =>
    simp only [hostStep] at he
    split at he
    · exact Host.Outcome.next.inj he ▸ State.inv_mmioWrite _ v h
    · cases he
  | mmioRead addr width =>
    simp only [hostStep] at he
    split at he
    · exact Host.Outcome.next.inj he ▸ (State.inv_mmioRead s _).trans h
    · cases he
  | lmemWrite addr bytes =>
    simp only [hostStep] at he
    split at he
    · cases he
    split at he
    · cases he
    · rename_i hsize
      have hw : (Window.mk addr bytes.length).inRange s.cfg = true := decide_eq_true (Nat.le_of_not_lt hsize)
      exact Host.Outcome.next.inj he ▸ State.inv_writeBytes h hw le_rfl
  | lmemRead addr n =>
    simp only [hostStep] at he
    split at he
    · cases he
    split at he
    · cases he
    · exact Host.Outcome.next.inj he ▸ (State.inv_congr rfl rfl rfl rfl rfl rfl).trans h
  | powerOnReset => exact Host.Outcome.next.inj he ▸ State.inv_powerOn h

/-! ### The step -/

/-- A step is the sequencer's turn or a host access, on a state that differs in its queue only (log 2). -/
theorem step_cases (s : State) :
    ∃ queue, step s = sequencerTurn { s with hostQueue := queue } ∨ ∃ a, step s = hostStep { s with hostQueue := queue } a := by
  cases hq : s.hostQueue with
  | nil =>
    refine ⟨s.hostQueue, .inl ?_⟩
    show nextMove s = sequencerTurn s
    simp only [nextMove, hq]
  | cons a rest =>
    by_cases ha : a = .turn
    · subst ha
      exact ⟨rest, .inl (by simp only [step, nextMove, hq])⟩
    · exact ⟨rest, .inr ⟨a, step_access hq ha⟩⟩

theorem step_keeps_inv {s t : State} (h : s.inv = true) (he : step s = .next t) : t.inv = true := by
  obtain ⟨queue, hx⟩ := step_cases s
  have hqueue : ({ s with hostQueue := queue } : State).inv = true := (State.inv_congr rfl rfl rfl rfl rfl rfl).trans h
  rcases hx with hx | ⟨a, hx⟩
  · exact sequencerTurn_keeps_inv hqueue (hx.symm.trans he)
  · exact hostStep_keeps_inv hqueue (hx.symm.trans he)

/-- Settles O57: the sequencer's turn and every host access keep the invariant. -/
theorem stepKeepsInvariant : Obligations.StepKeepsInvariant := fun _ _ => step_keeps_inv

end Sys2Proof.Machine
end

section
/-! Little-endian reads and writes of LMEM (00_scope.md R15, 20_memory.md R62). -/

namespace Sys2Proof.Machine

open Sys2Proof

/-- Byte k of a value's little-endian bytes (R15). -/
theorem leBytes_getElem_toNat {n k : Nat} (v : Nat) (hk : k < (leBytes n v).length) :
    ((leBytes n v)[k]).toNat = v / 2 ^ (8 * k) % 256 := by
  induction n generalizing k v with
  | zero => exact absurd hk (by simp)
  | succ n ih =>
    cases k with
    | zero => simp [leBytes]
    | succ k =>
      have hsplit : v / 256 / 2 ^ (8 * k) = v / 2 ^ (8 * (k + 1)) := by
        rw [Nat.div_div_eq_div_mul, Nat.mul_add, pow_add, Nat.mul_comm]; rfl
      simp only [leBytes, List.getElem_cons_succ, ih, hsplit]

/-- A written byte sequence stands at its addresses. -/
theorem Lmem.byte_writeBytes_inside (m : Lmem) (a : Nat) {k : Nat} (bs : List Byte) (hk : k < bs.length) :
    (m.writeBytes a bs).byte (a + k) = bs[k] := by
  induction bs generalizing m a k with
  | nil => exact absurd hk (by simp)
  | cons b bs ih =>
    cases k with
    | zero =>
      show (Lmem.writeBytes (m.writeByte a b) (a + 1) bs).byte a = b
      rw [Lmem.byte_writeBytes_outside _ _ _ _ (by omega), Lmem.byte_writeByte_same]
    | succ k =>
      rw [← Nat.add_assoc, Nat.add_right_comm]
      exact ih (m.writeByte a b) (a + 1) (Nat.lt_of_succ_lt_succ hk)

theorem Lmem.read_write_same (m : Lmem) (a n v : Nat) : (m.write a n v).read a n = v % 256 ^ n := by
  have hbytes : (m.write a n v).bytes a n = leBytes n v := by
    simpa [Lmem.write] using Lmem.bytes_writeBytes_same m a (leBytes n v)
  rw [Lmem.read, hbytes, leNat_leBytes]

/-- A little-endian read is the sum of its bytes by powers of 256 (R15 MemRead). -/
theorem Lmem.read_eq_sum (m : Lmem) (a n : Nat) :
    m.read a n = ((List.range n).map fun k => (m.byte (a + k)).toNat * 256 ^ k).sum := by
  induction n generalizing a with
  | zero => rfl
  | succ n ih =>
    have htail : ∀ k, (m.byte (a + (k + 1))).toNat * 256 ^ (k + 1) = 256 * ((m.byte (a + 1 + k)).toNat * 256 ^ k) := by
      intro k
      rw [Nat.add_right_comm a 1 k, pow_succ]
      ring_nf
    calc m.read a (n + 1)
        = (m.byte a).toNat + 256 * m.read (a + 1) n := rfl
      _ = (m.byte a).toNat + ((List.range n).map fun k => (m.byte (a + (k + 1))).toNat * 256 ^ (k + 1)).sum := by
        simp only [ih, htail, List.sum_map_mul_left]
      _ = _ := by simp [List.range_succ_eq_map, Function.comp_def]

/-- Settles O47. -/
theorem littleEndianMemory : Obligations.LittleEndianMemory := by
  intro m a n v
  refine ⟨Lmem.read_write_same m a n v, fun k hk => ?_, fun x hx => ?_, Lmem.read_eq_sum m a n⟩
  · rw [Lmem.write, Lmem.byte_writeBytes_inside m a (leBytes n v) (by simpa using hk), leBytes_getElem_toNat]
  · exact Lmem.byte_writeBytes_outside m a _ x (by simpa [OutsideRange] using hx)

end Sys2Proof.Machine
end

section
/-! Binary64 encodings and their values (00_scope.md R13): an encoding without its sign is a magnitude `mag`, and
`magVal mag` is its value in units of 2^-1074. -/

namespace Sys2Proof.Machine

open Sys2Proof

/-! ### The fields of an encoding -/

theorem fExp_eq (x : F64) : fExp x = x.toNat / 2 ^ 52 % 2 ^ 11 := by
  simp [fExp, BitVec.extractLsb'_toNat, Nat.shiftRight_eq_div_pow]

theorem fFrac_eq (x : F64) : fFrac x = x.toNat % 2 ^ 52 := by
  simp [fFrac, BitVec.extractLsb'_toNat]

theorem fSign_eq (x : F64) : fSign x = decide (2 ^ 63 ≤ x.toNat) := by
  have hx := x.isLt
  rw [fSign, BitVec.getLsbD, Nat.testBit_eq_decide_div_mod_eq, decide_eq_decide]
  omega

theorem fFrac_lt (x : F64) : fFrac x < 2 ^ 52 := by
  rw [fFrac_eq]
  exact Nat.mod_lt _ (by norm_num)

theorem fMant_lt (x : F64) : fMant x < 2 ^ 53 := by
  have hfrac := fFrac_lt x
  rw [fMant]
  split <;> omega

theorem fPos_lt (x : F64) : fPos x < 2047 := by
  have hexp : fExp x < 2 ^ 11 := fExp_eq x ▸ Nat.mod_lt _ (by norm_num)
  rw [fPos]
  omega

/-! ### Negation -/

@[simp] theorem fExp_fNeg (x : F64) : fExp (fNeg x) = fExp x := by
  rw [fExp, fNeg, BitVec.extractLsb'_xor, show (0x8000000000000000 : F64).extractLsb' 52 11 = 0#11 from rfl, BitVec.xor_zero, fExp]

@[simp] theorem fFrac_fNeg (x : F64) : fFrac (fNeg x) = fFrac x := by
  rw [fFrac, fNeg, BitVec.extractLsb'_xor, show (0x8000000000000000 : F64).extractLsb' 0 52 = 0#52 from rfl, BitVec.xor_zero, fFrac]

@[simp] theorem fSign_fNeg (x : F64) : fSign (fNeg x) = !fSign x := by
  rw [fSign, fNeg, BitVec.getLsbD_xor, show (0x8000000000000000 : F64).getLsbD 63 = true from rfl, Bool.xor_true, fSign]

@[simp] theorem fMant_fNeg (x : F64) : fMant (fNeg x) = fMant x := by simp [fMant]
@[simp] theorem fPos_fNeg (x : F64) : fPos (fNeg x) = fPos x := by simp [fPos]
@[simp] theorem fIsFinite_fNeg (x : F64) : fIsFinite (fNeg x) = fIsFinite x := by simp [fIsFinite]

@[simp] theorem fVal_fNeg (x : F64) : fVal (fNeg x) = -fVal x := by
  cases h : fSign x <;> simp [fVal, h]

/-! ### Putting a sign on a magnitude -/

theorem withSign_toNat {neg : Bool} {mag : Nat} (h : mag < 2 ^ 63) :
    (withSign neg mag).toNat = (if neg then 2 ^ 63 else 0) + mag := by
  rw [withSign, BitVec.toNat_ofNat]
  split <;> omega

theorem fSign_withSign {neg : Bool} {mag : Nat} (h : mag < 2 ^ 63) : fSign (withSign neg mag) = neg := by
  rw [fSign_eq, withSign_toNat h]
  cases neg
  · simpa using h
  · simp

theorem fExp_withSign {neg : Bool} {mag : Nat} (h : mag < 2 ^ 63) : fExp (withSign neg mag) = mag / 2 ^ 52 := by
  rw [fExp_eq, withSign_toNat h]
  split <;> omega

theorem fFrac_withSign {neg : Bool} {mag : Nat} (h : mag < 2 ^ 63) : fFrac (withSign neg mag) = mag % 2 ^ 52 := by
  rw [fFrac_eq, withSign_toNat h]
  split <;> omega

/-- The magnitudes of the finite numbers are those below that of +∞. -/
theorem fIsFinite_withSign {neg : Bool} {mag : Nat} (h : mag ≤ magInf) : fIsFinite (withSign neg mag) = true ↔ mag < magInf := by
  rw [magInf] at h ⊢
  rw [fIsFinite, fExp_withSign (by omega), bne_iff_ne]
  omega

/-- The value of a magnitude `y * 2^52 + r`: the position y and the significand r, which may have carried into the
next position. -/
theorem fMant_mul_withSign {neg : Bool} {y r : Nat} (hr : r ≤ 2 ^ 53) (hy : y = 0 ∨ 2 ^ 52 ≤ r) (h : y * 2 ^ 52 + r < magInf) :
    fMant (withSign neg (y * 2 ^ 52 + r)) * 2 ^ fPos (withSign neg (y * 2 ^ 52 + r)) = r * 2 ^ y := by
  have hmag : y * 2 ^ 52 + r < 2 ^ 63 := h.trans (by decide)
  rw [fMant, fPos, fExp_withSign hmag, fFrac_withSign hmag]
  rcases Nat.lt_or_ge r (2 ^ 52) with hlow | hlow
  · obtain rfl : y = 0 := by omega
    rw [if_pos (by omega), show (0 * 2 ^ 52 + r) % 2 ^ 52 = r by omega, show (0 * 2 ^ 52 + r) / 2 ^ 52 - 1 = 0 by omega]
  · rcases Nat.lt_or_ge r (2 ^ 53) with hcarry | hcarry
    · rw [if_neg (by omega), show (y * 2 ^ 52 + r) % 2 ^ 52 + 2 ^ 52 = r by omega, show (y * 2 ^ 52 + r) / 2 ^ 52 - 1 = y by omega]
    · obtain rfl : r = 2 ^ 53 := by omega
      rw [if_neg (by omega), show (y * 2 ^ 52 + 2 ^ 53) % 2 ^ 52 + 2 ^ 52 = 2 ^ 52 by omega,
        show (y * 2 ^ 52 + 2 ^ 53) / 2 ^ 52 - 1 = 1 + y by omega, pow_add, ← mul_assoc]
      rfl

/-- Every value is a multiple of 2^y or, above the lowest position, smaller than a significand of 53 bits there. -/
theorem fVal_grid (c : F64) (y : Nat) : (2 : Int) ^ y ∣ fVal c ∨ (0 < y ∧ fVal c < 2 ^ 52 * 2 ^ y) := by
  have hval : fVal c = fMant c * 2 ^ fPos c ∨ fVal c = -(fMant c * 2 ^ fPos c) := by
    cases h : fSign c <;> simp [fVal, h]
  rcases Nat.lt_or_ge (fPos c) y with hpos | hpos
  · refine .inr ⟨by omega, ?_⟩
    have hbound : fMant c * 2 ^ fPos c < 2 ^ 52 * 2 ^ y :=
      calc fMant c * 2 ^ fPos c < 2 ^ 53 * 2 ^ fPos c := Nat.mul_lt_mul_of_pos_right (fMant_lt c) (by positivity)
        _ = 2 ^ 52 * 2 ^ (fPos c + 1) := by ring
        _ ≤ 2 ^ 52 * 2 ^ y := Nat.mul_le_mul_left _ (Nat.pow_le_pow_right (by norm_num) hpos)
    have hcast : (fMant c : Int) * 2 ^ fPos c < 2 ^ 52 * 2 ^ y := by exact_mod_cast hbound
    have hnonneg : (0 : Int) ≤ fMant c * 2 ^ fPos c := by positivity
    rcases hval with h | h <;> rw [h] <;> linarith
  · left
    have hdvd : (2 : Int) ^ y ∣ fMant c * 2 ^ fPos c := Dvd.dvd.mul_left (pow_dvd_pow 2 hpos) _
    rcases hval with h | h <;> rw [h]
    · exact hdvd
    · exact hdvd.neg_right

end Sys2Proof.Machine
end

section
/-! Rounding to nearest, ties to even (00_scope.md R13): what `roundShift` and `roundMag` compute, said of an exact
quotient N / D that the rounded significand stands for, and what makes a binary64 number the nearest one. -/

namespace Sys2Proof.Machine

open Sys2Proof

/-! ### The nearest integer to a quotient -/

/-- r is an integer nearest to N / D, and an even one if another is as near. -/
structure NearestQuotient (r N D : Nat) : Prop where
  above : 2 * (r * D) ≤ 2 * N + D
  below : 2 * N ≤ 2 * (r * D) + D
  tie : 2 * (r * D) = 2 * N + D ∨ 2 * N = 2 * (r * D) + D → r % 2 = 0

theorem NearestQuotient.of_eq {r N D : Nat} (hD : 0 < D) (h : r * D = N) : NearestQuotient r N D :=
  ⟨by omega, by omega, fun htie => by omega⟩

theorem NearestQuotient.scale {r N D c : Nat} (hc : 0 < c) (h : NearestQuotient r N D) : NearestQuotient r (N * c) (D * c) where
  above := by linarith [Nat.mul_le_mul_right c h.above]
  below := by linarith [Nat.mul_le_mul_right c h.below]
  tie htie := by
    refine h.tie (htie.imp ?_ ?_) <;> intro heq <;> apply Nat.eq_of_mul_eq_mul_right hc <;> linarith

/-- The significand m stands for N / D: it is that quotient, or a long odd number within 1 of it, whose lowest bit is
the sticky bit of the division. -/
def StandsFor (m N D : Nat) : Prop :=
  m * D = N ∨ (m % 2 = 1 ∧ 2 ^ 54 < m ∧ (m - 1) * D < N ∧ N < (m + 1) * D)

/-- A significand and the quotient it stands for lie on the same side of every multiple of half of 2^k, where k drops
at least the sticky bit and one more. -/
theorem StandsFor.same_side {m N D k : Nat} (hm : StandsFor m N D) (hk : 2 ^ 54 < m → 2 ≤ k) (hD : 0 < D) (h : Nat) :
    (h * 2 ^ k * D ≤ 2 * N ↔ h * 2 ^ k ≤ 2 * m) ∧ (2 * N ≤ h * 2 ^ k * D ↔ 2 * m ≤ h * 2 ^ k) := by
  rcases hm with rfl | ⟨hodd, hlong, hlow, hhigh⟩
  · rw [← mul_assoc]
    exact ⟨Nat.mul_le_mul_right_iff hD, Nat.mul_le_mul_right_iff hD⟩
  · have hfour : h * 2 ^ k = 4 * (h * 2 ^ (k - 2)) := by
      rw [← Nat.sub_add_cancel (hk hlong), pow_add]
      simp only [Nat.add_sub_cancel]
      ring
    rw [hfour]
    generalize h * 2 ^ (k - 2) = j
    rcases Nat.lt_or_ge (4 * j) (2 * m) with hj | hj
    · have hbelow : 4 * j * D ≤ 2 * ((m - 1) * D) := by
        rw [← mul_assoc]
        exact Nat.mul_le_mul_right D (by omega)
      constructor <;> constructor <;> intro <;> omega
    · have habove : 2 * ((m + 1) * D) ≤ 4 * j * D := by
        rw [← mul_assoc]
        exact Nat.mul_le_mul_right D (by omega)
      constructor <;> constructor <;> intro <;> omega

theorem nearestQuotient_roundShift {m N D k : Nat} (hm : StandsFor m N D) (hk : 2 ^ 54 < m → 2 ≤ k) (hD : 0 < D) :
    NearestQuotient (roundShift m k) N (2 ^ k * D) := by
  have hstep : 0 < 2 ^ k * D := by positivity
  have hm_eq : m / 2 ^ k * 2 ^ k + m % 2 ^ k = m := Nat.div_add_mod' m (2 ^ k)
  have hm_lt : m % 2 ^ k < 2 ^ k := Nat.mod_lt m (Nat.two_pow_pos k)
  have hside : ∀ j,
      (2 * (m / 2 ^ k * (2 ^ k * D)) + j * (2 ^ k * D) ≤ 2 * N ↔ j * 2 ^ k ≤ 2 * (m % 2 ^ k)) ∧
      (2 * N ≤ 2 * (m / 2 ^ k * (2 ^ k * D)) + j * (2 ^ k * D) ↔ 2 * (m % 2 ^ k) ≤ j * 2 ^ k) := by
    intro j
    have hsplit : (2 * (m / 2 ^ k) + j) * 2 ^ k * D = 2 * (m / 2 ^ k * (2 ^ k * D)) + j * (2 ^ k * D) := by ring
    have hsplit' : (2 * (m / 2 ^ k) + j) * 2 ^ k = 2 * (m / 2 ^ k * 2 ^ k) + j * 2 ^ k := by ring
    have hboth := hm.same_side hk hD (2 * (m / 2 ^ k) + j)
    rw [hsplit, hsplit'] at hboth
    omega
  have hfloor := (hside 0).1
  have hhalf := hside 1
  have hceil := (hside 2).2
  simp only [roundShift, Bool.or_eq_true, Bool.and_eq_true, decide_eq_true_eq, beq_iff_eq]
  split
  · have hup : (m / 2 ^ k + 1) * (2 ^ k * D) = m / 2 ^ k * (2 ^ k * D) + 2 ^ k * D := Nat.succ_mul _ _
    constructor <;> omega
  · constructor <;> omega

theorem roundShift_bounds (m k : Nat) : m / 2 ^ k ≤ roundShift m k ∧ roundShift m k ≤ m / 2 ^ k + 1 := by
  simp only [roundShift]
  split <;> omega

/-! ### The position and the significand of a rounded magnitude -/

/-- The position of the last bit that `roundMag` keeps, counted from 2^-1074. -/
def roundPos (bias m x : Nat) : Nat := (x + (Nat.log2 m + 1) + 1021) - bias

/-- The significand that `roundMag` keeps. -/
def roundSig (bias m x : Nat) : Nat :=
  if roundPos bias m x + bias ≤ x + 1074 then m * 2 ^ (x + 1074 - (roundPos bias m x + bias))
  else roundShift m (roundPos bias m x + bias - (x + 1074))

theorem roundMag_eq (bias x : Nat) {m : Nat} (hm : m ≠ 0) :
    roundMag bias m x = min (roundPos bias m x * 2 ^ 52 + roundSig bias m x) magInf := by
  rw [roundMag, if_neg hm]
  rfl

theorem roundMag_le (bias m x : Nat) : roundMag bias m x ≤ magInf := by
  by_cases hm : m = 0
  · simp [roundMag, hm]
  · exact roundMag_eq bias x hm ▸ Nat.min_le_right _ _

/-- Below +∞ the magnitude is the position and the significand. -/
theorem roundMag_eq_of_lt {bias m x : Nat} (hm : m ≠ 0) (h : roundMag bias m x < magInf) :
    roundMag bias m x = roundPos bias m x * 2 ^ 52 + roundSig bias m x := by
  rw [roundMag_eq bias x hm] at h ⊢
  exact min_eq_left (min_lt_iff.mp h |>.resolve_right (lt_irrefl _)).le

section
variable {bias m x : Nat}

/-- Above the lowest position the kept significand starts at the leading bit of m. -/
theorem roundPos_cases (bias m x : Nat) : x + Nat.log2 m + 1022 ≤ roundPos bias m x + bias ∧
    (roundPos bias m x = 0 ∨ roundPos bias m x + bias = x + Nat.log2 m + 1022) := by
  rw [roundPos]
  omega

/-- The kept significand has at most 53 bits, before a carry, and above the lowest position it has all 53. -/
theorem roundSig_bounds (hm : m ≠ 0) :
    roundSig bias m x ≤ 2 ^ 53 ∧ (roundPos bias m x = 0 ∨ 2 ^ 52 ≤ roundSig bias m x) := by
  have hlow : 2 ^ Nat.log2 m ≤ m := Nat.log2_self_le hm
  have hhigh : m < 2 ^ (Nat.log2 m + 1) := Nat.lt_log2_self
  obtain ⟨hle, hpos⟩ := roundPos_cases bias m x
  generalize Nat.log2 m = l at *
  rw [roundSig]
  split
  · constructor
    · calc m * 2 ^ (x + 1074 - (roundPos bias m x + bias))
          ≤ 2 ^ (l + 1) * 2 ^ (x + 1074 - (roundPos bias m x + bias)) := Nat.mul_le_mul_right _ hhigh.le
        _ = 2 ^ (l + 1 + (x + 1074 - (roundPos bias m x + bias))) := (pow_add ..).symm
        _ ≤ 2 ^ 53 := Nat.pow_le_pow_right (by norm_num) (by omega)
    · refine hpos.imp_right fun hpos => ?_
      calc 2 ^ 52 = 2 ^ (l + (x + 1074 - (roundPos bias m x + bias))) := by congr 1; omega
        _ = 2 ^ l * 2 ^ (x + 1074 - (roundPos bias m x + bias)) := pow_add ..
        _ ≤ m * 2 ^ (x + 1074 - (roundPos bias m x + bias)) := Nat.mul_le_mul_right _ hlow
  · obtain ⟨hge, hle'⟩ := roundShift_bounds m (roundPos bias m x + bias - (x + 1074))
    constructor
    · refine hle'.trans (Nat.div_lt_of_lt_mul (hhigh.trans_le ?_))
      rw [← pow_add]
      exact Nat.pow_le_pow_right (by norm_num) (by omega)
    · refine hpos.imp_right fun hpos => ((Nat.le_div_iff_mul_le (Nat.two_pow_pos _)).mpr (le_trans ?_ hlow)).trans hge
      rw [← pow_add]
      exact Nat.pow_le_pow_right (by norm_num) (by omega)

variable {N D : Nat}

/-- A long significand has more than 53 bits. -/
theorem log2_of_long (h : 2 ^ 54 < m) : 54 ≤ Nat.log2 m := (Nat.le_log2 (by omega)).mpr h.le

theorem nearestQuotient_roundSig (hm : StandsFor m N D) (hD : 0 < D) :
    NearestQuotient (roundSig bias m x) (N * 2 ^ (x + 1074)) (2 ^ roundPos bias m x * (2 ^ bias * D)) := by
  obtain ⟨hle, -⟩ := roundPos_cases bias m x
  rw [roundSig, ← mul_assoc, ← pow_add]
  generalize roundPos bias m x + bias = p at *
  split
  case isTrue hp =>
    have hexact : m * D = N := by
      rcases hm with h | ⟨-, hlong, -⟩
      · exact h
      · have := log2_of_long hlong
        omega
    refine NearestQuotient.of_eq (by positivity) ?_
    calc m * 2 ^ (x + 1074 - p) * (2 ^ p * D) = m * D * (2 ^ (x + 1074 - p) * 2 ^ p) := by ring
      _ = N * 2 ^ (x + 1074) := by rw [← pow_add, Nat.sub_add_cancel hp, hexact]
  case isFalse hp =>
    have hk : 2 ^ 54 < m → 2 ≤ p - (x + 1074) := fun hlong => by
      have := log2_of_long hlong
      omega
    have hscale : 2 ^ (p - (x + 1074)) * D * 2 ^ (x + 1074) = 2 ^ p * D := by
      rw [mul_right_comm, ← pow_add, Nat.sub_add_cancel (by omega)]
    have hnear := (nearestQuotient_roundShift hm hk hD).scale (Nat.two_pow_pos (x + 1074))
    rwa [hscale] at hnear

/-- Above the lowest position the exact value has a 53-bit significand too. -/
theorem roundPos_binade (hm0 : m ≠ 0) (hm : StandsFor m N D) :
    roundPos bias m x = 0 ∨ 2 ^ 52 * 2 ^ roundPos bias m x * (2 ^ bias * D) ≤ N * 2 ^ (x + 1074) := by
  refine (roundPos_cases bias m x).2.imp_right fun hpos => ?_
  have hlow : 2 ^ Nat.log2 m ≤ m := Nat.log2_self_le hm0
  have hleading : 2 ^ Nat.log2 m * D ≤ N := by
    rcases hm with rfl | ⟨hodd, hlong, hbelow, -⟩
    · exact Nat.mul_le_mul_right D hlow
    · have heven : 2 ^ Nat.log2 m = 2 * 2 ^ (Nat.log2 m - 1) := by
        have := log2_of_long hlong
        rw [← pow_succ', Nat.sub_add_cancel (by omega)]
      exact (Nat.mul_le_mul_right D (by omega)).trans hbelow.le
  calc 2 ^ 52 * 2 ^ roundPos bias m x * (2 ^ bias * D) = 2 ^ 52 * 2 ^ (roundPos bias m x + bias) * D := by ring
    _ = 2 ^ Nat.log2 m * D * 2 ^ (x + 1074) := by
      rw [hpos, ← pow_add, mul_right_comm, ← pow_add, show 52 + (x + Nat.log2 m + 1022) = Nat.log2 m + (x + 1074) by omega]
    _ ≤ N * 2 ^ (x + 1074) := Nat.mul_le_mul_right _ hleading

end

/-! ### The nearest binary64 number -/

/-- Of the multiples of g, none is nearer to N / D than one within g / 2 of it, and none other is as near unless N / D
lies halfway. -/
theorem nearest_of_multiple {v w g D N : Int} (hD : 0 < D) (hv : g ∣ v) (hw : g ∣ w) (hnear : 2 * (v * D - N).natAbs ≤ g * D) :
    (v * D - N).natAbs ≤ (w * D - N).natAbs ∧
    ((v * D - N).natAbs = (w * D - N).natAbs → w ≠ v → 2 * (v * D - N).natAbs = g * D) := by
  rcases eq_or_ne w v with rfl | hne
  · exact ⟨le_rfl, fun _ h => absurd rfl h⟩
  · have hstep : g * D ≤ (v * D - w * D).natAbs := by
      rw [← Int.abs_eq_natAbs, ← sub_mul, abs_mul, abs_of_pos hD]
      exact mul_le_mul_of_nonneg_right (Int.le_of_dvd (abs_pos.mpr (sub_ne_zero.mpr hne.symm)) ((dvd_abs _ _).mpr (dvd_sub hv hw))) hD.le
    constructor <;> omega

/-- A number whose significand is the nearest integer at its position is the nearest binary64 number. -/
theorem nearestEven_of_nearestQuotient {z : F64} {y r N D : Nat} (hval : fVal z = r * 2 ^ y) (hfrac : fFrac z % 2 = r % 2)
    (hD : 0 < D) (hnear : NearestQuotient r N (2 ^ y * D)) (hbinade : y = 0 ∨ 2 ^ 52 * 2 ^ y * D ≤ N) :
    NearestEven z D N := by
  intro c _
  have hDz : (0 : Int) < D := by exact_mod_cast hD
  have hmul : (r : Int) * (2 ^ y * D) = fVal z * D := by rw [hval, mul_assoc]
  have habove : 2 * (fVal z * D) ≤ 2 * N + 2 ^ y * D := by rw [← hmul]; exact_mod_cast hnear.above
  have hbelow : 2 * (N : Int) ≤ 2 * (fVal z * D) + 2 ^ y * D := by rw [← hmul]; exact_mod_cast hnear.below
  have htie : 2 * (fVal z * D - N).natAbs = (2 : Int) ^ y * D → r % 2 = 0 := fun h => hnear.tie <| by
    have hsides : 2 * ((r : Int) * (2 ^ y * D)) = 2 * N + 2 ^ y * D ∨ 2 * (N : Int) = 2 * (r * (2 ^ y * D)) + 2 ^ y * D := by
      rw [hmul]
      omega
    exact_mod_cast hsides
  have hhalf : 2 * ((fVal z * D - N).natAbs : Int) ≤ 2 ^ y * D := by omega
  have hgrid : ∀ w, (2 : Int) ^ y ∣ w → _ := fun w hw => nearest_of_multiple hDz (hval ▸ Dvd.intro_left _ rfl) hw hhalf
  rcases fVal_grid c y with hc | ⟨hy, hc⟩
  · obtain ⟨hle, heq⟩ := hgrid _ hc
    exact ⟨hle, fun h hne => hfrac.trans (htie (heq h hne))⟩
  · have hlt : (fVal z * D - N).natAbs < (fVal c * D - N).natAbs := by
      have hle := (hgrid (2 ^ 52 * 2 ^ y) (Dvd.intro_left _ rfl)).1
      have hbinadeZ : (2 : Int) ^ 52 * 2 ^ y * D ≤ N := by exact_mod_cast hbinade.resolve_left hy.ne'
      have hcD : fVal c * D < 2 ^ 52 * 2 ^ y * D := mul_lt_mul_of_pos_right hc hDz
      omega
    exact ⟨hlt.le, fun h => absurd h hlt.ne⟩

/-! ### What keeps a number nearest -/

/-- A common factor of the scale and the exact value is of no matter. -/
theorem nearestEven_mul_left {z : F64} {k scale exact : Int} (hk : k ≠ 0) :
    NearestEven z (k * scale) (k * exact) ↔ NearestEven z scale exact := by
  have hfactor : ∀ v : Int, (v * (k * scale) - k * exact).natAbs = k.natAbs * (v * scale - exact).natAbs := fun v => by
    rw [← Int.natAbs_mul]
    congr 1
    ring
  simp only [NearestEven, hfactor, Nat.mul_le_mul_left_iff (Int.natAbs_pos.mpr hk), Nat.mul_right_inj (Int.natAbs_ne_zero.mpr hk)]

/-- The nearest number of the opposite value has the opposite sign. -/
theorem nearestEven_neg {z z' : F64} {scale exact : Int} (h : NearestEven z scale exact) (hval : fVal z' = -fVal z)
    (hfrac : fFrac z' = fFrac z) : NearestEven z' scale (-exact) := by
  intro c hc
  obtain ⟨hle, htie⟩ := h (fNeg c) (by simpa using hc)
  rw [fVal_fNeg] at hle htie
  have hflip : ∀ v : Int, (v * scale - -exact).natAbs = (-v * scale - exact).natAbs := fun v => by
    rw [← Int.natAbs_neg]
    congr 1
    ring
  rw [hflip, hflip, hval, hfrac, neg_neg]
  exact ⟨hle, fun heq hne => htie heq fun h => hne (by omega)⟩

theorem nearestEven_of_exact {z : F64} {scale exact : Int} (hs : scale ≠ 0) (h : fVal z * scale = exact) : NearestEven z scale exact := by
  intro c _
  rw [h, sub_self, Int.natAbs_zero]
  refine ⟨Nat.zero_le _, fun heq hne => absurd ?_ hne⟩
  have hc : fVal c * scale = fVal z * scale := by omega
  exact mul_right_cancel₀ hs hc

/-! ### The value of a rounded magnitude -/

/-! ### The value of a rounded magnitude -/

/-- A natural number with a sign. -/
def signed (neg : Bool) (n : Nat) : Int := if neg then -n else n

@[simp] theorem signed_zero (neg : Bool) : signed neg 0 = 0 := by cases neg <;> rfl

theorem signed_mul (neg : Bool) (n k : Nat) : signed neg (n * k) = signed neg n * k := by cases neg <;> simp [signed]

theorem fVal_eq_signed (a : F64) : fVal a = signed (fSign a) (fMant a * 2 ^ fPos a) := rfl

theorem fVal_withSign {neg : Bool} {y r : Nat} (hr : r ≤ 2 ^ 53) (hy : y = 0 ∨ 2 ^ 52 ≤ r) (h : y * 2 ^ 52 + r < magInf) :
    fVal (withSign neg (y * 2 ^ 52 + r)) = signed neg (r * 2 ^ y) := by
  rw [fVal_eq_signed, fMant_mul_withSign hr hy h, fSign_withSign (h.trans (by decide))]

@[simp] theorem fVal_withSign_zero (neg : Bool) : fVal (withSign neg 0) = 0 := by cases neg <;> rfl

/-- A finite rounded magnitude with a sign is the binary64 number nearest to the exact value it was rounded from. -/
theorem nearestEven_roundMag {neg : Bool} {bias m x N D : Nat} (hm : StandsFor m N D) (hD : 0 < D)
    (hfin : fIsFinite (withSign neg (roundMag bias m x)) = true) :
    NearestEven (withSign neg (roundMag bias m x)) ((2 ^ bias * D : Nat)) (signed neg (N * 2 ^ (x + 1074))) := by
  have hscale : 0 < 2 ^ bias * D := by positivity
  rcases Nat.eq_zero_or_pos m with rfl | hm0
  · have hN : N = 0 := by
      rcases hm with h | ⟨hodd, -⟩
      · rw [← h, zero_mul]
      · exact absurd hodd (by decide)
    refine nearestEven_of_exact (by exact_mod_cast hscale.ne') ?_
    simp [roundMag, hN]
  · have hlt := (fIsFinite_withSign (roundMag_le bias m x)).mp hfin
    obtain ⟨hr, hy⟩ := roundSig_bounds (bias := bias) (x := x) hm0.ne'
    have heq := roundMag_eq_of_lt hm0.ne' hlt
    rw [heq] at hlt ⊢
    have hsize := hlt.trans (show magInf < 2 ^ 63 by decide)
    have hpositive : NearestEven (withSign false (roundPos bias m x * 2 ^ 52 + roundSig bias m x)) ((2 ^ bias * D : Nat))
        ((N * 2 ^ (x + 1074) : Nat)) := by
      refine nearestEven_of_nearestQuotient (r := roundSig bias m x) (y := roundPos bias m x) ?_ ?_ hscale
        (nearestQuotient_roundSig hm hD) (roundPos_binade hm0.ne' hm)
      · rw [fVal_withSign hr hy hlt]
        simp [signed]
      · rw [fFrac_withSign hsize]
        omega
    cases neg with
    | false => exact hpositive
    | true =>
      refine nearestEven_neg hpositive ?_ ?_
      · rw [fVal_withSign hr hy hlt, fVal_withSign hr hy hlt]
        rfl
      · rw [fFrac_withSign hsize, fFrac_withSign hsize]

/-- The same with a common power of two 2^q taken out of the scale and the exact value. -/
theorem nearestEven_roundMag_cancel {neg : Bool} {bias m x N D p q e : Nat} (hm : StandsFor m N D) (hD : 0 < D)
    (hbias : bias = p + q) (hx : x + 1074 = e + q) (hfin : fIsFinite (withSign neg (roundMag bias m x)) = true) :
    NearestEven (withSign neg (roundMag bias m x)) (2 ^ p * D) (signed neg (N * 2 ^ e)) := by
  have hround := nearestEven_roundMag hm hD hfin
  have hscale : ((2 ^ bias * D : Nat) : Int) = 2 ^ q * (2 ^ p * D) := by
    rw [hbias, pow_add]
    push_cast
    ring
  have hexact : signed neg (N * 2 ^ (x + 1074)) = 2 ^ q * signed neg (N * 2 ^ e) := by
    rw [hx, pow_add, ← mul_assoc, signed_mul]
    push_cast
    ring
  rw [hscale, hexact] at hround
  exact (nearestEven_mul_left (by positivity)).mp hround

end Sys2Proof.Machine
end

section
/-! The binary64 operations are the exact results rounded to nearest, ties to even (00_scope.md R13, R14). -/

namespace Sys2Proof.Machine

open Sys2Proof

section
variable {a b : F64}

/-! ### Finite operands take the finite case of each operation -/

theorem fIsNan_of_finite (h : fIsFinite a = true) : fIsNan a = false := by
  simp_all [fIsFinite, fIsNan]

theorem fIsInf_of_finite (h : fIsFinite a = true) : fIsInf a = false := by
  simp_all [fIsFinite, fIsInf]

theorem fadd_finite (ha : fIsFinite a = true) (hb : fIsFinite b = true) : fadd a b = faddFinite a b := by
  simp [fadd, fIsNan_of_finite, fIsInf_of_finite, ha, hb]

theorem fsub_finite (ha : fIsFinite a = true) (hb : fIsFinite b = true) : fsub a b = fadd a (fNeg b) := by
  simp [fsub, fIsNan_of_finite, ha, hb]

theorem fmul_finite (ha : fIsFinite a = true) (hb : fIsFinite b = true) :
    fmul a b = withSign (fSign a != fSign b) (roundMag 2148 (fMant a * fMant b) (fPos a + fPos b)) := by
  simp [fmul, fIsNan_of_finite, fIsInf_of_finite, ha, hb]

theorem fMant_pos_of_fVal_ne_zero (h : fVal b ≠ 0) : 0 < fMant b := by
  refine Nat.pos_of_ne_zero fun hzero => h ?_
  rw [fVal_eq_signed, hzero, zero_mul, signed_zero]

theorem fdiv_finite (ha : fIsFinite a = true) (hb : fIsFinite b = true) (h : fVal b ≠ 0) : fdiv a b = fdivFinite a b := by
  have hzero : fIsZero b = false := by simp [fIsZero, hb, (fMant_pos_of_fVal_ne_zero h).ne']
  simp [fdiv, fIsNan_of_finite, fIsInf_of_finite, ha, hb, hzero]

/-! ### Each operation -/

theorem signed_bne_mul (s t : Bool) (m n : Nat) : signed (s != t) (m * n) = signed s m * signed t n := by
  cases s <;> cases t <;> simp [signed]

theorem signed_mul_bne (s t : Bool) (n : Nat) : signed t 1 * signed (s != t) n = signed s n := by
  cases s <;> cases t <;> simp [signed]

theorem signed_add (s : Bool) (m n : Nat) : signed s m + signed s n = signed s (m + n) := by
  cases s <;> simp [signed, add_comm]

theorem signed_add_not {s : Bool} {m n : Nat} (h : n ≤ m) : signed s m + signed (!s) n = signed s (m - n) := by
  cases s <;> simp [signed, Nat.cast_sub h] <;> ring

theorem nearestEven_fmul (ha : fIsFinite a = true) (hb : fIsFinite b = true) (hfin : fIsFinite (fmul a b) = true) :
    NearestEven (fmul a b) (2 ^ 1074) (fVal a * fVal b) := by
  rw [fmul_finite ha hb] at hfin ⊢
  have hround := nearestEven_roundMag_cancel (N := fMant a * fMant b) (D := 1) (p := 1074) (q := 1074) (e := fPos a + fPos b)
    (.inl (mul_one _)) one_pos rfl rfl hfin
  have hexact : fMant a * fMant b * 2 ^ (fPos a + fPos b) = fMant a * 2 ^ fPos a * (fMant b * 2 ^ fPos b) := by ring
  rwa [Nat.cast_one, mul_one, hexact, signed_bne_mul] at hround

/-- The significand of a quotient, with its sticky bit, stands for the exact quotient. -/
theorem standsFor_quotient {m n : Nat} (hn : 0 < n) (hn' : n < 2 ^ 53) :
    StandsFor (2 * (m * 2 ^ 110 / n) + (if m * 2 ^ 110 % n = 0 then 0 else 1)) (m * 2 ^ 111) n := by
  have hdiv : m * 2 ^ 110 / n * n + m * 2 ^ 110 % n = m * 2 ^ 110 := Nat.div_add_mod' _ _
  have hrem : m * 2 ^ 110 % n < n := Nat.mod_lt _ hn
  split
  case isTrue hzero =>
    refine .inl ?_
    rw [add_zero, mul_assoc]
    omega
  case isFalse hzero =>
    have hm : 0 < m := Nat.pos_of_ne_zero fun h => hzero (by simp [h])
    have hlong : 2 ^ 57 ≤ m * 2 ^ 110 / n := (Nat.le_div_iff_mul_le hn).mpr (by omega)
    refine .inr ⟨by omega, by omega, ?_, ?_⟩
    · rw [Nat.add_sub_cancel, mul_assoc]
      omega
    · rw [add_assoc, ← mul_add_one 2, mul_assoc, add_one_mul]
      omega

theorem nearestEven_fdiv (ha : fIsFinite a = true) (hb : fIsFinite b = true) (hzero : fVal b ≠ 0)
    (hfin : fIsFinite (fdiv a b) = true) : NearestEven (fdiv a b) (fVal b) (fVal a * 2 ^ 1074) := by
  rw [fdiv_finite ha hb hzero] at hfin ⊢
  have hn := fMant_pos_of_fVal_ne_zero hzero
  have hpos := fPos_lt b
  have hround := nearestEven_roundMag_cancel (p := fPos b) (q := 2311 - fPos b) (e := fPos a + 963)
    (standsFor_quotient hn (fMant_lt b)) hn (by omega) (by omega) hfin
  have hexact : fMant a * 2 ^ 111 * 2 ^ (fPos a + 963) = fMant a * 2 ^ fPos a * 2 ^ 1074 := by
    rw [pow_add, mul_mul_mul_comm, ← pow_add]
  have hsign : signed (fSign b) 1 ≠ 0 := by cases fSign b <;> decide
  have hscale : signed (fSign b) 1 * (2 ^ fPos b * fMant b) = fVal b := by
    rw [fVal_eq_signed, ← one_mul (fMant b * 2 ^ fPos b), signed_mul, mul_comm (2 ^ fPos b)]
    push_cast
    rfl
  have hresult : signed (fSign b) 1 * signed (fSign a != fSign b) (fMant a * 2 ^ fPos a * 2 ^ 1074) = fVal a * 2 ^ 1074 := by
    rw [signed_mul_bne, signed_mul, fVal_eq_signed, Nat.cast_pow]
    rfl
  rw [hexact, ← nearestEven_mul_left hsign, hscale, hresult] at hround
  exact hround

theorem nearestEven_fadd (ha : fIsFinite a = true) (hb : fIsFinite b = true) (hfin : fIsFinite (fadd a b) = true) :
    NearestEven (fadd a b) 1 (fVal a + fVal b) := by
  have hround : ∀ {neg m x}, fIsFinite (withSign neg (roundMag 1074 m x)) = true →
      NearestEven (withSign neg (roundMag 1074 m x)) 1 (signed neg (m * 2 ^ x)) := fun {neg m x} h => by
    have hcancel := nearestEven_roundMag_cancel (D := 1) (p := 0) (q := 1074) (e := x) (.inl (mul_one m)) one_pos rfl rfl h
    rwa [pow_zero, Nat.cast_one, mul_one] at hcancel
  have ha' : fMant a * 2 ^ fPos a = fMant a * 2 ^ (fPos a - min (fPos a) (fPos b)) * 2 ^ min (fPos a) (fPos b) := by
    rw [mul_assoc, ← pow_add, Nat.sub_add_cancel (min_le_left _ _)]
  have hb' : fMant b * 2 ^ fPos b = fMant b * 2 ^ (fPos b - min (fPos a) (fPos b)) * 2 ^ min (fPos a) (fPos b) := by
    rw [mul_assoc, ← pow_add, Nat.sub_add_cancel (min_le_right _ _)]
  rw [fadd_finite ha hb] at hfin ⊢
  rw [fVal_eq_signed, fVal_eq_signed, ha', hb']
  revert hfin
  simp only [faddFinite]
  generalize fMant a * 2 ^ (fPos a - min (fPos a) (fPos b)) = m, fMant b * 2 ^ (fPos b - min (fPos a) (fPos b)) = n,
    min (fPos a) (fPos b) = x
  split
  case isTrue hsame =>
    intro hfin
    rw [← eq_of_beq hsame, signed_add, ← add_mul]
    exact hround hfin
  case isFalse hsame =>
    have hopposite : fSign b = !fSign a := Bool.eq_not.mpr fun h => hsame (beq_iff_eq.mpr h.symm)
    split
    case isTrue heq =>
      intro
      refine nearestEven_of_exact one_ne_zero ?_
      rw [hopposite, heq, signed_add_not le_rfl, Nat.sub_self, signed_zero, fVal_withSign_zero, zero_mul]
    case isFalse hne =>
      split
      case isTrue hlt =>
        intro hfin
        rw [hopposite, signed_add_not (Nat.mul_le_mul_right _ hlt.le), ← Nat.sub_mul]
        exact hround hfin
      case isFalse hge =>
        intro hfin
        have hsign : fSign a = !fSign b := by rw [hopposite, Bool.not_not]
        rw [add_comm, hsign, signed_add_not (Nat.mul_le_mul_right _ (Nat.le_of_not_lt hge)), ← Nat.sub_mul]
        exact hround hfin

theorem nearestEven_fsub (ha : fIsFinite a = true) (hb : fIsFinite b = true) (hfin : fIsFinite (fsub a b) = true) :
    NearestEven (fsub a b) 1 (fVal a - fVal b) := by
  rw [fsub_finite ha hb] at hfin ⊢
  simpa [sub_eq_add_neg] using nearestEven_fadd ha (by simpa using hb) hfin

end

/-! ### Integers and back -/

/-- f(n) is exact below 2^53. -/
theorem fOfNat_exact {n : Nat} (h : n < 2 ^ 53) : fIsFinite (fOfNat n) = true ∧ fVal (fOfNat n) = (n : Int) * 2 ^ 1074 := by
  rcases Nat.eq_zero_or_pos n with rfl | hn
  · exact ⟨rfl, by rw [fOfNat, roundMag, if_pos rfl, fVal_withSign_zero, Nat.cast_zero, zero_mul]⟩
  · have hlog : Nat.log2 n ≤ 52 := Nat.le_of_lt_succ ((Nat.log2_lt hn.ne').mpr h)
    obtain ⟨hr, hy⟩ := roundSig_bounds (bias := 1074) (x := 1074) hn.ne'
    have hpos : roundPos 1074 n 1074 = Nat.log2 n + 1022 := by rw [roundPos]; omega
    have hsig : roundSig 1074 n 1074 = n * 2 ^ (52 - Nat.log2 n) := by
      rw [roundSig, hpos, if_pos (by omega), show 1074 + 1074 - (Nat.log2 n + 1022 + 1074) = 52 - Nat.log2 n by omega]
    have hlt : roundPos 1074 n 1074 * 2 ^ 52 + roundSig 1074 n 1074 < magInf := by rw [magInf]; omega
    have hmag : roundMag 1074 n 1074 = roundPos 1074 n 1074 * 2 ^ 52 + roundSig 1074 n 1074 :=
      (roundMag_eq 1074 1074 hn.ne').trans (min_eq_left hlt.le)
    rw [fOfNat, hmag]
    refine ⟨(fIsFinite_withSign hlt.le).mpr hlt, ?_⟩
    rw [fVal_withSign hr hy hlt, hsig, hpos, mul_assoc, ← pow_add, show 52 - Nat.log2 n + (Nat.log2 n + 1022) = 1074 by omega,
      signed_mul, Nat.cast_pow]
    rfl

/-- ⌊v / unit + 1/2⌋ is within half a unit of v. -/
theorem halfUp_bounds {v unit q : Nat} (h : 0 < unit) (hq : q = (2 * v + unit) / (2 * unit)) :
    2 * v < (2 * q + 1) * unit ∧ 2 * q * unit ≤ 2 * v + unit := by
  have hdiv := Nat.div_add_mod' (2 * v + unit) (2 * unit)
  have hmod := Nat.mod_lt (2 * v + unit) (show 2 * unit > 0 by omega)
  rw [← hq, ← mul_assoc, mul_comm q 2] at hdiv
  rw [add_one_mul]
  omega

theorem signed_of_nonneg {neg : Bool} {n : Nat} (h : 0 ≤ signed neg n) : signed neg n = n := by
  cases neg with
  | false => rfl
  | true =>
    simp only [signed, if_true] at h ⊢
    omega

/-- round_half_away lies within half an integer of its argument, ties upwards. -/
theorem roundHalfAway_nearest {z : F64} (h : 0 ≤ fVal z) :
    2 * fVal z < (2 * (roundHalfAway z : Int) + 1) * 2 ^ 1074 ∧ (2 * (roundHalfAway z : Int) - 1) * 2 ^ 1074 ≤ 2 * fVal z := by
  have hround : roundHalfAway z = (2 * (fMant z * 2 ^ fPos z) + 2 ^ 1074) / (2 * 2 ^ 1074) := by
    rw [roundHalfAway, mul_assoc, ← pow_succ']
  obtain ⟨hlow, hhigh⟩ := halfUp_bounds (unit := 2 ^ 1074) (by positivity) hround
  have hunit : ((2 ^ 1074 : Nat) : Int) = 2 ^ 1074 := Nat.cast_pow 2 1074
  rw [show fVal z = (fMant z * 2 ^ fPos z : Nat) from signed_of_nonneg h, ← hunit]
  generalize 2 ^ 1074 = unit at *
  rw [sub_one_mul]
  constructor
  · exact_mod_cast hlow
  · rw [sub_le_iff_le_add]
    exact_mod_cast hhigh

/-- Settles O37. -/
theorem floatOperationsRoundToEven : Obligations.FloatOperationsRoundToEven :=
  ⟨fun _ _ ha hb => ⟨nearestEven_fadd ha hb, nearestEven_fsub ha hb, nearestEven_fmul ha hb, nearestEven_fdiv ha hb⟩,
    fun _ => fOfNat_exact, fun _ _ => roundHalfAway_nearest⟩

/-! ### The literals (R14) -/

/-- The quotient of two exact integers is the binary64 number nearest to p / q. -/
theorem nearestEven_literal {p q : Nat} (hp : p < 2 ^ 53) (hq : q < 2 ^ 53) (hq0 : q ≠ 0)
    (hfin : fIsFinite (fdiv (fOfNat p) (fOfNat q)) = true) :
    NearestEven (fdiv (fOfNat p) (fOfNat q)) q (p * 2 ^ 1074) := by
  obtain ⟨hpfin, hpval⟩ := fOfNat_exact hp
  obtain ⟨hqfin, hqval⟩ := fOfNat_exact hq
  have hunit : (2 : Int) ^ 1074 ≠ 0 := pow_ne_zero 1074 two_ne_zero
  have hne : fVal (fOfNat q) ≠ 0 := hqval ▸ mul_ne_zero (Nat.cast_ne_zero.mpr hq0) hunit
  have hround := nearestEven_fdiv hpfin hqfin hne hfin
  rw [hpval, hqval, mul_comm (q : Int), mul_comm (_ * _)] at hround
  exact (nearestEven_mul_left hunit).mp hround

theorem f1em4_eq : f1em4 = fdiv (fOfNat 1) (fOfNat 10000) := by decide +kernel

theorem fLR_eq : fLR = fdiv (fOfNat 1) (fOfNat 1000) := by decide +kernel

theorem fOne_eq : fOne = fOfNat 1 := by decide +kernel

theorem f65535_eq : f65535 = fOfNat 65535 := by decide +kernel

/-- Settles O38. -/
theorem literalsAreNearest : Obligations.LiteralsAreNearest := by
  refine ⟨?_, rfl, ?_, ?_, rfl, ?_⟩
  · have h := nearestEven_literal (p := 1) (q := 10000) (by norm_num) (by norm_num) (by norm_num) (f1em4_eq ▸ rfl)
    rwa [← f1em4_eq, Nat.cast_one, one_mul] at h
  · have h := nearestEven_literal (p := 1) (q := 1000) (by norm_num) (by norm_num) (by norm_num) (fLR_eq ▸ rfl)
    rwa [← fLR_eq, Nat.cast_one, one_mul] at h
  · have h := (fOfNat_exact (n := 1) (by norm_num)).2
    rwa [← fOne_eq, Nat.cast_one, one_mul] at h
  · have h := (fOfNat_exact (n := 65535) (by norm_num)).2
    rwa [← f65535_eq] at h

end Sys2Proof.Machine
end

section
/-! The context histories of the predictors (44_predictors.md sections 2 and 3; 10_state.md R52, R53): the key of a byte history, the table it selects a bucket in, and the histories after any input. -/

namespace Sys2Proof.Machine

open Sys2Proof

/-! ### The key of a history (R138) -/

theorem histKey_concat (hist : List Byte) (b : Byte) : histKey (hist ++ [b]) = histKey hist * 256 + b.toNat := by
  simp [histKey]

/-- The key is the number whose base-256 digits are the history, the newest byte least significant. -/
theorem histKey_eq_ofDigits (hist : List Byte) : histKey hist = Nat.ofDigits 256 (hist.reverse.map BitVec.toNat) := by
  induction hist using List.reverseRecOn with
  | nil => rfl
  | append_singleton hist b ih =>
    rw [histKey_concat, ih, List.reverse_append, List.reverse_singleton, List.singleton_append, List.map_cons, Nat.ofDigits_cons]
    ring

theorem histKey_eq_sum (hist : List Byte) : histKey hist =
    ((List.range hist.length).map fun j => (hist.getD j 0).toNat * 256 ^ (hist.length - 1 - j)).sum := by
  induction hist using List.reverseRecOn with
  | nil => rfl
  | append_singleton hist b ih =>
    have hscale : (List.range hist.length).map (fun j => ((hist ++ [b]).getD j 0).toNat * 256 ^ (hist.length - j)) =
        (List.range hist.length).map fun j => (hist.getD j 0).toNat * 256 ^ (hist.length - 1 - j) * 256 := by
      refine List.map_congr_left fun j hj => ?_
      have hj : j < hist.length := List.mem_range.mp hj
      rw [List.getD_append _ _ _ _ hj, mul_assoc, ← pow_succ, show hist.length - 1 - j + 1 = hist.length - j by omega]
    rw [histKey_concat, ih, ← List.sum_map_mul_right, ← hscale]
    simp [List.range_succ]

theorem histKey_injective_of_length {a b : List Byte} (hlen : a.length = b.length) (h : histKey a = histKey b) : a = b := by
  rw [histKey_eq_ofDigits, histKey_eq_ofDigits] at h
  have hdigit (x : List Byte) : ∀ d ∈ x.reverse.map BitVec.toNat, d < 256 := by
    intro d hd
    obtain ⟨c, -, rfl⟩ := List.mem_map.mp hd
    exact c.isLt
  have hdigits := Nat.ofDigits_inj_of_len_eq (by norm_num) (by simpa using hlen) (hdigit a) (hdigit b) h
  have hrev := List.map_injective_iff.mpr BitVec.toNat_injective hdigits
  exact List.reverse_injective hrev

/-! ### The count tables (R140, R143) -/

theorem bucket_countBit_same (tab : List (Nat × (Nat × Nat))) (key : Nat) (bit : Bool) :
    bucket (countBit tab key bit) key =
      (if bit then ((bucket tab key).1, (bucket tab key).2 + 1) else ((bucket tab key).1 + 1, (bucket tab key).2)) := by
  rw [bucket, countBit, tableGet_set_same, Option.getD_some]

theorem bucket_countBit_other (tab : List (Nat × (Nat × Nat))) {key other : Nat} (bit : Bool) (h : other ≠ key) :
    bucket (countBit tab key bit) other = bucket tab other := by
  rw [bucket, countBit, tableGet_set_other _ _ h, bucket]

/-! ### The byte-context models (R139 to R141) -/

theorem ByteCtx.predict_of_short {m : ByteCtx} (h : m.hist.length < m.k) : m.predict = 32768 := if_pos h

theorem ByteCtx.predict_of_full {m : ByteCtx} (h : m.k ≤ m.hist.length) : m.predict = countPredict (bucket m.tab (histKey m.hist)) :=
  if_neg (Nat.not_lt.mpr h)

theorem ByteCtx.updateBit_of_skip {m : ByteCtx} (bit : Bool) (h : m.hist.length < m.k) : m.updateBit .skip bit = m :=
  if_pos (by simpa using h)

theorem ByteCtx.updateBit_of_counting {m : ByteCtx} {w : WarmupPolicy} (bit : Bool) (h : w = .partialKey ∨ m.k ≤ m.hist.length) :
    m.updateBit w bit = { m with tab := countBit m.tab (histKey m.hist) bit } := by
  refine if_neg ?_
  rcases h with rfl | h
  · simp
  · simp [Nat.not_lt.mpr h]

/-- A byte enters at the newest end, and the oldest leaves a history of k bytes. -/
theorem ByteCtx.updateByte_hist {m : ByteCtx} (b : Byte) (h : m.hist.length ≤ m.k) :
    (m.updateByte b).hist = (m.hist ++ [b]).drop (m.hist.length + 1 - m.k) := by
  rcases h.lt_or_eq with hshort | hfull
  · simp [updateByte, show ¬ m.k < m.hist.length + 1 by omega, show m.hist.length + 1 - m.k = 0 by omega]
  · simp [updateByte, hfull]

@[simp] theorem ByteCtx.updateByte_k (m : ByteCtx) (b : Byte) : (m.updateByte b).k = m.k := rfl

theorem ByteCtx.foldl_updateByte_k (x : List Byte) (m : ByteCtx) : (x.foldl ByteCtx.updateByte m).k = m.k := by
  induction x generalizing m with
  | nil => rfl
  | cons b x ih => rw [List.foldl_cons, ih, updateByte_k]

theorem ByteCtx.foldl_updateByte_hist (k : Nat) (x : List Byte) :
    (x.foldl ByteCtx.updateByte (ByteCtx.init k)).hist = x.drop (x.length - k) := by
  induction x using List.reverseRecOn with
  | nil => exact List.drop_nil.symm
  | append_singleton x b ih =>
    have hlen : (x.drop (x.length - k)).length ≤ k := by rw [List.length_drop]; omega
    have hk : (x.foldl ByteCtx.updateByte (ByteCtx.init k)).k = k := foldl_updateByte_k x _
    rw [List.foldl_concat, updateByte_hist b (by rwa [ih, hk]), ih, hk, ← List.drop_append_of_le_length (Nat.sub_le _ _),
      List.drop_drop, List.length_drop, List.length_append, List.length_singleton]
    congr 1
    omega

/-- Settles O33. -/
theorem byteContextModel : Obligations.ByteContextModel := by
  refine ⟨ByteCtx.foldl_updateByte_hist, histKey_eq_sum, fun _ _ => histKey_injective_of_length, fun _ => ByteCtx.predict_of_short,
    fun _ => ByteCtx.predict_of_full, fun _ => ByteCtx.updateBit_of_skip, fun m bit w h => ?_⟩
  rw [ByteCtx.updateBit_of_counting bit h]
  exact ⟨rfl, rfl, bucket_countBit_same m.tab _ bit, fun _ => bucket_countBit_other m.tab bit⟩

/-! ### The bit-context model (R142, R143) -/

/-- The model's shift of the bit history is the library's: the new bit stands in bit 0. -/
theorem shiftLeft_or_bit (h : BitVec 24) (bit : Bool) : (h <<< 1) ||| (if bit then 1 else 0) = h.shiftConcat bit := by
  ext i hi
  rcases i with _ | i <;> cases bit <;> simp

theorem BitCtx.updateBit_hb_toNat (w : WarmupPolicy) (m : BitCtx) (bit : Bool) :
    (m.updateBit w bit).hb.toNat = (2 * m.hb.toNat + bit.toNat) % 2 ^ 24 := by
  rw [updateBit, shiftLeft_or_bit, BitVec.toNat_shiftConcat, Nat.shiftLeft_eq, pow_one, mul_comm]

@[simp] theorem BitCtx.updateBit_nb (w : WarmupPolicy) (m : BitCtx) (bit : Bool) :
    (m.updateBit w bit).nb = min (m.nb + 1) 24 := rfl

theorem BitCtx.foldl_updateBit_nb (w : WarmupPolicy) (bits : List Bool) :
    (bits.foldl (BitCtx.updateBit w) BitCtx.init).nb = min bits.length 24 := by
  induction bits using List.reverseRecOn with
  | nil => rfl
  | append_singleton bits bit ih =>
    rw [List.foldl_concat, updateBit_nb, ih, List.length_append, List.length_singleton]
    omega

theorem BitCtx.foldl_updateBit_hb_toNat (w : WarmupPolicy) (bits : List Bool) :
    (bits.foldl (BitCtx.updateBit w) BitCtx.init).hb.toNat = (bits.foldl (fun v b => 2 * v + b.toNat) 0) % 2 ^ 24 := by
  induction bits using List.reverseRecOn with
  | nil => rfl
  | append_singleton bits bit ih =>
    rw [List.foldl_concat, List.foldl_concat, updateBit_hb_toNat, ih]
    omega

theorem BitCtx.predict_of_short {m : BitCtx} (h : m.nb < 24) : m.predict = 32768 := if_pos h

theorem BitCtx.predict_of_full {m : BitCtx} (h : 24 ≤ m.nb) : m.predict = countPredict (bucket m.tab m.hb.toNat) :=
  if_neg (Nat.not_lt.mpr h)

/-- Settles O34. -/
theorem bitContextHistory : Obligations.BitContextHistory := by
  intro w bits m
  have hnb : m.nb = min bits.length 24 := BitCtx.foldl_updateBit_nb w bits
  exact ⟨hnb, BitCtx.foldl_updateBit_hb_toNat w bits, fun h => BitCtx.predict_of_short (by omega),
    fun h => BitCtx.predict_of_full (by omega)⟩

end Sys2Proof.Machine
end

section
/-! The host accesses the spec gives no meaning (10_state.md R44; 20_memory.md R68, R71). -/

namespace Sys2Proof.Machine

open Sys2Proof

theorem hostStep_mmioWrite_refused {s : State} {addr width : Nat} (v : U32) (h : mmioOffset s.cfg addr width = none) :
    hostStep s (.mmioWrite addr width v) = .refused .mmioAccess := by
  simp only [hostStep, h]

theorem hostStep_mmioRead_refused {s : State} {addr width : Nat} (h : mmioOffset s.cfg addr width = none) :
    hostStep s (.mmioRead addr width) = .refused .mmioAccess := by
  simp only [hostStep, h]

theorem hostStep_lmemWrite_refused {s : State} (addr : Nat) (bs : List Byte) (h : s.status.busy = true) :
    hostStep s (.lmemWrite addr bs) = .refused .lmemWhileBusy := if_pos h

theorem hostStep_lmemRead_refused {s : State} (addr n : Nat) (h : s.status.busy = true) :
    hostStep s (.lmemRead addr n) = .refused .lmemWhileBusy := if_pos h

/-- Settles O53. -/
theorem meaninglessAccessesRefused : Obligations.MeaninglessAccessesRefused := by
  refine ⟨fun s addr width v rest h => ?_, fun s addr n bs rest hbusy => ⟨fun hq => ?_, fun hq => ?_⟩⟩
  · have hnone := mmioOffset_none s.cfg h
    exact ⟨fun hq => (step_access hq (by simp)).trans (hostStep_mmioWrite_refused v hnone),
      fun hq => (step_access hq (by simp)).trans (hostStep_mmioRead_refused hnone)⟩
  · exact (step_access hq (by simp)).trans (hostStep_lmemWrite_refused addr bs hbusy)
  · exact (step_access hq (by simp)).trans (hostStep_lmemRead_refused addr n hbusy)

end Sys2Proof.Machine
end

section
/-! What a step of a running list leaves of LMEM (20_memory.md R73, 40_sequencer.md R102). -/

namespace Sys2Proof.Machine

open Sys2Proof

/-- A step of a running list with no host access before it is the sequencer's `Step()` (R104). -/
theorem step_running {s : State} (hb : s.status.busy = true) (hq : s.hostQueue = []) : step s = commandStep s := by
  rw [step, nextMove, hq]
  exact if_pos hb

theorem commandStep_of_fetchFault {s : State} {f : FaultReport} (hf : s.fetchFault = some f) :
    commandStep s = .next (s.raiseFault f) := by
  rw [commandStep, hf]

theorem commandStep_of_reject {s : State} {r : Reject} (hf : s.fetchFault = none) (hd : decode s.fetched = .error r) :
    commandStep s = .next ((s.latch s.fetched).raiseFault (rejectReport r)) := by
  rw [commandStep, hf, hd]

theorem commandStep_of_decode {s : State} {i : Instr} (hf : s.fetchFault = none) (hd : decode s.fetched = .ok i) :
    commandStep s = exec i s := by
  rw [commandStep, hf, hd]
  exact exec_scratch i s _

/-- A command, completed or faulted, leaves every byte outside its destination window. -/
theorem exec_byte_outside {i : Instr} {s t : State} {a : Nat} (he : exec i s = .next t)
    (ha : OutsideRange (dstWindow i (s.operandsOf i)).start (dstWindow i (s.operandsOf i)).size a) :
    t.lmem.byte a = s.lmem.byte a := by
  rcases exec_cases i s with ⟨-, hx⟩ | ⟨-, hx⟩ | ⟨f, -, hx⟩ | ⟨out, r, g, k, -, hl, hx⟩ | ⟨f, c, k, -, -, hx⟩ <;>
    obtain rfl := Host.Outcome.next.inj (hx.symm.trans he)
  case inl => rfl
  case inr.inl => rfl
  case inr.inr.inl => rfl
  case inr.inr.inr.inl =>
    have hout : a < (dstWindow i (s.operandsOf i)).start ∨ (dstWindow i (s.operandsOf i)).start + out.length ≤ a :=
      ha.imp_right (Nat.add_le_add_left hl _).trans
    exact Lmem.byte_writeBytes_outside s.lmem _ out a hout
  case inr.inr.inr.inr => exact Lmem.byte_scramble_outside s.lmem s.freeCount _ a ha

/-- Without a command to run, LMEM is kept whole. -/
theorem commandStep_lmem_of_no_command {s t : State} (h : s.fetchFault ≠ none ∨ ∃ r, decode s.fetched = .error r)
    (he : commandStep s = .next t) : t.lmem = s.lmem := by
  cases hf : s.fetchFault with
  | some f =>
    obtain rfl := Host.Outcome.next.inj ((commandStep_of_fetchFault hf).symm.trans he)
    rfl
  | none =>
    obtain ⟨r, hd⟩ := h.resolve_left (not_not_intro hf)
    obtain rfl := Host.Outcome.next.inj ((commandStep_of_reject hf hd).symm.trans he)
    rfl

/-- Settles O12. -/
theorem writesStayInDestination : Obligations.WritesStayInDestination := by
  intro s t hb hq hstep
  have he : commandStep s = .next t := (step_running hb hq).symm.trans hstep
  exact ⟨fun i hf hd a ha => exec_byte_outside ((commandStep_of_decode hf hd).symm.trans he) ha,
    fun h => commandStep_lmem_of_no_command h he⟩

end Sys2Proof.Machine
end

section
/-! The host's accesses to the registers other than CTRL (10_state.md section 2; 20_memory.md R69, R71). -/

namespace Sys2Proof.Machine

open Sys2Proof

/-! ### Writes -/

/-- A register but CTRL ignores a write while a list runs (R71). -/
theorem State.mmioWrite_busy {s : State} {off : Nat} (v : U32) (hctrl : off ≠ 0x004) (hb : s.status.busy = true) :
    s.mmioWrite off v = s := by
  rw [mmioWrite, if_neg hctrl, if_pos hb]

theorem State.mmioWrite_status {s : State} (v : U32) (hb : s.status.busy = false) :
    s.mmioWrite 0x008 v = { s with status := s.status.writeOneToClear v } := by
  simp [mmioWrite, hb]

theorem State.mmioWrite_cmdPtr {s : State} (v : U32) (hb : s.status.busy = false) :
    s.mmioWrite 0x00C v = { s with cmdPtr := v } := by
  simp [mmioWrite, hb]

/-- Read-only registers and reserved offsets ignore a write (10_state.md R44). -/
theorem State.mmioWrite_ignored (s : State) {off : Nat} (v : U32) (hctrl : off ≠ 0x004) (hstatus : off ≠ 0x008)
    (hptr : off ≠ 0x00C) : s.mmioWrite off v = s := by
  rw [mmioWrite, if_neg hctrl, if_neg hstatus, if_neg hptr, ite_self]

theorem bitAt_eq_twoPow (f : Bool) (n : Nat) : bitAt f n = if f then BitVec.twoPow 32 n else 0 := by
  have hcast : ((1 <<< n : Nat) : U32) = BitVec.twoPow 32 n :=
    BitVec.eq_of_toNat_eq (by rw [BitVec.toNat_twoPow, Nat.one_shiftLeft]; rfl)
  rw [bitAt, hcast]

/-- Clearing under a mask clears a flag where the mask has its bit. -/
theorem bitAt_and_not (f : Bool) {n : Nat} (hn : n < 32) (mask : U32) :
    bitAt f n &&& ~~~mask = bitAt (f && !mask.getLsbD n) n := by
  have hbit : (~~~mask).getLsbD n = !mask.getLsbD n := by simp [hn]
  cases f with
  | false => exact BitVec.zero_and
  | true => rw [bitAt_eq_twoPow, if_pos rfl, BitVec.twoPow_and, hbit, Bool.true_and, bitAt_eq_twoPow]; rfl

/-- A STATUS write clears the written ones among its W1C bits 1, 2, 8, 9, 10 (10_state.md R30). -/
theorem Status.word_writeOneToClear (s : Status) (v : U32) :
    (s.writeOneToClear v).word = s.word &&& ~~~(v &&& 0x706) := by
  simp only [word, writeOneToClear, BitVec.and_or_distrib_right, bitAt_and_not, BitVec.getLsbD_and, Nat.reduceLT]
  -- what is left are the bits of 0x706: 0 at BUSY, 1 at the W1C bits
  simp

/-- Settles O51. -/
theorem registerWrites : Obligations.RegisterWrites := by
  intro s off v rest hoff halign hctrl hq
  refine ⟨_, step_mmioWrite hoff halign hq, fun hb => State.mmioWrite_busy v hctrl hb,
    fun hb => ⟨?_, ?_, State.mmioWrite_ignored _ v hctrl⟩⟩
  · rintro rfl
    rw [State.mmioWrite_status (s := { s with hostQueue := rest }) v hb]
    exact ⟨rfl, Status.word_writeOneToClear s.status v⟩
  · rintro rfl
    exact State.mmioWrite_cmdPtr v hb

/-! ### Reads -/

/-- A read has no side effect (R69): what it changes is the host's data and the model's count of free values. -/
theorem State.mmioRead_frame (s : State) (off : Nat) :
    s.mmioRead off = { s with hostData := (s.mmioRead off).hostData, freeCount := (s.mmioRead off).freeCount } := by
  rw [mmioRead]
  split <;> rfl

theorem State.mmioRead_exact {s : State} {off : Nat} (h : s.status.busy = false ∨ exactWhileBusy off = true) :
    (s.mmioRead off).hostData = .word (s.register off) := by
  have hexact : ¬ (s.status.busy && !exactWhileBusy off) = true := by
    rcases h with h | h <;> simp [h]
  rw [mmioRead, if_neg hexact]

/-- Settles O52. -/
theorem registerReads : Obligations.RegisterReads := by
  intro s off rest hoff halign hq
  refine ⟨_, step_mmioRead hoff halign hq, State.mmioRead_frame _ off,
    fun h => State.mmioRead_exact (h.imp_right fun hmem => ?_)⟩
  have hall : ∀ o ∈ [0x000, 0x008, 0x02C, 0x030], exactWhileBusy o = true := by decide
  exact hall off hmem

end Sys2Proof.Machine
end

section
/-! The host's LMEM accesses while the machine is idle (20_memory.md R68, R69, R70, R74). -/

namespace Sys2Proof.Machine

open Sys2Proof

theorem hostStep_lmemWrite_idle {s : State} {addr : Nat} {bs : List Byte} (hb : s.status.busy = false)
    (hrange : addr + bs.length ≤ s.cfg.lmemSize.toNat) :
    hostStep s (.lmemWrite addr bs) = .next { s with lmem := s.lmem.writeBytes addr bs } := by
  rw [hostStep, if_neg (Bool.eq_false_iff.mp hb), if_neg (Nat.not_lt.mpr hrange)]

theorem hostStep_lmemRead_idle {s : State} {addr n : Nat} (hb : s.status.busy = false)
    (hrange : addr + n ≤ s.cfg.lmemSize.toNat) :
    hostStep s (.lmemRead addr n) = .next { s with hostData := .bytes (s.lmem.bytes addr n) } := by
  rw [hostStep, if_neg (Bool.eq_false_iff.mp hb), if_neg (Nat.not_lt.mpr hrange)]

/-- Settles O54. -/
theorem hostMemoryAccess : Obligations.HostMemoryAccess := by
  refine fun s addr rest hb => ⟨fun bs hrange hq => ?_, fun n hrange hq => ?_⟩
  · exact ⟨_, (step_access hq (by simp)).trans (hostStep_lmemWrite_idle hb hrange), rfl,
      Lmem.bytes_writeBytes_same s.lmem addr bs, Lmem.byte_writeBytes_outside s.lmem addr bs⟩
  · exact ⟨_, (step_access hq (by simp)).trans (hostStep_lmemRead_idle hb hrange), rfl, rfl⟩

end Sys2Proof.Machine
end

section
/-! What the decoder answers (30_encoding.md R87 to R91, 40_sequencer.md R97): the OP values of no row, the lowest offending word, and the step of the list for each. -/

namespace Sys2Proof.Machine

open Sys2Proof

/-! ### The decoder, case by case (R97) -/

theorem decode_of_undefined_op {d : Descriptor} (h : Op.ofCode (opField d.w0) = none) : decode d = .error (.illegalOp d.w0) := by
  rw [decode, h]

theorem decode_of_offendingWord {d : Descriptor} {op : Op} {j : Nat} (h : Op.ofCode (opField d.w0) = some op)
    (hj : offendingWord op d = some j) : decode d = .error (.reservedNz j) := by
  simp only [decode, h, hj]

theorem decode_of_no_offendingWord {d : Descriptor} {op : Op} (h : Op.ofCode (opField d.w0) = some op)
    (hn : offendingWord op d = none) : decode d = .ok (buildInstr op d) := by
  simp only [decode, h, hn]

/-- A descriptor with a defined OP is never an ILLEGAL_OP, whatever R89 says of its words. -/
theorem decode_ne_illegalOp {d : Descriptor} {op : Op} (h : Op.ofCode (opField d.w0) = some op) (w : U32) :
    decode d ≠ .error (.illegalOp w) := by
  cases hw : offendingWord op d with
  | some j => simp [decode_of_offendingWord h hw]
  | none => simp [decode_of_no_offendingWord h hw]

/-! ### The OP values in no row of the opcode map (R88) -/

theorem ofCode_eq_none_iff (n : Nat) : Op.ofCode n = none ↔
    (0x02 ≤ n ∧ n ≤ 0x0F) ∨ (0x12 ≤ n ∧ n ≤ 0x1F) ∨ (0x22 ≤ n ∧ n ≤ 0x2F) ∨ (0x32 ≤ n ∧ n ≤ 0x3F) ∨
      (0x42 ≤ n ∧ n ≤ 0x4F) ∨ (0x52 ≤ n ∧ n ≤ 0x5F) ∨ 0x62 ≤ n := by
  unfold Op.ofCode
  split
  case h_15 =>
    simp only [imp_false, true_iff] at *
    omega
  all_goals decide

/-! ### The words that offend (R89) -/

theorem getLsbD_eq_true_iff (w : U32) (k : Nat) : w.getLsbD k = true ↔ w.toNat / 2 ^ k % 2 = 1 := by
  rw [BitVec.getLsbD, Nat.testBit_eq_decide_div_mod_eq, decide_eq_true_iff]

theorem lBit_iff (w : U32) : lBit w = true ↔ w.toNat / 2 ^ 8 % 2 = 1 := getLsbD_eq_true_iff w 8
theorem pBit_iff (w : U32) : pBit w = true ↔ w.toNat / 2 ^ 9 % 2 = 1 := getLsbD_eq_true_iff w 9
theorem aBit_iff (w : U32) : aBit w = true ↔ w.toNat / 2 ^ 10 % 2 = 1 := getLsbD_eq_true_iff w 10

theorem reservedField_eq_zero_iff (w : U32) : reservedField w = 0 ↔ w.toNat / 2 ^ 11 = 0 := by
  have hw := w.isLt
  rw [← BitVec.toNat_inj, reservedField, BitVec.extractLsb'_toNat, Nat.shiftRight_eq_div_pow]
  bv_omega

theorem allowsL_eq_false_iff (op : Op) : op.allowsL = false ↔ op ∈ [Op.nop, .halt] := by cases op <;> decide
theorem allowsP_eq_false_iff (op : Op) : op.allowsP = false ↔ op ≠ .bwtInv := by cases op <;> decide
theorem allowsA_eq_false_iff (op : Op) : op.allowsA = false ↔ op ∈ [Op.nop, .halt, .bwtFwd, .bwtInv, .mtfEnc, .mtfDec] := by
  cases op <;> decide
theorem noOperands_iff (op : Op) : op.noOperands = true ↔ op ∈ [Op.nop, .halt] := by cases op <;> decide
theorem noArg_iff (op : Op) : op.noArg = true ↔ op ∈ [Op.nop, .halt, .bwtFwd, .mtfEnc, .mtfDec] := by cases op <;> decide

theorem w0Offends_iff (op : Op) (d : Descriptor) : w0Offends op d.w0 = true ↔ Offends op d 0 := by
  simp only [w0Offends, Offends, Bool.or_eq_true, Bool.and_eq_true, Bool.not_eq_true', bne_iff_ne, ne_eq, reservedField_eq_zero_iff,
    lBit_iff, pBit_iff, aBit_iff, allowsL_eq_false_iff, allowsP_eq_false_iff, allowsA_eq_false_iff, or_assoc]

/-- Word j offends, as the decoder tests it. -/
def wordOffends (op : Op) (d : Descriptor) : Nat → Bool
  | 0 => w0Offends op d.w0
  | 1 => op.noOperands && d.w1 != 0
  | 2 => op.noOperands && d.w2 != 0
  | 3 => (op.noOperands || lBit d.w0) && d.w3 != 0
  | 4 => (op.noArg || pBit d.w0 || aBit d.w0) && d.w4 != 0
  | 5 => d.w5 != 0
  | 6 => d.w6 != 0
  | 7 => d.w7 != 0
  | _ => false

/-- The decoder's tests of the words are the conditions of R89. -/
theorem wordOffends_iff (op : Op) (d : Descriptor) : (j : Nat) → (wordOffends op d j = true ↔ Offends op d j)
  | 0 => w0Offends_iff op d
  | 1 | 2 => by simp only [wordOffends, Offends, Bool.and_eq_true, bne_iff_ne, noOperands_iff]
  | 3 => by simp only [wordOffends, Offends, Bool.and_eq_true, Bool.or_eq_true, bne_iff_ne, noOperands_iff, lBit_iff]
  | 4 => by simp only [wordOffends, Offends, Bool.and_eq_true, Bool.or_eq_true, bne_iff_ne, noArg_iff, pBit_iff, aBit_iff, or_assoc]
  | 5 | 6 | 7 => bne_iff_ne
  | _ + 8 => Bool.false_eq_true.to_iff

theorem find?_cons_eq_ite {α : Type} (p : α → Bool) (a : α) (l : List α) :
    (a :: l).find? p = if p a then some a else l.find? p := by
  split_ifs with h <;> simp [h]

/-- The decoder's word is the lowest of the eight that offends. -/
theorem offendingWord_eq_find? (op : Op) (d : Descriptor) : offendingWord op d = (List.range 8).find? (wordOffends op d) := by
  rw [show List.range 8 = [0, 1, 2, 3, 4, 5, 6, 7] from rfl]
  simp only [find?_cons_eq_ite, List.find?_nil]
  rfl

theorem offends_lt {op : Op} {d : Descriptor} {j : Nat} (h : Offends op d j) : j < 8 := by
  by_contra hj
  obtain ⟨k, rfl⟩ := Nat.exists_eq_add_of_le' (not_lt.mp hj)
  exact h

theorem offendingWord_eq_some {op : Op} {d : Descriptor} {j : Nat} (h : Offends op d j) (hlow : ∀ k, k < j → ¬ Offends op d k) :
    offendingWord op d = some j := by
  rw [offendingWord_eq_find?, List.find?_range_eq_some]
  refine ⟨(wordOffends_iff op d j).mpr h, List.mem_range.mpr (offends_lt h), fun k hk => ?_⟩
  rw [Bool.not_eq_true', ← Bool.not_eq_true, wordOffends_iff]
  exact hlow k hk

theorem offendingWord_eq_none {op : Op} {d : Descriptor} (h : ∀ j, ¬ Offends op d j) : offendingWord op d = none := by
  rw [offendingWord_eq_find?, List.find?_eq_none]
  exact fun j _ => mt (wordOffends_iff op d j).mp (h j)

/-! ### The step of a rejected and of an accepted descriptor (R97, R104) -/

/-- A rejected descriptor is latched and then takes its static fault; the latch is no part of what a fault shows. -/
theorem step_of_reject {s : State} {r : Reject} (hb : s.status.busy = true) (hq : s.hostQueue = []) (hf : s.fetchFault = none)
    (hd : decode s.fetched = .error r) : ∃ t, step s = .next t ∧ StaticFaultTaken s t (rejectReport r) := by
  have h := staticFaultTaken_raise (s.latch s.fetched) (rejectReport r)
  have hreg := h.registers
  exact ⟨_, (step_running hb hq).trans (commandStep_of_reject hf hd),
    { h with registers := { hreg with hostSide := { hreg.hostSide with } } }⟩

theorem step_of_decode {s : State} {i : Instr} (hb : s.status.busy = true) (hq : s.hostQueue = []) (hf : s.fetchFault = none)
    (hd : decode s.fetched = .ok i) : step s = exec i s :=
  (step_running hb hq).trans (commandStep_of_decode hf hd)

/-- Settles O4. -/
theorem illegalOpFaults : Obligations.IllegalOpFaults := by
  intro s hb hq hf op illegal
  have hiff : Op.ofCode (opField s.fetched.w0) = none ↔ illegal := opField_eq s.fetched.w0 ▸ ofCode_eq_none_iff op
  constructor
  · intro hill
    exact step_of_reject hb hq hf (decode_of_undefined_op (hiff.mpr hill))
  · intro hlegal
    obtain ⟨o, ho⟩ := Option.ne_none_iff_exists'.mp (mt hiff.mp hlegal)
    exact decode_ne_illegalOp ho

/-- Settles O5: what R89 calls the lowest offending word is what the decoder's search finds. -/
theorem reservedWordFaults : Obligations.ReservedWordFaults := by
  intro s op hb hq hf hop
  rw [← opField_eq] at hop
  constructor
  · intro j hj hlow
    exact step_of_reject hb hq hf (decode_of_offendingWord hop (offendingWord_eq_some hj hlow))
  · intro hnone
    have hd := decode_of_no_offendingWord hop (offendingWord_eq_none hnone)
    exact ⟨_, hd, step_of_decode hb hq hf hd⟩

/-! ### Written-out words (R93) -/

theorem decodeBytes_toBytes (d : Descriptor) : decodeBytes d.toBytes = decode d := by
  rw [decodeBytes, ofBytes_toBytes]
  exact if_pos rfl

/-- Settles O1. -/
theorem specWordsDecode : Obligations.SpecWordsDecode := by
  have hbytes : decodeBytes (Descriptor.toBytes ⟨0x211, 0x200, 0x300, 6, 0, 0, 0, 0⟩) = .ok (.bwtInv false true 0x200 0x300 6 0) := by
    rw [decodeBytes_toBytes]
    decide
  exact ⟨by decide, by decide, hbytes, by decide, by decide, by decide, by decide, by decide, by decide, by decide⟩

end Sys2Proof.Machine
end

section
/-! What the sequencer reads before a command runs: the descriptor at CMD_PTR (40_sequencer.md R96) and the effective
operands (R98). -/

namespace Sys2Proof.Machine

open Sys2Proof

/-! ### Effective operands (R98) -/

/-- What the decoder has made sure of in a descriptor it accepts (30_encoding.md R89). -/
theorem accepted_words {op : Op} {d : Descriptor} (h : offendingWord op d = none) :
    (op.allowsL = false → lBit d.w0 = false) ∧ (op.allowsP = false → pBit d.w0 = false) ∧
    (op.allowsA = false → aBit d.w0 = false) ∧ (op.noOperands = true → d.w1 = 0 ∧ d.w2 = 0 ∧ d.w3 = 0) ∧
    (op.noArg = true → d.w4 = 0) := by
  rw [offendingWord_eq_find?, List.find?_eq_none] at h
  have hword : ∀ j, j < 8 → wordOffends op d j = false := fun j hj => Bool.eq_false_iff.mpr (h j (List.mem_range.mpr hj))
  have h0 := hword 0 (by omega)
  simp only [wordOffends, w0Offends, Bool.or_eq_false_iff] at h0
  obtain ⟨⟨⟨-, hl⟩, hp⟩, ha⟩ := h0
  refine ⟨fun h => ?_, fun h => ?_, fun h => ?_, fun h => ⟨?_, ?_, ?_⟩, fun h => ?_⟩
  · simpa [h] using hl
  · simpa [h] using hp
  · simpa [h] using ha
  · simpa [wordOffends, h] using hword 1 (by omega)
  · simpa [wordOffends, h] using hword 2 (by omega)
  · simpa [wordOffends, h] using hword 3 (by omega)
  · simpa [wordOffends, h] using hword 4 (by omega)

/-- The fields an opcode lacks are 0 in an accepted descriptor, so its operands are those of all its words and flags. -/
theorem operandsOf_buildInstr (s : State) {op : Op} {d : Descriptor} (h : offendingWord op d = none) :
    s.operandsOf (buildInstr op d) = s.resolve (lBit d.w0) (pBit d.w0) (aBit d.w0) d.w1 d.w2 d.w3 d.w4 := by
  obtain ⟨hl, hp, ha, hwords, harg⟩ := accepted_words h
  cases op
  case nop | halt => simp [buildInstr, State.operandsOf, hl rfl, hp rfl, ha rfl, hwords rfl, harg rfl]
  case bwtFwd | mtfEnc | mtfDec => simp only [buildInstr, State.operandsOf, hp rfl, ha rfl, harg rfl]
  case bwtInv => simp only [buildInstr, State.operandsOf, ha rfl]
  all_goals simp only [buildInstr, State.operandsOf, hp rfl]

/-- Settles O6. -/
theorem operandsResolve : Obligations.OperandsResolve := by
  intro s d i hd
  obtain ⟨op, -, haccepted, rfl⟩ := decode_ok hd
  rw [operandsOf_buildInstr s haccepted]
  exact ⟨rfl, rfl, rfl, rfl⟩

/-! ### Fetch (R96) -/

theorem fetchFault_of_misaligned {s : State} (h : s.cmdPtr.toNat % 4 ≠ 0) : s.fetchFault = some ⟨.cmdAlign, s.cmdPtr⟩ := if_pos h

theorem fetchFault_of_beyond {s : State} (h4 : s.cmdPtr.toNat % 4 = 0) (h : s.cfg.lmemSize.toNat < s.cmdPtr.toNat + 32) :
    s.fetchFault = some ⟨.cmdRange, s.cmdPtr⟩ := by
  rw [State.fetchFault, if_neg (not_not_intro h4), if_pos h]

theorem fetchFault_none {s : State} (h4 : s.cmdPtr.toNat % 4 = 0) (h : s.cmdPtr.toNat + 32 ≤ s.cfg.lmemSize.toNat) :
    s.fetchFault = none := by
  rw [State.fetchFault, if_neg (not_not_intro h4), if_neg (Nat.not_lt.mpr h)]

theorem step_of_fetchFault {s : State} {f : FaultReport} (hb : s.status.busy = true) (hq : s.hostQueue = [])
    (hf : s.fetchFault = some f) : ∃ t, step s = .next t ∧ StaticFaultTaken s t f :=
  ⟨_, (step_running hb hq).trans (commandStep_of_fetchFault hf), staticFaultTaken_raise s f⟩

theorem Lmem.drop_bytes (m : Lmem) (a n k : Nat) : (m.bytes a n).drop k = m.bytes (a + k) (n - k) := by
  induction k generalizing a n with
  | zero => rfl
  | succ k ih =>
    cases n with
    | zero => simp [Lmem.bytes]
    | succ n => simp only [Lmem.bytes, List.drop_succ_cons, ih, Nat.add_sub_add_right, Nat.add_assoc, Nat.add_comm 1 k]

theorem Lmem.take_bytes (m : Lmem) (a : Nat) {n k : Nat} (h : k ≤ n) : (m.bytes a n).take k = m.bytes a k := by
  induction k generalizing a n with
  | zero => rfl
  | succ k ih =>
    cases n with
    | zero => exact absurd h (by simp)
    | succ n => simp only [Lmem.bytes, List.take_succ_cons, ih (a + 1) (Nat.le_of_succ_le_succ h)]

/-- Word j of 32 bytes of LMEM is the little-endian word that stands 4j bytes on. -/
theorem wordAt_bytes (m : Lmem) (a : Nat) {j : Nat} (hj : j < 8) : (wordAt (m.bytes a 32) j).toNat = m.read (a + 4 * j) 4 := by
  have hbytes : ((m.bytes a 32).drop (4 * j)).take 4 = m.bytes (a + 4 * j) 4 := by
    rw [Lmem.drop_bytes, Lmem.take_bytes _ _ (by omega)]
  have hlt : leNat (m.bytes (a + 4 * j) 4) < 2 ^ 32 := by simpa using leNat_lt (m.bytes (a + 4 * j) 4)
  rw [wordAt, hbytes, BitVec.toNat_ofNat, Nat.mod_eq_of_lt hlt, Lmem.read]

theorem eq_wordAt_bytes {m : Lmem} {a j : Nat} {w : U32} (hj : j < 8) (h : w.toNat = m.read (a + 4 * j) 4) :
    w = wordAt (m.bytes a 32) j :=
  BitVec.eq_of_toNat_eq (h.trans (wordAt_bytes m a hj).symm)

/-- Settles O8. -/
theorem fetchChecksAndReads : Obligations.FetchChecksAndReads := by
  intro s hb hq
  refine ⟨fun h => step_of_fetchFault hb hq (fetchFault_of_misaligned h),
    fun h4 h => step_of_fetchFault hb hq (fetchFault_of_beyond h4 h), fun h4 h d h0 h1 h2 h3 h4' h5 h6 h7 => ?_⟩
  have hfetched : d = s.fetched := by
    obtain ⟨w0, w1, w2, w3, w4, w5, w6, w7⟩ := d
    simp only [State.fetched, Descriptor.ofBytes, Descriptor.mk.injEq]
    exact ⟨eq_wordAt_bytes (by omega) h0, eq_wordAt_bytes (by omega) h1, eq_wordAt_bytes (by omega) h2,
      eq_wordAt_bytes (by omega) h3, eq_wordAt_bytes (by omega) h4', eq_wordAt_bytes (by omega) h5,
      eq_wordAt_bytes (by omega) h6, eq_wordAt_bytes (by omega) h7⟩
  subst hfetched
  have hnone := fetchFault_none h4 h
  exact ⟨fun i => step_of_decode hb hq hnone, fun r => step_of_reject hb hq hnone⟩

end Sys2Proof.Machine
end

section
/-! The checks before any effect of a command (40_sequencer.md R99 to R101), in their order. -/

namespace Sys2Proof.Machine

open Sys2Proof

/-! ### The static opcode checks (R99) -/

theorem blockLenCheck_zero {c : Config} {o : Operands} (h : o.lenEff.toNat = 0) : blockLenCheck c o = some ⟨.lenZero, 0⟩ := if_pos h

theorem blockLenCheck_limit {c : Config} {o : Operands} (h : c.blockMax.toNat < o.lenEff.toNat) (h0 : o.lenEff.toNat ≠ 0) :
    blockLenCheck c o = some ⟨.lenLimit, o.lenEff⟩ := by
  rw [blockLenCheck, if_neg h0, if_pos h]

theorem blockLenCheck_none {c : Config} {o : Operands} (h0 : o.lenEff.toNat ≠ 0) (h : o.lenEff.toNat ≤ c.blockMax.toNat) :
    blockLenCheck c o = none := by
  rw [blockLenCheck, if_neg h0, if_neg (Nat.not_lt.mpr h)]

theorem primaryCheck_fails {o : Operands} (h : o.lenEff.toNat ≤ o.argEff.toNat) : primaryCheck o = some ⟨.primaryRange, o.argEff⟩ :=
  if_pos h

theorem primaryCheck_none {o : Operands} (h : o.argEff.toNat < o.lenEff.toNat) : primaryCheck o = none := if_neg (Nat.not_le.mpr h)

/-- Only three opcodes have a static check of their own. -/
theorem opcodeCheck_none_of_op {i : Instr} (c : Config) (o : Operands) (h : i.op ∉ [Op.bwtFwd, Op.bwtInv, Op.blkEnc]) :
    opcodeCheck c i o = none := by
  cases i with
  | bwtFwd | bwtInv | blkEnc => simp [Instr.op] at h
  | _ => rfl

/-- A static opcode check comes before the window checks: its fault is the command's, whatever the windows are. -/
theorem exec_opcodeCheck {i : Instr} {s : State} {f : FaultReport} (h : opcodeCheck s.cfg i (s.operandsOf i) = some f) :
    ∃ t, exec i s = .next t ∧ StaticFaultTaken s t f :=
  exec_static (by rw [State.staticFault, h, Option.some_or])

/-- Settles O9. -/
theorem staticOpcodeChecks : Obligations.StaticOpcodeChecks := by
  refine ⟨fun l src dst len s => ⟨fun h => ?_, fun h h0 => ?_⟩,
    fun l p src dst len arg s => ⟨fun h => ?_, fun h h0 => ?_, fun h0 h hp => ?_⟩,
    fun l a src dst len arg s => ⟨fun h => ?_, fun h h0 => ?_⟩, fun i s hop hw => ?_⟩
  · exact exec_opcodeCheck (blockLenCheck_zero h)
  · exact exec_opcodeCheck (blockLenCheck_limit h h0)
  · exact exec_opcodeCheck (Option.or_eq_some_iff.mpr (.inl (blockLenCheck_zero h)))
  · exact exec_opcodeCheck (Option.or_eq_some_iff.mpr (.inl (blockLenCheck_limit h h0)))
  · exact exec_opcodeCheck (Option.or_eq_some_iff.mpr (.inr ⟨blockLenCheck_none h0 h, primaryCheck_fails hp⟩))
  · exact exec_opcodeCheck (blockLenCheck_zero h)
  · exact exec_opcodeCheck (blockLenCheck_limit h h0)
  · exact staticFault_none (opcodeCheck_none_of_op s.cfg _ hop) hw

/-! ### The window checks (R100, R101) -/

theorem windowCheck_srcRange {c : Config} {v w : Window} {o : Operands} (h : c.lmemSize.toNat < v.start + v.size) :
    windowCheck c v w o = some ⟨.srcRange, o.src⟩ := by
  have hv : v.inRange c = false := decide_eq_false (Nat.not_le.mpr h)
  simp only [windowCheck, hv, Bool.not_false, if_true]

theorem windowCheck_dstRange {c : Config} {v w : Window} {o : Operands} (hv : v.start + v.size ≤ c.lmemSize.toNat)
    (h : c.lmemSize.toNat < w.start + w.size) : windowCheck c v w o = some ⟨.dstRange, o.dst⟩ := by
  have hv : v.inRange c = true := decide_eq_true hv
  have hw : w.inRange c = false := decide_eq_false (Nat.not_le.mpr h)
  simp only [windowCheck, hv, hw, Bool.not_true, Bool.not_false, Bool.false_eq_true, if_false, if_true]

theorem windowCheck_overlap {c : Config} {v w : Window} {o : Operands} (hv : v.start + v.size ≤ c.lmemSize.toNat)
    (hw : w.start + w.size ≤ c.lmemSize.toNat) (hmeet : v.overlaps w = true) : windowCheck c v w o = some ⟨.overlap, o.dst⟩ := by
  have hv : v.inRange c = true := decide_eq_true hv
  have hw : w.inRange c = true := decide_eq_true hw
  simp only [windowCheck, hv, hw, hmeet, Bool.not_true, Bool.false_eq_true, if_false, if_true]

theorem exec_windowCheck {i : Instr} {s : State} {f : FaultReport} (hc : opcodeCheck s.cfg i (s.operandsOf i) = none)
    (h : windowCheck s.cfg (srcWindow i (s.operandsOf i)) (dstWindow i (s.operandsOf i)) (s.operandsOf i) = some f) :
    ∃ t, exec i s = .next t ∧ StaticFaultTaken s t f :=
  exec_static (by rw [State.staticFault, hc, Option.none_or, h])

/-- Settles O10. -/
theorem windowChecks : Obligations.WindowChecks := by
  intro i s hc o a n b m
  refine ⟨fun h => exec_windowCheck hc (windowCheck_srcRange h), fun hsrc h => exec_windowCheck hc (windowCheck_dstRange hsrc h),
    fun hsrc hdst hn hm hab hba => ?_, staticFault_none hc⟩
  have hmeet : (srcWindow i o).overlaps (dstWindow i o) = true := by
    simp only [Window.overlaps, Bool.and_eq_true, decide_eq_true_eq]
    exact ⟨⟨⟨hn, hm⟩, hab⟩, hba⟩
  exact exec_windowCheck hc (windowCheck_overlap hsrc hdst hmeet)

end Sys2Proof.Machine
end

section
/-! An operation reads only its source window (40_sequencer.md R102): on two memories that agree there it has one effect,
and one effect on two states leaves them apart only where they were. -/

namespace Sys2Proof.Machine

open Sys2Proof

/-! ### One effect on two memories -/

theorem Lmem.byte_writeByte_congr {m m' : Lmem} {x : Nat} (a : Nat) (b : Byte) (h : m'.byte x = m.byte x) :
    (m'.writeByte a b).byte x = (m.writeByte a b).byte x := by
  by_cases hx : x = a
  · rw [hx, Lmem.byte_writeByte_same, Lmem.byte_writeByte_same]
  · rw [Lmem.byte_writeByte_other m' b hx, Lmem.byte_writeByte_other m b hx, h]

/-- The same bytes written at the same place leave a byte alike where it was alike. -/
theorem Lmem.byte_writeBytes_congr {m m' : Lmem} {x : Nat} (a : Nat) (bs : List Byte) (h : m'.byte x = m.byte x) :
    (m'.writeBytes a bs).byte x = (m.writeBytes a bs).byte x := by
  induction bs generalizing m m' a with
  | nil => exact h
  | cons b bs ih => exact ih (a + 1) (Lmem.byte_writeByte_congr a b h)

/-- The next states t and t' of two states with memories m and m' differ only in LMEM, and there only where m and m' do. -/
def SameButLmem (m m' : Lmem) (t t' : State) : Prop :=
  t' = { t with lmem := t'.lmem } ∧ ∀ a, m'.byte a = m.byte a → t'.lmem.byte a = t.lmem.byte a

section
variable (s : State) (m : Lmem) (u : Scratch)

theorem raiseFault_sameButLmem (f : FaultReport) :
    SameButLmem s.lmem m (s.raiseFault f) (({ s with lmem := m, scratch := u } : State).raiseFault f) := ⟨rfl, fun _ h => h⟩

theorem complete_sameButLmem (r : Results) :
    SameButLmem s.lmem m (s.complete r) (({ s with lmem := m, scratch := u } : State).complete r) := ⟨rfl, fun _ h => h⟩

theorem applyEffect_sameButLmem (w : Window) (e : Effect) :
    SameButLmem s.lmem m (s.applyEffect w e) (({ s with lmem := m, scratch := u } : State).applyEffect w e) := by
  cases e with
  | done out r g k => exact ⟨rfl, fun _ h => Lmem.byte_writeBytes_congr w.start out h⟩
  | fault f c k => exact ⟨rfl, fun _ h => Lmem.byte_writeBytes_congr w.start (freeBytes s.freeCount w) h⟩

/-- A data command whose operation has the same effect in both states. The static checks read no LMEM. -/
theorem runCommand_sameButLmem (i : Instr) {op op' : Operands → Effect} (h : op' (s.operandsOf i) = op (s.operandsOf i)) :
    ∃ t t', runCommand i s op = .next t ∧ runCommand i { s with lmem := m, scratch := u } op' = .next t' ∧
      SameButLmem s.lmem m t t' := by
  have hstatic : ({ s with lmem := m, scratch := u } : State).staticFault i = s.staticFault i := by cases i <;> rfl
  have hops : ({ s with lmem := m, scratch := u } : State).operandsOf i = s.operandsOf i := by cases i <;> rfl
  simp only [runCommand, hstatic, hops, h]
  cases s.staticFault i with
  | some f => exact ⟨_, _, rfl, rfl, raiseFault_sameButLmem s m u f⟩
  | none => exact ⟨_, _, rfl, rfl, applyEffect_sameButLmem s m u _ _⟩

end

/-! ### Reads within a range in which two memories agree -/

/-- The n bytes from address a are alike in the two memories. -/
def AgreeOn (m m' : Lmem) (a n : Nat) : Prop := ∀ x, a ≤ x → x < a + n → m'.byte x = m.byte x

section
variable {m m' : Lmem} {a n : Nat}

theorem AgreeOn.bytes_eq (h : AgreeOn m m' a n) : m'.bytes a n = m.bytes a n := Lmem.bytes_congr m m' a n h

theorem AgreeOn.part (h : AgreeOn m m' a n) {k j : Nat} (hin : k + j ≤ n) : AgreeOn m m' (a + k) j :=
  fun x hlo hhi => h x (by omega) (by omega)

theorem AgreeOn.read_eq (h : AgreeOn m m' a n) {k j : Nat} (hin : k + j ≤ n) : m'.read (a + k) j = m.read (a + k) j := by
  rw [Lmem.read, Lmem.read, (h.part hin).bytes_eq]

/-- The four header fields of a record (47_block_driver.md R182). -/
theorem AgreeOn.header_eq (h : AgreeOn m m' a n) (hroom : 16 ≤ n) : m'.read a 4 = m.read a 4 ∧
    m'.read (a + 4) 4 = m.read (a + 4) 4 ∧ m'.read (a + 8) 4 = m.read (a + 8) 4 ∧ m'.read (a + 12) 4 = m.read (a + 12) 4 :=
  ⟨h.read_eq (k := 0) (by omega), h.read_eq (by omega), h.read_eq (by omega), h.read_eq (by omega)⟩

/-- The header checks of a record read its 16 header bytes, and nothing if avail leaves no room for them. -/
theorem headerFault_congr (c : Config) (cap : Nat) (h : AgreeOn m m' a n) : headerFault c m' a n cap = headerFault c m a n cap := by
  by_cases hroom : n < 16
  · simp only [headerFault, hroom, if_true]
  · obtain ⟨hn, hpr, hrc, hcs⟩ := h.header_eq (not_lt.mp hroom)
    simp only [headerFault, hn, hpr, hrc, hcs]

/-- A header that passes its checks stands with its payload in the available bytes. -/
theorem record_within_of_headerFault_none {c : Config} {m : Lmem} {a avail cap : Nat} (h : headerFault c m a avail cap = none) :
    16 + m.read (a + 12) 4 ≤ avail := by
  simp only [headerFault] at h
  split_ifs at h
  omega

theorem blockDecode_congr (c : Config) (cap : Nat) (h : AgreeOn m m' a n) : blockDecode c m' a n cap = blockDecode c m a n cap := by
  have hheader := headerFault_congr c cap h
  cases hf : headerFault c m a n cap with
  | some f => simp only [blockDecode, hheader, hf]
  | none =>
    have hin := record_within_of_headerFault_none hf
    obtain ⟨hn, hpr, hrc, hcs⟩ := h.header_eq (by omega)
    simp only [blockDecode, hheader, hf, hn, hpr, hrc, hcs, (h.part hin).bytes_eq]

theorem strDecodeLoop_congr (c : Config) (cap fuel off : Nat) (p : StrProgress) (h : AgreeOn m m' a n) :
    strDecodeLoop c m' a n cap fuel off p = strDecodeLoop c m a n cap fuel off p := by
  induction fuel generalizing off p with
  | zero => rfl
  | succ fuel ih =>
    simp only [strDecodeLoop, ih]
    split_ifs with hoff
    · rw [blockDecode_congr c _ (h.part (by omega : off + (n - off) ≤ n))]
    · rfl

/-! ### The operations, on two memories that agree on the source window -/

theorem opBwtFwd_congr (o : Operands) (h : AgreeOn m m' o.src.toNat o.lenEff.toNat) : opBwtFwd m' o = opBwtFwd m o := by
  simp only [opBwtFwd, h.bytes_eq]

theorem opBwtInv_congr (o : Operands) (h : AgreeOn m m' o.src.toNat o.lenEff.toNat) : opBwtInv m' o = opBwtInv m o := by
  simp only [opBwtInv, h.bytes_eq]

theorem opMtfEnc_congr (o : Operands) (h : AgreeOn m m' o.src.toNat o.lenEff.toNat) : opMtfEnc m' o = opMtfEnc m o := by
  simp only [opMtfEnc, h.bytes_eq]

theorem opMtfDec_congr (o : Operands) (h : AgreeOn m m' o.src.toNat o.lenEff.toNat) : opMtfDec m' o = opMtfDec m o := by
  simp only [opMtfDec, h.bytes_eq]

theorem opRle0Enc_congr (o : Operands) (h : AgreeOn m m' o.src.toNat o.lenEff.toNat) : opRle0Enc m' o = opRle0Enc m o := by
  simp only [opRle0Enc, h.bytes_eq]

theorem opRle0Dec_congr (o : Operands) (h : AgreeOn m m' o.src.toNat o.lenEff.toNat) : opRle0Dec m' o = opRle0Dec m o := by
  simp only [opRle0Dec, h.bytes_eq]

theorem opCmEnc_congr (c : Config) (o : Operands) (h : AgreeOn m m' o.src.toNat o.lenEff.toNat) : opCmEnc c m' o = opCmEnc c m o := by
  simp only [opCmEnc, h.bytes_eq]

theorem opCmDec_congr (c : Config) (o : Operands) (h : AgreeOn m m' o.src.toNat o.argEff.toNat) : opCmDec c m' o = opCmDec c m o := by
  simp only [opCmDec, h.bytes_eq]

theorem opBlkEnc_congr (c : Config) (o : Operands) (h : AgreeOn m m' o.src.toNat o.lenEff.toNat) : opBlkEnc c m' o = opBlkEnc c m o := by
  simp only [opBlkEnc, h.bytes_eq]

theorem opStrEnc_congr (c : Config) (o : Operands) (h : AgreeOn m m' o.src.toNat o.lenEff.toNat) : opStrEnc c m' o = opStrEnc c m o := by
  simp only [opStrEnc, h.bytes_eq]

theorem opBlkDec_congr (c : Config) (o : Operands) (h : AgreeOn m m' o.src.toNat o.argEff.toNat) : opBlkDec c m' o = opBlkDec c m o := by
  rw [opBlkDec, opBlkDec, blockDecode_congr c _ h]

theorem opStrDec_congr (c : Config) (o : Operands) (h : AgreeOn m m' o.src.toNat o.argEff.toNat) : opStrDec c m' o = opStrDec c m o := by
  by_cases hroom : o.argEff.toNat < 8
  · simp only [opStrDec, hroom, if_true]
  · have hsize : m'.read o.src.toNat 8 = m.read o.src.toNat 8 := h.read_eq (k := 0) (by omega)
    simp only [opStrDec, strDecodeLoop_congr c _ _ _ _ h, hsize]

end

/-! ### Every command -/

/-- A command on two states that differ in unit state and in LMEM outside its source window. -/
theorem exec_sameButLmem (i : Instr) (s : State) (m : Lmem) (u : Scratch)
    (h : AgreeOn s.lmem m (srcWindow i (s.operandsOf i)).start (srcWindow i (s.operandsOf i)).size) :
    ∃ t t', exec i s = .next t ∧ exec i { s with lmem := m, scratch := u } = .next t' ∧ SameButLmem s.lmem m t t' := by
  cases i with
  | nop => exact ⟨_, _, rfl, rfl, complete_sameButLmem s m u Results.keep⟩
  | halt => exact ⟨_, _, rfl, rfl, rfl, fun _ hbyte => hbyte⟩
  | bwtFwd => exact runCommand_sameButLmem s m u _ (opBwtFwd_congr _ h)
  | bwtInv => exact runCommand_sameButLmem s m u _ (opBwtInv_congr _ h)
  | mtfEnc => exact runCommand_sameButLmem s m u _ (opMtfEnc_congr _ h)
  | mtfDec => exact runCommand_sameButLmem s m u _ (opMtfDec_congr _ h)
  | rle0Enc => exact runCommand_sameButLmem s m u _ (opRle0Enc_congr _ h)
  | rle0Dec => exact runCommand_sameButLmem s m u _ (opRle0Dec_congr _ h)
  | cmEnc => exact runCommand_sameButLmem s m u _ (opCmEnc_congr _ _ h)
  | cmDec => exact runCommand_sameButLmem s m u _ (opCmDec_congr _ _ h)
  | blkEnc => exact runCommand_sameButLmem s m u _ (opBlkEnc_congr _ _ h)
  | blkDec => exact runCommand_sameButLmem s m u _ (opBlkDec_congr _ _ h)
  | strEnc => exact runCommand_sameButLmem s m u _ (opStrEnc_congr _ _ h)
  | strDec => exact runCommand_sameButLmem s m u _ (opStrDec_congr _ _ h)

/-- Settles O13. -/
theorem operationsReadOnlySource : Obligations.OperationsReadOnlySource := by
  intro i s m u h
  obtain ⟨t, t', ht, ht', hsame, hbytes⟩ := exec_sameButLmem i s m u fun x hlo hhi =>
    h x (by simp only [Window.has, hlo, hhi, decide_true, Bool.and_self])
  exact ⟨t, t', ht, ht', hsame, hbytes⟩

end Sys2Proof.Machine
end

section
/-! The commands of one stage complete (41_bwt.md R117, R118; 42_mtf.md R124, R125; 43_rle0.md R131, R132;
46_range_coder.md R176, R177). -/

namespace Sys2Proof.Machine

open Sys2Proof

/-- A command that passes its own static check, has good windows and whose operation finishes completes with that
output (R99 to R103). -/
theorem exec_completes {i : Instr} {s : State} {op : Operands → Effect} {out : List Byte} {r : Results} {g : Option Dbg}
    {k : Sticky} (he : exec i s = runCommand i s op) (hc : opcodeCheck s.cfg i (s.operandsOf i) = none)
    (hw : WindowsOk s.cfg (srcWindow i (s.operandsOf i)).start (srcWindow i (s.operandsOf i)).size
      (dstWindow i (s.operandsOf i)).start (dstWindow i (s.operandsOf i)).size) (ho : op (s.operandsOf i) = .done out r g k) :
    ∃ t, exec i s = .next t ∧ CommandDone s t (dstWindow i (s.operandsOf i)).start out r (g.getD s.dbg) k :=
  exec_done he (staticFault_none hc hw) ho

/-! ### BWT and MTF -/

/-- Settles O15. -/
theorem bwtCommandsComplete : Obligations.BwtCommandsComplete := by
  intro l p src dst len arg s n pr x b hpos hmax hw
  have hlen := blockLenCheck_none (c := s.cfg) (o := s.operandsOf (.bwtFwd l src dst len)) hpos.ne' hmax
  refine ⟨?_, fun hpr => ?_⟩
  · obtain ⟨t, ht, hdone⟩ := exec_completes (i := .bwtFwd l src dst len) rfl hlen hw rfl
    exact ⟨t, ht, hdone, by simp [b, x]⟩
  · have hcheck : opcodeCheck s.cfg (.bwtInv l p src dst len arg) (s.operandsOf (.bwtInv l p src dst len arg)) = none :=
      Option.or_eq_none_iff.mpr ⟨hlen, primaryCheck_none hpr⟩
    obtain ⟨t, ht, hdone⟩ := exec_completes rfl hcheck hw rfl
    exact ⟨t, ht, hdone, by simp [x]⟩

/-- Settles O16. -/
theorem mtfCommandsComplete : Obligations.MtfCommandsComplete := by
  intro l src dst len s n x hw
  constructor
  · obtain ⟨t, ht, hdone⟩ := exec_completes (i := .mtfEnc l src dst len) rfl rfl hw rfl
    exact ⟨t, ht, hdone, by simp [x]⟩
  · obtain ⟨t, ht, hdone⟩ := exec_completes (i := .mtfDec l src dst len) rfl rfl hw rfl
    exact ⟨t, ht, hdone, by simp [x]⟩

/-! ### RLE0 -/

/-- A pending run of zeros has at least one byte of input behind it, so no run makes the output more than twice the
input (43_rle0.md R128). -/
theorem rleEncodeRun_length_le (r : Nat) (x : List Byte) :
    (rleEncodeRun r x).length ≤ 2 * x.length + if r = 0 then 0 else 2 := by
  induction x generalizing r with
  | nil => cases r <;> simp [rleEncodeRun]
  | cons b x ih =>
    cases r with
    | zero =>
      rw [rleEncodeRun]
      split
      · simpa [Nat.mul_add] using ih 1
      · simpa [Nat.mul_add] using (ih 0).trans (Nat.le_succ _)
    | succ r =>
      rw [rleEncodeRun]
      split
      · split
        · simpa [Nat.mul_add] using (ih (r + 2)).trans (Nat.le_add_right _ 2)
        · simpa [Nat.mul_add] using ih 1
      · simpa [Nat.mul_add] using (ih 0).trans (Nat.le_succ _)

theorem rleEncode_length_le (x : List Byte) : (rleEncode x).length ≤ 2 * x.length := rleEncodeRun_length_le 0 x

/-- Settles O17. -/
theorem rle0CommandsComplete : Obligations.Rle0CommandsComplete := by
  intro l a src dst len arg s n cap x hw
  refine ⟨fun hfit => ?_, fun hfit => ?_⟩
  · have hle : (rleEncode x).length ≤ cap.toNat := by
      rcases hfit with hfit | hfit
      · exact hfit
      · exact (rleEncode_length_le x).trans (by simpa [x] using hfit)
    exact exec_completes (i := .rle0Enc l a src dst len arg) rfl rfl hw (if_neg (Nat.not_lt.mpr hle))
  · exact exec_completes (i := .rle0Dec l a src dst len arg) rfl rfl hw (if_neg (Nat.not_lt.mpr hfit))

/-! ### The coder phases -/

theorem cmDecodePhase_nbits (c : Config) (pay : List Byte) (n : Nat) : (cmDecodePhase c pay n).1.nbits = 8 * n :=
  (decBytes_nbits c pay n _).trans (Nat.zero_add _)

/-- Settles O18. -/
theorem cmCommandsComplete : Obligations.CmCommandsComplete := by
  intro l a src dst len arg s n cap x e d
  refine ⟨fun hw hfit => ?_, fun hw => ?_⟩
  · obtain ⟨t, ht, hdone⟩ := exec_completes (i := .cmEnc l a src dst len arg) rfl rfl hw (if_neg (Nat.not_lt.mpr hfit))
    obtain ⟨hbits, hcode⟩ := cmEncodePhase_counts s.cfg x
    refine ⟨t, ht, hdone, ?_, ?_⟩
    · rw [Lmem.bytes_length] at hbits
      rw [hdone.dbg]
      exact congrArg (BitVec.ofNat 32) hbits
    · rw [hdone.dbg]
      exact hcode
  · obtain ⟨t, ht, hdone⟩ := exec_completes (i := .cmDec l a src dst len arg) rfl rfl hw rfl
    refine ⟨t, ht, hdone, cmDecodePhase_length s.cfg _ n.toNat, ?_⟩
    rw [hdone.dbg]
    exact congrArg (BitVec.ofNat 32) (cmDecodePhase_nbits s.cfg _ n.toNat)

end Sys2Proof.Machine
end

section
/-! The commands of the block driver complete (47_block_driver.md R185 to R188). -/

namespace Sys2Proof.Machine

open Sys2Proof

/-! ### BLK_ENC and BLK_DEC -/

theorem blockEncode_record_length (c : Config) (x : List Byte) :
    (blockEncode c x).record.length = 16 + (cmEncode c (rleEncode (mtfEncode (bwtForward x).1))).length := by
  simp only [blockEncode, cmEncode, List.length_append, leBytes_length]

theorem opBlkEnc_of_fits {c : Config} {m : Lmem} {o : Operands} {out : List Byte}
    (hout : (blockEncode c (m.bytes o.src.toNat o.lenEff.toNat)).record = out) (hfit : out.length ≤ o.argEff.toNat) :
    let e := blockEncode c (m.bytes o.src.toNat o.lenEff.toNat)
    opBlkEnc c m o = .done out ⟨some (asU32 out.length), some (asU32 e.primary), some (asU32 e.rleCount)⟩
      (some (dbgSnapshot e.cm)) ⟨false, false, e.cm.inv⟩ := by
  subst hout
  exact if_neg (Nat.not_lt.mpr hfit)

/-- Settles O19. -/
theorem blkEncCompletes : Obligations.BlkEncCompletes := by
  intro l a src dst len arg s n cap b r pay rec_ hpos hmax hw hfit
  have hrec : (blockEncode s.cfg (s.lmem.bytes src.toNat n.toNat)).record = rec_ := by
    simp only [blockEncode, Lmem.bytes_length]
    rfl
  have hlen : rec_.length = 16 + pay.length := hrec ▸ blockEncode_record_length s.cfg _
  obtain ⟨t, ht, hdone⟩ := exec_completes (i := .blkEnc l a src dst len arg) rfl (blockLenCheck_none hpos.ne' hmax) hw
    (opBlkEnc_of_fits hrec hfit)
  rw [hlen] at hdone
  exact ⟨t, ht, hdone⟩

theorem headerFault_none {c : Config} {m : Lmem} {a avail cap : Nat} (hmax : m.read a 4 ≤ c.blockMax.toNat)
    (hpr : m.read (a + 4) 4 < m.read a 4) (hcap : m.read a 4 ≤ cap) (havail : 16 + m.read (a + 12) 4 ≤ avail)
    (hrc : m.read (a + 8) 4 ≤ 2 * m.read a 4) : headerFault c m a avail cap = none := by
  have hroom : ¬ avail < 16 := by omega
  simp only [headerFault, hroom, if_false, Nat.not_lt.mpr hmax, Nat.not_le.mpr hpr, Nat.not_lt.mpr hcap, Nat.not_lt.mpr havail,
    Nat.not_lt.mpr hrc]

theorem opBlkDec_of_ok {c : Config} {m : Lmem} {o : Operands} {d : DecodedBlock}
    (h : blockDecode c m o.src.toNat o.argEff.toNat o.lenEff.toNat = .ok d) :
    opBlkDec c m o = .done d.block ⟨some (asU32 d.block.length), some d.primary, some (asU32 d.recLen)⟩
      (some (dbgSnapshot d.cm)) ⟨d.trail, false, d.cm.inv⟩ := by
  rw [opBlkDec, h]

/-- Settles O20. -/
theorem blkDecCompletes : Obligations.BlkDecCompletes := by
  intro l a src dst len arg s cap avail n pr rc cs d m hw hmax hpr hcap havail hrc hm
  have hblock : blockDecode s.cfg s.lmem src.toNat avail.toNat cap.toNat =
      .ok ⟨bwtInverse (mtfDecode m.1) pr, 16 + cs, asU32 pr, d.1, m.2⟩ := by
    simp only [blockDecode, headerFault_none hmax hpr hcap havail hrc]
    exact if_neg (not_not_intro hm)
  have hlen : (bwtInverse (mtfDecode m.1) pr).length = n := by rw [bwtInverse_length, mtfDecode_length, hm]
  obtain ⟨t, ht, hdone⟩ := exec_completes (i := .blkDec l a src dst len arg) rfl rfl hw (opBlkDec_of_ok hblock)
  rw [hlen] at hdone
  exact ⟨t, ht, hdone⟩

/-! ### STR_ENC -/

/-- The first block of a cut is what STR_ENC takes off its input first, and the others cut the rest. -/
theorem Blocks.first {n : Nat} {x b : List Byte} {bs : List (List Byte)} (h : Blocks n x (b :: bs)) :
    x.take n = b ∧ x.drop n = bs.flatten ∧ Blocks n bs.flatten bs := by
  obtain ⟨hjoined, hsizes, hfull⟩ := h
  have hle : b.length ≤ n := (hsizes b List.mem_cons_self).2
  subst hjoined
  cases bs with
  | nil => exact ⟨by simpa using hle, by simpa using hle, rfl, by simp, by simp⟩
  | cons b' bs =>
    have hlen : b.length = n := hfull b (by simp)
    exact ⟨List.take_left' hlen, List.drop_left' hlen, rfl, fun c hc => hsizes c (List.mem_cons_of_mem b hc),
      fun c hc => hfull c (by rw [List.dropLast_cons_cons]; exact List.mem_cons_of_mem b hc)⟩

theorem chunksOf_of_ne_nil {n fuel : Nat} {x : List Byte} (h : x ≠ []) :
    chunksOf n (fuel + 1) x = x.take n :: chunksOf n fuel (x.drop n) := by
  cases x with
  | nil => exact absurd rfl h
  | cons b x => rfl

/-- The cut of R187 is the one the model makes, with any fuel that covers the input. -/
theorem chunksOf_of_blocks {n fuel : Nat} {x : List Byte} {bs : List (List Byte)} (h : Blocks n x bs) (hfuel : x.length ≤ fuel) :
    chunksOf n fuel x = bs := by
  induction bs generalizing x fuel with
  | nil =>
    obtain rfl : x = [] := h.joined.symm
    cases fuel <;> rfl
  | cons b bs ih =>
    obtain ⟨htake, hdrop, hrest⟩ := h.first
    have hpos : 0 < b.length := (h.sizes b List.mem_cons_self).1
    have hlen : x.length = b.length + bs.flatten.length := by rw [← h.joined, List.flatten_cons, List.length_append]
    have hne : x ≠ [] := List.ne_nil_of_length_pos (by omega)
    obtain ⟨fuel, rfl⟩ := Nat.exists_eq_add_of_lt (show 0 < fuel by omega)
    rw [Nat.zero_add, chunksOf_of_ne_nil hne, htake, hdrop, ih hrest (by omega)]

theorem strEncoded_of_blocks {c : Config} {x : List Byte} {bs : List (List Byte)} (h : Blocks c.blockMax.toNat x bs) :
    strEncoded c x = bs.map (blockEncode c) := by
  rw [strEncoded, strBlocks, chunksOf_of_blocks h le_rfl]

theorem opStrEnc_of_blocks {c : Config} {m : Lmem} {o : Operands} {bs : List (List Byte)} {out : List Byte}
    (h : Blocks c.blockMax.toNat (m.bytes o.src.toNat o.lenEff.toNat) bs)
    (hout : out = leBytes 8 o.lenEff.toNat ++ bs.flatMap fun b => (blockEncode c b).record) (hfit : out.length ≤ o.argEff.toNat) :
    opStrEnc c m o = .done out ⟨some (asU32 out.length), none, some (asU32 bs.length)⟩
      (bs.getLast?.map fun b => dbgSnapshot (blockEncode c b).cm) ⟨false, false, bs.any fun b => (blockEncode c b).cm.inv⟩ := by
  have hcont : strContainer c (m.bytes o.src.toNat o.lenEff.toNat) = out := by
    rw [strContainer, strEncoded_of_blocks h, Lmem.bytes_length, List.flatMap_map, hout]
  simp only [opStrEnc, hcont, Nat.not_lt.mpr hfit, if_false, strEncoded_of_blocks h, List.length_map, List.getLast?_map,
    Option.map_map, List.any_map, Function.comp_def]

/-- Settles O21. -/
theorem strEncCompletes : Obligations.StrEncCompletes := by
  intro l a src dst len arg s bs n cap out hblocks hw hfit
  exact exec_completes (i := .strEnc l a src dst len arg) rfl rfl hw (opStrEnc_of_blocks hblocks rfl hfit)

/-! ### STR_DEC -/

/-- The loop of R188 ends within as many passes as there are bytes left, since every record takes some. -/
theorem strDecodeLoop_of_strRun {c : Config} {m : Lmem} {src avail cap off : Nat} {p q : StrProgress}
    (h : StrRun c m src avail cap off p q) : ∀ fuel, avail ≤ fuel + off → strDecodeLoop c m src avail cap fuel off p = .ok q := by
  induction h with
  | eof off p hend =>
    intro fuel _
    cases fuel with
    | zero => rfl
    | succ fuel => exact if_neg (Nat.not_lt.mpr hend)
  | record off p q d hoff hd _ ih =>
    intro fuel hfuel
    have hrec := (blockDecode_fits hd).2
    cases fuel with
    | zero => omega
    | succ fuel =>
      rw [strDecodeLoop, if_pos hoff, hd]
      exact ih fuel (by omega)

theorem opStrDec_of_ok {c : Config} {m : Lmem} {o : Operands} {q : StrProgress} (hroom : 8 ≤ o.argEff.toNat)
    (h : strDecodeLoop c m o.src.toNat o.argEff.toNat o.lenEff.toNat o.argEff.toNat 8 StrProgress.start = .ok q) :
    opStrDec c m o = .done q.out ⟨some (asU32 q.out.length), none, some (asU32 q.records)⟩ (q.cm.map dbgSnapshot)
      ⟨q.sticky.rleTrail, decide (q.out.length ≠ m.read o.src.toNat 8), q.sticky.coderInv⟩ := by
  simp only [opStrDec, Nat.not_lt.mpr hroom, if_false, h]

/-- Settles O22. -/
theorem strDecCompletes : Obligations.StrDecCompletes := by
  intro l a src dst len arg s q cap avail hw hroom hrun
  have hloop := strDecodeLoop_of_strRun hrun avail.toNat (Nat.le_add_right _ _)
  exact exec_completes (i := .strDec l a src dst len arg) rfl rfl hw (opStrDec_of_ok hroom hloop)

end Sys2Proof.Machine
end

section
/-! The Burrows-Wheeler transform: the sorted rotation order, and the inverse (41_bwt.md R110, R111, R114, R115). -/

namespace Sys2Proof.Machine

open Sys2Proof

/-! ### Rotations and their order (R110) -/

theorem rot_eq_rotate {s : List Byte} {i : Nat} (hi : i ≤ s.length) : rot s i = s.rotate i :=
  (List.rotate_eq_drop_append_take hi).symm

/-- What rotations are compared by: the unsigned values of the bytes, then the start index (R110). -/
def rotKey (s : List Byte) (i : Nat) : Lex (List Nat × Nat) := toLex ((rot s i).map BitVec.toNat, i)

theorem rotKey_lt_iff (s : List Byte) (i j : Nat) : rotKey s i < rotKey s j ↔
    (rot s i).map BitVec.toNat < (rot s j).map BitVec.toNat ∨ (rot s i = rot s j ∧ i < j) := by
  rw [rotKey, rotKey, Prod.Lex.toLex_lt_toLex, (List.map_injective_iff.mpr fun _ _ => BitVec.eq_of_toNat_eq).eq_iff]

theorem rotKey_injective (s : List Byte) : Function.Injective (rotKey s) := fun _ _ h =>
  congrArg (fun k => (ofLex k).2) h

/-- `lexLt` is the lexicographic order of the unsigned values. -/
theorem lexLt_iff (s t : List Byte) : lexLt s t = true ↔ s.map BitVec.toNat < t.map BitVec.toNat := by
  induction s generalizing t with
  | nil => cases t <;> simp [lexLt]
  | cons a s ih =>
    cases t with
    | nil => simp [lexLt]
    | cons b t =>
      rw [List.map_cons, List.map_cons, List.cons_lt_cons_iff, ← ih t, lexLt]
      rcases lt_trichotomy a.toNat b.toNat with h | h | h
      · simp only [h, if_true, true_or]
      · simp only [h, lt_irrefl, if_false, false_or, true_and]
      · simp only [h, h.not_gt, h.ne', if_true, if_false, false_and, or_self, Bool.false_eq_true]

/-- The model's test of two rotations is the order of their keys (R110). -/
theorem rotLe_iff (s : List Byte) (i j : Nat) : rotLe s i j = true ↔ rotKey s i ≤ rotKey s j := by
  rw [rotKey, rotKey, Prod.Lex.toLex_le_toLex, rotLe, Bool.or_eq_true, Bool.and_eq_true, Bool.not_eq_true', ← Bool.not_eq_true,
    lexLt_iff, lexLt_iff, decide_eq_true_iff, not_lt]
  exact or_congr_right' fun h => and_congr_left' ⟨fun hle => hle.eq_of_not_lt h, le_of_eq⟩

/-! ### The sorted rotation order -/

theorem insertRot_eq_orderedInsert (s : List Byte) (i : Nat) (l : List Nat) :
    insertRot s i l = l.orderedInsert (fun i j => rotKey s i ≤ rotKey s j) i := by
  induction l with
  | nil => rfl
  | cons j l ih => simp only [insertRot, List.orderedInsert_cons, rotLe_iff, ih]

theorem sortRots_eq_insertionSort (s : List Byte) (l : List Nat) :
    sortRots s l = l.insertionSort fun i j => rotKey s i ≤ rotKey s j := by
  induction l with
  | nil => rfl
  | cons i l ih => rw [sortRots, insertRot_eq_orderedInsert, ih, List.insertionSort_cons]

@[simp] theorem suffixOrder_length (s : List Byte) : (suffixOrder s).length = s.length := by simp [suffixOrder]

theorem suffixOrder_perm (s : List Byte) : (suffixOrder s).Perm (List.range s.length) := by
  rw [suffixOrder, sortRots_eq_insertionSort]
  exact List.perm_insertionSort _ _

theorem suffixOrder_nodup (s : List Byte) : (suffixOrder s).Nodup := (suffixOrder_perm s).nodup_iff.mpr List.nodup_range

theorem mem_suffixOrder {s : List Byte} {i : Nat} : i ∈ suffixOrder s ↔ i < s.length :=
  (suffixOrder_perm s).mem_iff.trans List.mem_range

theorem suffixOrder_pairwise_le (s : List Byte) : (suffixOrder s).Pairwise fun i j => rotKey s i ≤ rotKey s j := by
  rw [suffixOrder, sortRots_eq_insertionSort]
  have : IsTrans Nat fun i j => rotKey s i ≤ rotKey s j := ⟨fun _ _ _ => le_trans⟩
  have : Std.Total fun i j => rotKey s i ≤ rotKey s j := ⟨fun _ _ => le_total _ _⟩
  exact List.pairwise_insertionSort _ _

theorem suffixOrder_pairwise_lt (s : List Byte) : (suffixOrder s).Pairwise fun i j => rotKey s i < rotKey s j :=
  ((suffixOrder_pairwise_le s).and (suffixOrder_nodup s)).imp fun h => lt_of_le_of_ne h.1 ((rotKey_injective s).ne h.2)

theorem eq_suffixOrder {s : List Byte} {l : List Nat} (hp : l.Perm (List.range s.length))
    (hs : l.Pairwise fun i j => rotKey s i < rotKey s j) : l = suffixOrder s :=
  (hp.trans (suffixOrder_perm s).symm).eq_of_pairwise (fun _ _ _ _ h h' => (h.asymm h').elim) hs (suffixOrder_pairwise_lt s)

/-! ### BwtForward (R111) -/

theorem bwtForward_primary (s : List Byte) : (bwtForward s).2 = (suffixOrder s).idxOf 0 := rfl

theorem getElem?_byteBefore {s : List Byte} (i : Nat) (hs : s ≠ []) :
    s[(i + s.length - 1) % s.length]? = some (byteBefore s i) := by
  have hlt : (i + s.length - 1) % s.length < s.length := Nat.mod_lt _ (List.length_pos_iff.mpr hs)
  rw [byteBefore, List.getD_eq_getElem _ _ hlt, List.getElem?_eq_getElem hlt]

theorem bwtForward_getElem? (s : List Byte) (r : Nat) : (bwtForward s).1[r]? = (suffixOrder s)[r]?.map (byteBefore s) := by
  simp [bwtForward]

/-- The rotation that starts at 0 is at position primary, and nowhere else. -/
theorem suffixOrder_getElem?_zero_iff {s : List Byte} (hs : s ≠ []) (r : Nat) :
    (suffixOrder s)[r]? = some 0 ↔ r = (bwtForward s).2 := by
  have hmem : 0 ∈ suffixOrder s := mem_suffixOrder.mpr (List.length_pos_iff.mpr hs)
  rw [bwtForward_primary]
  constructor
  · intro h
    obtain ⟨hr, h⟩ := List.getElem?_eq_some_iff.mp h
    rw [← h, (suffixOrder_nodup s).idxOf_getElem]
  · rintro rfl
    exact List.getElem?_idxOf hmem

/-- Settles O26. -/
theorem bwtForwardSortsRotations : Obligations.BwtForwardSortsRotations := by
  intro s ordered sa b
  have hord : ∀ l, ordered l ↔ l.Perm (List.range s.length) ∧ l.Pairwise fun i j => rotKey s i < rotKey s j := by
    simp [ordered, rotKey_lt_iff]
  refine ⟨fun i hi => ?_, (hord sa).mpr ⟨suffixOrder_perm s, suffixOrder_pairwise_lt s⟩,
    fun l hl => eq_suffixOrder ((hord l).mp hl).1 ((hord l).mp hl).2, bwtForward_length s, fun r hr => ?_, fun hs => ?_⟩
  · rw [rot_eq_rotate hi.le]
    exact ⟨s.length_rotate i, fun k hk => by rw [List.getElem?_rotate hk, Nat.add_comm]⟩
  · have hr' : r < sa.length := by simpa [sa] using hr
    rw [getElem?_byteBefore _ (List.ne_nil_of_length_pos (Nat.zero_lt_of_lt hr)), bwtForward_getElem?, List.getElem?_eq_getElem hr',
      List.getD_eq_getElem _ _ hr', Option.map_some]
  · have hprim := (suffixOrder_getElem?_zero_iff hs b.2).mpr rfl
    refine ⟨?_, hprim, fun r => (suffixOrder_getElem?_zero_iff hs r).mp⟩
    simpa using (List.getElem?_eq_some_iff.mp hprim).1

end Sys2Proof.Machine
end

section
/-! The inverse transform: the next-index permutation and its walk (41_bwt.md R114, R115). -/

namespace Sys2Proof.Machine

open Sys2Proof

/-! ### The offset table -/

theorem prefixSums_getElem? (t : Nat) {ns : List Nat} {c : Nat} (hc : c < ns.length) :
    (prefixSums t ns)[c]? = some (t + (ns.take c).sum) := by
  induction ns generalizing t c with
  | nil => simp at hc
  | cons n ns ih =>
    cases c with
    | zero => simp [prefixSums]
    | succ c => simp [prefixSums, ih (t + n) (Nat.lt_of_succ_lt_succ hc), Nat.add_assoc]

/-- How many bytes are below c. -/
def countBelow (last : List Byte) (c : Nat) : Nat := last.countP fun b => b.toNat < c

theorem countBelow_succ (last : List Byte) {c : Nat} (hc : c < 256) :
    countBelow last (c + 1) = countBelow last c + last.count (BitVec.ofNat 8 c) := by
  have htoNat : (BitVec.ofNat 8 c).toNat = c := Nat.mod_eq_of_lt hc
  induction last with
  | nil => rfl
  | cons b last ih =>
    simp only [countBelow, List.countP_cons, List.count_cons, beq_iff_eq, ← BitVec.toNat_inj, htoNat, decide_eq_true_eq] at ih ⊢
    split_ifs <;> omega

/-- Below a byte a, and a itself, come no more bytes than below a greater byte. -/
theorem countBelow_add_count_le (last : List Byte) {a : Byte} {c : Nat} (h : a.toNat < c) :
    countBelow last a.toNat + last.count a ≤ countBelow last c := by
  calc countBelow last a.toNat + last.count a
      = countBelow last (a.toNat + 1) := by rw [countBelow_succ last a.isLt, BitVec.ofNat_toNat, BitVec.setWidth_eq]
    _ ≤ countBelow last c := List.countP_mono_left fun b _ hb => by simp only [decide_eq_true_eq] at hb ⊢; omega

theorem sum_byteCounts_take (last : List Byte) {c : Nat} (hc : c ≤ 256) : ((byteCounts last).take c).sum = countBelow last c := by
  induction c with
  | zero => simp [countBelow]
  | succ c ih =>
    have hlen : c < (byteCounts last).length := by simpa [byteCounts] using hc
    rw [List.sum_take_succ _ _ hlen, ih (by omega), countBelow_succ last (by omega)]
    simp [byteCounts]

/-! ### The next-index permutation (R114) -/

/-- Where the assignment puts index i: after the smaller bytes and the earlier occurrences of the same byte. -/
def lfPos (last : List Byte) (i : Nat) : Nat :=
  countBelow last (last.getD i 0).toNat + (last.take i).count (last.getD i 0)

/-- Indices compared by their byte, then by the index. -/
def byteKey (last : List Byte) (i : Nat) : Lex (Nat × Nat) := toLex ((last.getD i 0).toNat, i)

/-- One more occurrence of byte i is seen once index i is passed. -/
theorem count_take_lt_count_take {last : List Byte} {i j : Nat} (hi : i < last.length) (hij : i < j) :
    (last.take i).count (last.getD i 0) < (last.take j).count (last.getD i 0) := by
  have hsub : (last.take (i + 1)).Sublist (last.take j) := (List.take_prefix_take_left hij).sublist
  have hcount := hsub.count_le (last.getD i 0)
  rw [List.getD_eq_getElem _ _ hi] at hcount ⊢
  rw [List.take_succ_eq_append_getElem hi, List.count_append, List.count_singleton_self] at hcount
  exact hcount

theorem lfPos_lt_countBelow_add_count {last : List Byte} {i : Nat} (hi : i < last.length) :
    lfPos last i < countBelow last (last.getD i 0).toNat + last.count (last.getD i 0) := by
  have h := count_take_lt_count_take hi hi
  rw [List.take_length] at h
  exact Nat.add_lt_add_left h _

theorem lfPos_lt_lfPos {last : List Byte} {i j : Nat} (hi : i < last.length) (h : byteKey last i < byteKey last j) :
    lfPos last i < lfPos last j := by
  obtain hbyte | ⟨hbyte, hij⟩ := Prod.Lex.toLex_lt_toLex.mp h
  · calc lfPos last i
        < countBelow last (last.getD i 0).toNat + last.count (last.getD i 0) := lfPos_lt_countBelow_add_count hi
      _ ≤ countBelow last (last.getD j 0).toNat := countBelow_add_count_le last hbyte
      _ ≤ lfPos last j := Nat.le_add_right _ _
  · rw [lfPos, lfPos, ← BitVec.eq_of_toNat_eq hbyte]
    exact Nat.add_lt_add_left (count_take_lt_count_take hi hij) _

theorem byteKey_injective (last : List Byte) : Function.Injective (byteKey last) := fun _ _ h =>
  congrArg (fun k => (ofLex k).2) h

theorem lfPos_inj {last : List Byte} {i j : Nat} (hi : i < last.length) (hj : j < last.length) (h : lfPos last i = lfPos last j) :
    i = j := by
  obtain hlt | heq | hgt := lt_trichotomy (byteKey last i) (byteKey last j)
  · exact absurd h (lfPos_lt_lfPos hi hlt).ne
  · exact byteKey_injective last heq
  · exact absurd h (lfPos_lt_lfPos hj hgt).ne'

/-- The places are in the order of the keys. -/
theorem byteKey_lt_of_lfPos_lt {last : List Byte} {i j : Nat} (hj : j < last.length) (h : lfPos last i < lfPos last j) :
    byteKey last i < byteKey last j := by
  obtain hlt | heq | hgt := lt_trichotomy (byteKey last i) (byteKey last j)
  · exact hlt
  · exact absurd (congrArg (lfPos last) (byteKey_injective last heq)) h.ne
  · exact absurd (lfPos_lt_lfPos hj hgt) h.asymm

theorem lfPos_lt_length {last : List Byte} {i : Nat} (hi : i < last.length) : lfPos last i < last.length :=
  calc lfPos last i
      < countBelow last (last.getD i 0).toNat + last.count (last.getD i 0) := lfPos_lt_countBelow_add_count hi
    _ ≤ countBelow last 256 := countBelow_add_count_le last (last.getD i 0).isLt
    _ ≤ last.length := List.countP_le_length

/-- Where the assignment of R114 stands before index i. -/
structure FillState (last : List Byte) (i : Nat) (offsets next : List Nat) : Prop where
  offset (b : Byte) : offsets[b.toNat]? = some (countBelow last b.toNat + (last.take i).count b)
  length : next.length = last.length
  placed (j : Nat) (hj : j < i) : next[lfPos last j]? = some j

theorem FillState.initial (last : List Byte) :
    FillState last 0 (prefixSums 0 (byteCounts last)) (List.replicate last.length 0) where
  offset b := by
    have hlen : b.toNat < (byteCounts last).length := by simpa [byteCounts] using b.isLt
    simp [prefixSums_getElem? 0 hlen, sum_byteCounts_take last b.isLt.le]
  length := List.length_replicate
  placed j hj := absurd hj (Nat.not_lt_zero j)

theorem FillState.offset_eq_lfPos {last : List Byte} {i : Nat} {offsets next : List Nat} (h : FillState last i offsets next) :
    offsets.getD (last.getD i 0).toNat 0 = lfPos last i := by
  rw [List.getD_eq_getElem?_getD, h.offset, Option.getD_some, lfPos]

/-- Index i goes to its place, and no index before it is overwritten. -/
theorem FillState.step {last : List Byte} {i : Nat} {offsets next : List Nat} (hi : i < last.length)
    (h : FillState last i offsets next) :
    FillState last (i + 1) (offsets.set (last.getD i 0).toNat (lfPos last i + 1)) (next.set (lfPos last i) i) where
  offset b := by
    have htake : last.take (i + 1) = last.take i ++ [last.getD i 0] := by
      rw [List.take_succ_eq_append_getElem hi, List.getD_eq_getElem _ _ hi]
    rw [htake, List.count_append]
    obtain rfl | hb := eq_or_ne (last.getD i 0) b
    · have hlt := (List.getElem?_eq_some_iff.mp (h.offset (last.getD i 0))).1
      rw [List.getElem?_set_self hlt, List.count_singleton_self, lfPos, Nat.add_assoc]
    · have hne : (last.getD i 0).toNat ≠ b.toNat := fun heq => hb (BitVec.eq_of_toNat_eq heq)
      rw [List.getElem?_set_ne hne, h.offset, List.count_singleton, if_neg (by simpa using hb), Nat.add_zero]
  length := by rw [List.length_set, h.length]
  placed j hj := by
    obtain hlt | rfl := Nat.lt_succ_iff_lt_or_eq.mp hj
    · rw [List.getElem?_set_ne fun heq => hlt.ne' (lfPos_inj hi (hlt.trans hi) heq), h.placed j hlt]
    · exact List.getElem?_set_self (h.length ▸ lfPos_lt_length hi)

theorem FillState.finish {last : List Byte} {i : Nat} {offsets next : List Nat} (h : FillState last i offsets next)
    (hi : i ≤ last.length) : ∃ offsets', FillState last last.length offsets' (fillNext i (last.drop i) offsets next) := by
  induction hi using Nat.decreasingInduction generalizing offsets next with
  | self => exact ⟨offsets, by simpa [fillNext] using h⟩
  | of_succ i hi ih =>
    rw [List.drop_eq_getElem_cons hi, fillNext, ← List.getD_eq_getElem last 0 hi, h.offset_eq_lfPos]
    exact ih (h.step hi)

theorem nextArray_fillState (last : List Byte) : ∃ offsets, FillState last last.length offsets (nextArray last) :=
  (FillState.initial last).finish (Nat.zero_le _)

@[simp] theorem nextArray_length (last : List Byte) : (nextArray last).length = last.length :=
  let ⟨_, h⟩ := nextArray_fillState last
  h.length

/-- The next-index permutation is the inverse of the placing. -/
theorem nextArray_lfPos {last : List Byte} {i : Nat} (hi : i < last.length) : (nextArray last)[lfPos last i]? = some i :=
  let ⟨_, h⟩ := nextArray_fillState last
  h.placed i hi

/-- A list of n entries that holds every index below n is a permutation of the indices. -/
theorem perm_range_of_forall_mem {l : List Nat} {n : Nat} (hlen : l.length = n) (h : ∀ i < n, i ∈ l) : l.Perm (List.range n) := by
  have hsub : (List.range n).Subperm l := List.nodup_range.subperm fun i hi => h i (List.mem_range.mp hi)
  exact (hsub.perm_of_length_le (by simp [hlen])).symm

theorem nextArray_perm (last : List Byte) : (nextArray last).Perm (List.range last.length) :=
  perm_range_of_forall_mem (nextArray_length last) fun _ hi => List.mem_of_getElem? (nextArray_lfPos hi)

theorem nextArray_getElem_lt {last : List Byte} {p : Nat} (hp : p < (nextArray last).length) : (nextArray last)[p] < last.length :=
  List.mem_range.mp ((nextArray_perm last).mem_iff.mp (List.getElem_mem hp))

theorem lfPos_nextArray {last : List Byte} {p : Nat} (hp : p < (nextArray last).length) : lfPos last (nextArray last)[p] = p := by
  have hnodup : (nextArray last).Nodup := (nextArray_perm last).nodup_iff.mpr List.nodup_range
  obtain ⟨_, heq⟩ := List.getElem?_eq_some_iff.mp (nextArray_lfPos (nextArray_getElem_lt hp))
  exact hnodup.getElem_inj_iff.mp heq

/-- The next-index permutation lists the indices by their byte, and those of one byte ascending. -/
theorem nextArray_pairwise (last : List Byte) : (nextArray last).Pairwise fun i j => byteKey last i < byteKey last j := by
  refine List.pairwise_iff_getElem.mpr fun p q hp hq hpq => byteKey_lt_of_lfPos_lt (nextArray_getElem_lt hq) ?_
  rwa [lfPos_nextArray, lfPos_nextArray]

end Sys2Proof.Machine
end

section
/-! The walk of the inverse transform gives the block back (41_bwt.md R115). -/

namespace Sys2Proof.Machine

open Sys2Proof

/-! ### One step back in a block -/

theorem rotate_length_sub_one {x : List Byte} {b : Byte} (hb : x.getLast? = some b) : x.rotate (x.length - 1) = b :: x.dropLast := by
  obtain ⟨y, rfl⟩ := List.getLast?_eq_some_iff.mp hb
  simp

theorem getLast?_rotate {s : List Byte} (hs : s ≠ []) (i : Nat) : (s.rotate i).getLast? = some (byteBefore s i) := by
  have hpos : 0 < s.length := List.length_pos_iff.mpr hs
  rw [List.getLast?_eq_getElem?, List.length_rotate, List.getElem?_rotate (Nat.sub_one_lt_of_lt hpos), ← getElem?_byteBefore i hs,
    show s.length - 1 + i = i + s.length - 1 by omega]

/-- The rotation one start earlier brings the byte before to the front. -/
theorem rotate_prev {s : List Byte} (hs : s ≠ []) (i : Nat) :
    s.rotate (i + s.length - 1) = byteBefore s i :: (s.rotate i).dropLast := by
  have hpos : 0 < s.length := List.length_pos_iff.mpr hs
  rw [← rotate_length_sub_one (getLast?_rotate hs i), List.rotate_rotate, List.length_rotate, Nat.add_sub_assoc hpos]

theorem rotate_prev_succ {s : List Byte} (hs : s ≠ []) (i : Nat) : (s.rotate (i + s.length - 1)).rotate 1 = s.rotate i := by
  have hpos : 0 < s.length := List.length_pos_iff.mpr hs
  rw [List.rotate_rotate, show i + s.length - 1 + 1 = i + s.length by omega, ← List.rotate_mod, Nat.add_mod_right, List.rotate_mod]

theorem lt_of_dropLast_lt_dropLast {x y : List Nat} (hlen : x.length = y.length) (h : x.dropLast < y.dropLast) : x < y := by
  induction x generalizing y with
  | nil =>
    obtain rfl := List.eq_nil_of_length_eq_zero hlen.symm
    exact h
  | cons a x ih =>
    match x, y with
    | _, [] => simp at hlen
    | _ :: _, [_] | [], _ :: _ :: _ => simp at hlen
    | [], [_] => exact absurd h (lt_irrefl [])
    | a' :: x, b :: b' :: y =>
      exact List.cons_lt_cons_iff.mpr <|
        (List.cons_lt_cons_iff.mp h).imp_right fun ⟨hab, hlt⟩ => ⟨hab, ih (Nat.succ_injective hlen) hlt⟩

/-! ### The rows of the sorted rotations -/

/-- The rotation at sorted position r. -/
def sortedRow (s : List Byte) (r : Nat) : List Byte := s.rotate ((suffixOrder s).getD r 0)

/-- The rotation one start before the one at sorted position r. -/
def rowBefore (s : List Byte) (r : Nat) : List Byte := s.rotate ((suffixOrder s).getD r 0 + s.length - 1)

theorem bwtForward_getD {s : List Byte} {r : Nat} (hr : r < s.length) :
    (bwtForward s).1.getD r 0 = byteBefore s ((suffixOrder s).getD r 0) := by
  have hlt : r < (suffixOrder s).length := by simpa using hr
  rw [List.getD_eq_getElem?_getD, bwtForward_getElem?, List.getElem?_eq_getElem hlt, Option.map_some, Option.getD_some,
    List.getD_eq_getElem _ _ hlt]

theorem rowBefore_eq_cons {s : List Byte} {r : Nat} (hr : r < s.length) :
    rowBefore s r = (bwtForward s).1.getD r 0 :: (sortedRow s r).dropLast := by
  rw [bwtForward_getD hr, rowBefore, rotate_prev (List.ne_nil_of_length_pos (Nat.zero_lt_of_lt hr)), sortedRow]

/-- Later rows are no smaller. -/
theorem sortedRow_le_sortedRow {s : List Byte} {p q : Nat} (hpq : p < q) (hq : q < s.length) :
    (sortedRow s p).map BitVec.toNat ≤ (sortedRow s q).map BitVec.toNat := by
  have hq' : q < (suffixOrder s).length := by simpa using hq
  have hp' := hpq.trans hq'
  have hkey := List.pairwise_iff_getElem.mp (suffixOrder_pairwise_lt s) p q hp' hq' hpq
  rw [rotKey_lt_iff, rot_eq_rotate (mem_suffixOrder.mp (List.getElem_mem hp')).le,
    rot_eq_rotate (mem_suffixOrder.mp (List.getElem_mem hq')).le] at hkey
  rw [sortedRow, sortedRow, List.getD_eq_getElem _ _ hp', List.getD_eq_getElem _ _ hq']
  exact hkey.elim le_of_lt fun h => (congrArg _ h.1).le

/-- Taken by last byte, then by position, the rows one start before ascend. -/
theorem rowBefore_le_rowBefore {s : List Byte} {p q : Nat} (hp : p < s.length) (hq : q < s.length)
    (h : byteKey (bwtForward s).1 p < byteKey (bwtForward s).1 q) :
    (rowBefore s p).map BitVec.toNat ≤ (rowBefore s q).map BitVec.toNat := by
  rw [rowBefore_eq_cons hp, rowBefore_eq_cons hq, List.map_cons, List.map_cons, List.map_dropLast, List.map_dropLast]
  obtain hbyte | ⟨hbyte, hpq⟩ := Prod.Lex.toLex_lt_toLex.mp h
  · exact le_of_lt (List.cons_lt_cons_iff.mpr (.inl hbyte))
  · rw [show ((bwtForward s).1.getD p 0).toNat = ((bwtForward s).1.getD q 0).toNat from hbyte]
    refine List.cons_le_cons _ (not_lt.mp fun hlt => (sortedRow_le_sortedRow hpq hq).not_gt ?_)
    exact lt_of_dropLast_lt_dropLast (by simp [sortedRow]) hlt

theorem perm_range_prev (n : Nat) : ((List.range n).map fun i => (i + n - 1) % n).Perm (List.range n) := by
  refine perm_range_of_forall_mem (by simp) fun i hi => List.mem_map.mpr ⟨(i + 1) % n, List.mem_range.mpr (Nat.mod_lt _ (by omega)), ?_⟩
  obtain hlt | heq := Nat.lt_or_eq_of_le (Nat.succ_le_of_lt hi)
  · rw [Nat.mod_eq_of_lt hlt, show i + 1 + n - 1 = i + n by omega, Nat.add_mod_right, Nat.mod_eq_of_lt hi]
  · rw [show i + 1 = n from heq, Nat.mod_self, Nat.mod_eq_of_lt (by omega)]
    omega

theorem map_range_getD (l : List Nat) : (List.range l.length).map (fun r => l.getD r 0) = l := by
  refine List.ext_getElem (by simp) fun i _ hi => ?_
  rw [List.getElem_map, List.getElem_range, List.getD_eq_getElem _ _ hi]

/-- The rows one start before are the rows again, in another order. -/
theorem map_rowBefore_perm (s : List Byte) :
    ((List.range s.length).map (rowBefore s)).Perm ((List.range s.length).map (sortedRow s)) := by
  have hsa : (List.range s.length).map (fun r => (suffixOrder s).getD r 0) = suffixOrder s := by
    simpa using map_range_getD (suffixOrder s)
  have hrow : (List.range s.length).map (sortedRow s) = (suffixOrder s).map s.rotate := by
    rw [← congrArg (List.map s.rotate) hsa, List.map_map]
    rfl
  have hbefore : (List.range s.length).map (rowBefore s) = ((suffixOrder s).map fun i => (i + s.length - 1) % s.length).map s.rotate := by
    rw [← congrArg (List.map _) hsa, List.map_map, List.map_map]
    simp [Function.comp_def, rowBefore, List.rotate_mod]
  rw [hrow, hbefore]
  exact ((((suffixOrder_perm s).map _).trans (perm_range_prev s.length)).trans (suffixOrder_perm s).symm).map _

/-- Sorting by the last byte, as the inverse does, sorts the rows one start before: they are the rows in order. -/
theorem map_nextArray_rowBefore (s : List Byte) :
    (nextArray (bwtForward s).1).map (rowBefore s) = (List.range s.length).map (sortedRow s) := by
  have hnext : (nextArray (bwtForward s).1).Perm (List.range s.length) := by simpa using nextArray_perm (bwtForward s).1
  refine ((hnext.map _).trans (map_rowBefore_perm s)).eq_of_pairwise (le := fun x y => x.map BitVec.toNat ≤ y.map BitVec.toNat)
    (fun x y _ _ h h' => List.map_injective_iff.mpr (fun _ _ => BitVec.eq_of_toNat_eq) (le_antisymm h h')) ?_ ?_
  · refine List.pairwise_map.mpr ((nextArray_pairwise _).imp_of_mem fun hp hq => rowBefore_le_rowBefore ?_ ?_)
    · exact List.mem_range.mp (hnext.mem_iff.mp hp)
    · exact List.mem_range.mp (hnext.mem_iff.mp hq)
  · exact List.pairwise_map.mpr (List.pairwise_lt_range.imp_of_mem fun _ hq hpq => sortedRow_le_sortedRow hpq (List.mem_range.mp hq))

/-- One step of the walk moves the start of the rotation on by one. -/
theorem sortedRow_next {s : List Byte} (hs : s ≠ []) {r : Nat} (hr : r < s.length) :
    sortedRow s ((nextArray (bwtForward s).1).getD r 0) = (sortedRow s r).rotate 1 := by
  have hlt : r < (nextArray (bwtForward s).1).length := by simpa using hr
  have hrow : rowBefore s ((nextArray (bwtForward s).1).getD r 0) = sortedRow s r := by
    have h := congrArg (·[r]?) (map_nextArray_rowBefore s)
    simpa [hlt, hr] using h
  rw [← hrow, rowBefore, rotate_prev_succ hs, sortedRow]

theorem nextArray_getD_lt {s : List Byte} {r : Nat} (hr : r < s.length) : (nextArray (bwtForward s).1).getD r 0 < s.length := by
  have hlt : r < (nextArray (bwtForward s).1).length := by simpa using hr
  rw [List.getD_eq_getElem _ _ hlt]
  simpa using nextArray_getElem_lt hlt

/-! ### The walk -/

/-- At the row of rotation k + 1 the walk gives the bytes from k on. -/
theorem walkNext_eq_drop {s : List Byte} {n k r : Nat} (hk : k + n = s.length) (hr : r < s.length)
    (hrow : sortedRow s r = s.rotate (k + 1)) : walkNext (bwtForward s).1 (nextArray (bwtForward s).1) n r = s.drop k := by
  induction n generalizing k r with
  | zero => simp [walkNext, ← hk]
  | succ n ih =>
    have hs : s ≠ [] := List.ne_nil_of_length_pos (Nat.zero_lt_of_lt hr)
    have hk' : k < s.length := by omega
    have hbyte : some ((bwtForward s).1.getD r 0) = some s[k] := by
      rw [bwtForward_getD hr, ← getLast?_rotate hs, ← sortedRow, hrow, getLast?_rotate hs, ← getElem?_byteBefore _ hs,
        show k + 1 + s.length - 1 = k + s.length by omega, Nat.add_mod_right, Nat.mod_eq_of_lt hk', List.getElem?_eq_getElem hk']
    have hstep : sortedRow s ((nextArray (bwtForward s).1).getD r 0) = s.rotate (k + 1 + 1) := by
      rw [sortedRow_next hs hr, hrow, List.rotate_rotate]
    rw [walkNext, List.drop_eq_getElem_cons hk', Option.some.inj hbyte, ih (by omega) (nextArray_getD_lt hr) hstep]

/-- Settles O27. -/
theorem bwtBijection : Obligations.BwtBijection := by
  intro s hs
  have hprim := (suffixOrder_getElem?_zero_iff hs _).mpr rfl
  have hlt : (bwtForward s).2 < s.length := by simpa using (List.getElem?_eq_some_iff.mp hprim).1
  have hrow : sortedRow s ((nextArray (bwtForward s).1).getD (bwtForward s).2 0) = s.rotate (0 + 1) := by
    rw [sortedRow_next hs hlt, sortedRow, List.getD_eq_getElem?_getD, hprim, Option.getD_some, List.rotate_rotate]
  rw [bwtInverse, bwtForward_length, walkNext_eq_drop (Nat.zero_add _) (nextArray_getD_lt hlt) hrow, List.drop_zero]

end Sys2Proof.Machine
end

section
/-! The move-to-front coder: the rank table stays a permutation, and the two loops invert each other (42_mtf.md R120 to R123). -/

namespace Sys2Proof.Machine

open Sys2Proof

/-! ### Rank tables (R120, 10_state.md R50) -/

theorem mtfIdentity_isPermTable : IsPermTable mtfIdentity := by
  refine ⟨by simp [mtfIdentity], List.Nodup.of_map BitVec.toNat ?_⟩
  have hmap : mtfIdentity.map BitVec.toNat = List.range 256 := by
    rw [mtfIdentity, List.map_map, List.map_congr_left (g := id) fun n hn => ?_, List.map_id]
    exact Nat.mod_eq_of_lt (List.mem_range.mp hn)
  exact hmap ▸ List.nodup_range

/-- 256 different bytes are all the bytes. -/
theorem IsPermTable.mem {t : List Byte} (h : IsPermTable t) (c : Byte) : c ∈ t := by
  obtain ⟨hlen, hnodup⟩ := h
  have hinj : Function.Injective (BitVec.toNat : Byte → Nat) := fun _ _ => BitVec.eq_of_toNat_eq
  have hsub : t.map BitVec.toNat ⊆ List.range 256 :=
    List.forall_mem_map.mpr fun b _ => List.mem_range.mpr b.isLt
  have hperm : (t.map BitVec.toNat).Perm (List.range 256) :=
    ((hnodup.map hinj).subperm hsub).perm_of_length_le (by simp [hlen])
  exact (List.mem_map_of_injective hinj).mp (hperm.mem_iff.mpr (List.mem_range.mpr c.isLt))

theorem moveToFront_perm {t : List Byte} {r : Nat} (hr : r < t.length) : (moveToFront t r).Perm t := by
  rw [moveToFront, List.getD_eq_getElem _ _ hr]
  exact List.getElem_cons_eraseIdx_perm hr

theorem moveToFront_isPermTable {t : List Byte} (h : IsPermTable t) {r : Nat} (hr : r < 256) : IsPermTable (moveToFront t r) := by
  have hperm := moveToFront_perm (h.1.symm ▸ hr)
  exact ⟨hperm.length_eq.trans h.1, hperm.nodup_iff.mpr h.2⟩

/-- Settles O28: MoveToFront is a cons on the table without entry r. -/
theorem moveToFrontPermutes : Obligations.MoveToFrontPermutes := by
  intro t r ht hr
  have hlt : r < t.length := ht.1.symm ▸ hr
  refine ⟨?_, fun j hpos hj => ?_, fun j hj => ?_, moveToFront_isPermTable ht hr⟩
  · rw [moveToFront, List.getElem?_cons_zero, List.getD_eq_getElem _ _ hlt, List.getElem?_eq_getElem hlt]
  · obtain ⟨j, rfl⟩ := Nat.exists_eq_add_one.mpr hpos
    simp [moveToFront, List.getElem?_eraseIdx_of_lt (show j < r by omega)]
  · obtain ⟨j, rfl⟩ := Nat.exists_eq_add_one.mpr (Nat.zero_lt_of_lt hj)
    simp [moveToFront, List.getElem?_eraseIdx_of_ge (show r ≤ j by omega)]

/-! ### The rank of a byte (R121) -/

theorem rankOf_eq_idxOf (t : List Byte) (c : Byte) : rankOf t c = t.idxOf c := rfl

theorem IsPermTable.rankOf_lt {t : List Byte} (h : IsPermTable t) (c : Byte) : rankOf t c < 256 :=
  h.1 ▸ List.idxOf_lt_length_iff.mpr (h.mem c)

/-- The rank fits the byte the encoder writes for it. -/
theorem IsPermTable.toNat_rankOf {t : List Byte} (h : IsPermTable t) (c : Byte) :
    (BitVec.ofNat 8 (rankOf t c)).toNat = rankOf t c := by
  rw [BitVec.toNat_ofNat, Nat.mod_eq_of_lt (h.rankOf_lt c)]

theorem IsPermTable.getD_rankOf {t : List Byte} (h : IsPermTable t) (c : Byte) : t.getD (rankOf t c) 0 = c := by
  rw [List.getD_eq_getElem?_getD, rankOf_eq_idxOf, List.getElem?_idxOf (h.mem c), Option.getD_some]

theorem IsPermTable.rankOf_getD {t : List Byte} (h : IsPermTable t) {r : Nat} (hr : r < 256) : rankOf t (t.getD r 0) = r := by
  have hlt : r < t.length := h.1.symm ▸ hr
  rw [rankOf_eq_idxOf, List.getD_eq_getElem _ _ hlt, h.2.idxOf_getElem]

/-! ### The two loops invert each other (R123) -/

theorem mtfDecodeFrom_mtfEncodeFrom {t : List Byte} (h : IsPermTable t) (x : List Byte) :
    mtfDecodeFrom t (mtfEncodeFrom t x) = x := by
  induction x generalizing t with
  | nil => rfl
  | cons c x ih => rw [mtfEncodeFrom, mtfDecodeFrom, h.toNat_rankOf, h.getD_rankOf, ih (moveToFront_isPermTable h (h.rankOf_lt c))]

theorem mtfEncodeFrom_mtfDecodeFrom {t : List Byte} (h : IsPermTable t) (y : List Byte) :
    mtfEncodeFrom t (mtfDecodeFrom t y) = y := by
  induction y generalizing t with
  | nil => rfl
  | cons r y ih =>
    rw [mtfDecodeFrom, mtfEncodeFrom, h.rankOf_getD r.isLt, BitVec.ofNat_toNat, BitVec.setWidth_eq, ih (moveToFront_isPermTable h r.isLt)]

theorem mtfDecode_mtfEncode (x : List Byte) : mtfDecode (mtfEncode x) = x :=
  mtfDecodeFrom_mtfEncodeFrom mtfIdentity_isPermTable x

theorem mtfEncode_mtfDecode (y : List Byte) : mtfEncode (mtfDecode y) = y :=
  mtfEncodeFrom_mtfDecodeFrom mtfIdentity_isPermTable y

/-- After k steps the encoder of x and the decoder of its output hold the same table. -/
theorem encoderTable_eq_decoderTable {t : List Byte} (h : IsPermTable t) (x : List Byte) (k : Nat) :
    (x.take k).foldl (fun t c => moveToFront t (rankOf t c)) t =
      ((mtfEncodeFrom t x).take k).foldl (fun t r => moveToFront t r.toNat) t := by
  induction x generalizing t k with
  | nil => simp [mtfEncodeFrom]
  | cons c x ih =>
    cases k with
    | zero => rfl
    | succ k =>
      rw [mtfEncodeFrom, List.take_succ_cons, List.take_succ_cons, List.foldl_cons, List.foldl_cons, h.toNat_rankOf,
        ih (moveToFront_isPermTable h (h.rankOf_lt c))]

/-- Settles O29. The tables over a decoding are those over the encoding of what it gives, which is its input. -/
theorem mtfBijection : Obligations.MtfBijection := by
  have htables := encoderTable_eq_decoderTable mtfIdentity_isPermTable
  refine ⟨mtfDecode_mtfEncode, mtfEncode_mtfDecode, htables, fun y k => ?_⟩
  have h := htables (mtfDecode y) k
  rw [← mtfEncode, mtfEncode_mtfDecode] at h
  exact h.symm

end Sys2Proof.Machine
end

section
/-! The zero-run coder: the form and the length of its stream, and its inverse (43_rle0.md R128, R130). -/

namespace Sys2Proof.Machine

open Sys2Proof

/-! ### The encoder's loop. `rleEncodeRun r []` is what a pending run of r zeros is emitted as. -/

theorem rleEncodeRun_cons_ne_zero (r : Nat) {b : Byte} (hb : b ≠ 0) (x : List Byte) :
    rleEncodeRun r (b :: x) = rleEncodeRun r [] ++ b :: rleEncode x := by
  cases r <;> exact if_neg hb

theorem rleEncodeRun_zero_of_lt {r : Nat} (hr : r < 255) (x : List Byte) :
    rleEncodeRun r (0 :: x) = rleEncodeRun (r + 1) x := by
  cases r <;> simp [rleEncodeRun, hr]

theorem rleEncodeRun_zero_of_full {r : Nat} (hr : 255 ≤ r) (x : List Byte) :
    rleEncodeRun r (0 :: x) = rleEncodeRun r [] ++ rleEncodeRun 1 x := by
  obtain ⟨k, rfl⟩ := Nat.exists_eq_succ_of_ne_zero (n := r) (by omega)
  simp [rleEncodeRun, Nat.not_lt.mpr hr]

@[simp] theorem rleEncode_nil : rleEncode [] = [] := rfl

theorem rleEncode_cons_ne_zero {b : Byte} (hb : b ≠ 0) (x : List Byte) : rleEncode (b :: x) = b :: rleEncode x :=
  rleEncodeRun_cons_ne_zero 0 hb x

/-- The two bytes of a run of 1 to 255 zeros. -/
theorem rleEncodeRun_nil_of_pos {r : Nat} (hpos : 0 < r) : rleEncodeRun r [] = [0, BitVec.ofNat 8 r] := by
  obtain ⟨k, rfl⟩ := Nat.exists_eq_succ_of_ne_zero hpos.ne'
  rfl

/-- The encoder's loop carries nothing past the place where a byte other than 0 is next. -/
theorem rleEncodeRun_append (r : Nat) (u : List Byte) {v : List Byte} (hv : v.head? ≠ some 0) :
    rleEncodeRun r (u ++ v) = rleEncodeRun r u ++ rleEncode v := by
  induction u generalizing r with
  | nil =>
    cases v with
    | nil => simp
    | cons b v =>
      have hb : b ≠ 0 := by simpa using hv
      rw [List.nil_append, rleEncodeRun_cons_ne_zero r hb, rleEncode_cons_ne_zero hb]
  | cons b u ih =>
    rw [List.cons_append]
    by_cases hb : b = 0
    · subst hb
      rcases Nat.lt_or_ge r 255 with hr | hr
      · rw [rleEncodeRun_zero_of_lt hr, rleEncodeRun_zero_of_lt hr, ih]
      · rw [rleEncodeRun_zero_of_full hr, rleEncodeRun_zero_of_full hr, ih, List.append_assoc]
    · have hstart : rleEncode (u ++ v) = rleEncode u ++ rleEncode v := ih 0
      rw [rleEncodeRun_cons_ne_zero r hb, rleEncodeRun_cons_ne_zero r hb, hstart, List.append_assoc, List.cons_append]

theorem rleEncode_append_cons (u v : List Byte) {b : Byte} (hb : b ≠ 0) :
    rleEncode (u ++ b :: v) = rleEncode u ++ b :: rleEncode v :=
  rleEncode_cons_ne_zero hb v ▸ rleEncodeRun_append 0 u (by simpa using hb)

/-- Nothing is pending behind a byte other than 0. -/
theorem rleEncode_append {u : List Byte} (hu : u.getLast? ≠ some 0) (v : List Byte) :
    rleEncode (u ++ v) = rleEncode u ++ rleEncode v := by
  rcases List.eq_nil_or_concat' u with rfl | ⟨w, b, rfl⟩
  · rfl
  · have hb : b ≠ 0 := by simpa using hu
    rw [List.append_assoc, List.singleton_append, rleEncode_append_cons w v hb, rleEncode_append_cons w [] hb, rleEncode_nil,
      List.append_assoc, List.singleton_append]

/-! ### The length of the stream (R128) -/

/-- A pending run of r zeros and z more take two bytes for every 255 zeros begun. -/
theorem length_rleEncodeRun_replicate {r : Nat} (hr : r ≤ 255) (z : Nat) :
    (rleEncodeRun r (List.replicate z 0)).length = 2 * ((r + z + 254) / 255) := by
  induction z generalizing r with
  | zero =>
    rcases Nat.eq_zero_or_pos r with rfl | hpos
    · rfl
    · rw [List.replicate_zero, rleEncodeRun_nil_of_pos hpos, List.length_cons, List.length_singleton]
      omega
  | succ z ih =>
    rw [List.replicate_succ]
    rcases Nat.lt_or_ge r 255 with hlt | hge
    · rw [rleEncodeRun_zero_of_lt hlt, ih hlt, Nat.add_right_comm r 1 z, Nat.add_assoc r z 1]
    · rw [rleEncodeRun_zero_of_full hge, rleEncodeRun_nil_of_pos (by omega), List.length_append, ih (by omega),
        List.length_cons, List.length_singleton]
      omega

/-- Only a lone zero takes two bytes for its one: a byte other than 0 takes one, and a longer run shares its two. -/
theorem length_rleEncode_eq_iff (x : List Byte) : (rleEncode x).length = 2 * x.length ↔ x = [] ∨ x = [0] := by
  refine ⟨fun h => ?_, by rintro (rfl | rfl) <;> rfl⟩
  match x with
  | [] => exact .inl rfl
  | b :: x =>
    by_cases hb : b = 0
    · subst hb
      match x with
      | [] => exact .inr rfl
      | c :: x =>
        by_cases hc : c = 0
        · subst hc
          have hrun : rleEncode (0 :: 0 :: x) = rleEncodeRun 2 x := rfl
          have hle : (rleEncodeRun 2 x).length ≤ 2 * x.length + 2 := rleEncodeRun_length_le 2 x
          rw [hrun, List.length_cons, List.length_cons] at h
          omega
        · have hrun : rleEncode (0 :: c :: x) = 0 :: 1 :: c :: rleEncode x := rleEncodeRun_cons_ne_zero 1 hc x
          have hle := rleEncode_length_le x
          simp only [hrun, List.length_cons] at h
          omega
    · have hle := rleEncode_length_le x
      rw [rleEncode_cons_ne_zero hb, List.length_cons, List.length_cons] at h
      omega

/-! ### The form of the stream (R128) -/

theorem rleWellFormed_cons_ne_zero {b : Byte} (hb : b ≠ 0) {y : List Byte} (hy : RleWellFormed y) : RleWellFormed (b :: y) := by
  cases y with
  | nil => exact hb
  | cons r y =>
    rw [RleWellFormed, if_neg hb]
    exact hy

/-- The count of a run that is emitted fits its byte. -/
theorem toNat_runLength {r : Nat} (hr : r ≤ 255) : (BitVec.ofNat 8 r).toNat = r := by
  rw [BitVec.toNat_ofNat, Nat.mod_eq_of_lt (by omega)]

theorem rleWellFormed_run_append {r : Nat} (hr : r ≤ 255) {y : List Byte} (hy : RleWellFormed y) :
    RleWellFormed (rleEncodeRun r [] ++ y) := by
  rcases Nat.eq_zero_or_pos r with rfl | hpos
  · exact hy
  · have hne : BitVec.ofNat 8 r ≠ 0 := fun h => by simpa [toNat_runLength hr, hpos.ne'] using congrArg BitVec.toNat h
    rw [rleEncodeRun_nil_of_pos hpos]
    exact ⟨hne, hy⟩

theorem rleWellFormed_rleEncodeRun {r : Nat} (hr : r ≤ 255) (x : List Byte) : RleWellFormed (rleEncodeRun r x) := by
  induction x generalizing r with
  | nil => simpa using rleWellFormed_run_append hr (y := []) trivial
  | cons b x ih =>
    by_cases hb : b = 0
    · subst hb
      rcases Nat.lt_or_ge r 255 with hlt | hge
      · rw [rleEncodeRun_zero_of_lt hlt]
        exact ih hlt
      · rw [rleEncodeRun_zero_of_full hge]
        exact rleWellFormed_run_append hr (ih (by decide))
    · rw [rleEncodeRun_cons_ne_zero r hb]
      exact rleWellFormed_run_append hr (rleWellFormed_cons_ne_zero hb (ih (by decide)))

/-- Settles O30. -/
theorem rleStreamProperties : Obligations.RleStreamProperties := by
  refine ⟨rleWellFormed_rleEncodeRun (Nat.zero_le 255), fun u v b hb => ?_, fun u v z _ hu hv => ?_, rleEncode_length_le,
    length_rleEncode_eq_iff, rfl⟩
  · rw [rleEncode_append_cons u v hb, List.length_append, List.length_cons, Nat.add_assoc, Nat.add_comm 1]
  · have hsplit : rleEncode (u ++ List.replicate z 0 ++ v) = rleEncode u ++ rleEncode (List.replicate z 0) ++ rleEncode v :=
      (rleEncodeRun_append 0 _ hv).trans (congrArg (· ++ rleEncode v) (rleEncode_append hu _))
    have hrun : (rleEncode (List.replicate z 0)).length = 2 * ((z + 254) / 255) :=
      (length_rleEncodeRun_replicate (Nat.zero_le 255) z).trans (by rw [Nat.zero_add])
    rw [hsplit, List.length_append, List.length_append, hrun]

/-! ### The decoder (R129, R130) -/

theorem rleDecode_cons_ne_zero {b : Byte} (hb : b ≠ 0) (y : List Byte) :
    rleDecode (b :: y) = (b :: (rleDecode y).1, (rleDecode y).2) := by
  cases y with
  | nil => exact congrArg (Prod.mk [b]) (beq_eq_false_iff_ne.mpr hb)
  | cons r y => exact if_neg hb

theorem rleDecode_run_append {r : Nat} (hr : r ≤ 255) (y : List Byte) :
    rleDecode (rleEncodeRun r [] ++ y) = (List.replicate r 0 ++ (rleDecode y).1, (rleDecode y).2) := by
  rcases Nat.eq_zero_or_pos r with rfl | hpos
  · rfl
  · rw [rleEncodeRun_nil_of_pos hpos, List.cons_append, List.singleton_append, rleDecode, if_pos rfl, toNat_runLength hr]

/-- Decoding gives the pending zeros and the input back. -/
theorem rleDecode_rleEncodeRun {r : Nat} (hr : r ≤ 255) (x : List Byte) :
    rleDecode (rleEncodeRun r x) = (List.replicate r 0 ++ x, false) := by
  induction x generalizing r with
  | nil => simpa [rleDecode] using rleDecode_run_append hr []
  | cons b x ih =>
    by_cases hb : b = 0
    · subst hb
      rcases Nat.lt_or_ge r 255 with hlt | hge
      · rw [rleEncodeRun_zero_of_lt hlt, ih hlt, List.replicate_succ', List.append_assoc, List.singleton_append]
      · rw [rleEncodeRun_zero_of_full hge, rleDecode_run_append hr, ih (by decide), List.replicate_one, List.singleton_append]
    · rw [rleEncodeRun_cons_ne_zero r hb, rleDecode_run_append hr, rleDecode_cons_ne_zero hb, rleEncode, ih (by decide),
        List.replicate_zero, List.nil_append]

/-- Settles O31. -/
theorem rleBijection : Obligations.RleBijection :=
  ⟨rleDecode_rleEncodeRun (Nat.zero_le 255), rfl, rfl⟩

end Sys2Proof.Machine
end

section
/-! The counter probability and the LZP model's table (44_predictors.md R137, R149; 10_state.md R52, R55). -/

namespace Sys2Proof.Machine

open Sys2Proof

/-! ### The counter probability (R137) -/

/-- (c1 + 1) / (c0 + c1 + 2) is below 1, so the clamp at 65535 never acts. -/
theorem countQuotient_le (c0 c1 : Nat) : (c1 + 1) * 0xFFFF / (c0 + c1 + 2) ≤ 65534 := by
  refine Nat.le_of_lt_succ ((Nat.div_lt_iff_lt_mul (by omega)).mpr ?_)
  omega

theorem clampi_of_mem {v lo hi : Nat} (hlo : lo ≤ v) (hhi : v ≤ hi) : clampi v lo hi = v := by
  rw [clampi, max_eq_left hlo, min_eq_left hhi]

theorem toNat_countPredict (c0 c1 : Nat) : (countPredict (c0, c1)).toNat = (c1 + 1) * 0xFFFF / (c0 + c1 + 2) := by
  have hle := countQuotient_le c0 c1
  rw [countPredict, clampi_of_mem (Nat.zero_le _) (hle.trans (by decide)), BitVec.toNat_ofNat,
    Nat.mod_eq_of_lt (hle.trans_lt (by decide))]

/-- Settles O32. -/
theorem counterProbability : Obligations.CounterProbability :=
  ⟨fun c0 c1 => ⟨toNat_countPredict c0 c1, (toNat_countPredict c0 c1).trans_le (countQuotient_le c0 c1)⟩, rfl, rfl, rfl, rfl, rfl⟩

/-! ### A key erased from a table. An absent key is how `nxt` holds NIL (R55). -/

section

variable {α : Type} {k : Nat}

theorem tableGet_of_lt {n : Nat} {t : List (Nat × α)} (hr : risingFrom n t = true) (h : k < n) : tableGet k t = none := by
  induction t generalizing n with
  | nil => rfl
  | cons e t ih =>
    simp only [risingFrom, Bool.and_eq_true, decide_eq_true_eq] at hr
    rw [tableGet, if_neg (by omega), ih hr.2 (by omega)]

theorem risingFrom_erase {n : Nat} {t : List (Nat × α)} (hr : risingFrom n t = true) : risingFrom n (tableErase k t) = true := by
  induction t generalizing n with
  | nil => rfl
  | cons e t ih =>
    simp only [risingFrom, Bool.and_eq_true, decide_eq_true_eq] at hr
    rw [tableErase]
    split
    · exact risingFrom_mono t (by omega) hr.2
    · simp [risingFrom, hr.1, ih hr.2]

/-- A key stands at most once in a canonical table, so erasing its entry leaves none. -/
theorem tableGet_erase_same {n : Nat} {t : List (Nat × α)} (hr : risingFrom n t = true) : tableGet k (tableErase k t) = none := by
  induction t generalizing n with
  | nil => rfl
  | cons e t ih =>
    simp only [risingFrom, Bool.and_eq_true, decide_eq_true_eq] at hr
    rw [tableErase]
    split
    · exact tableGet_of_lt hr.2 (by omega)
    · next hne => rw [tableGet, if_neg hne, ih hr.2]

theorem tableGet_erase_other {j : Nat} (t : List (Nat × α)) (h : j ≠ k) : tableGet j (tableErase k t) = tableGet j t := by
  induction t with
  | nil => rfl
  | cons e t ih =>
    rw [tableErase]
    split
    · next hk => rw [tableGet, if_neg (hk ▸ h)]
    · rw [tableGet, tableGet, ih]

/-- The table with an optional value at a key, `none` being NIL: what a write to `nxt` stores (R149). -/
def tablePut (k : Nat) (v : Option α) (t : List (Nat × α)) : List (Nat × α) :=
  match v with
  | some x => tableSet k x t
  | none => tableErase k t

theorem tableGet_put_same (v : Option α) {t : List (Nat × α)} (hr : rising t = true) : tableGet k (tablePut k v t) = v := by
  cases v with
  | none => exact tableGet_erase_same hr
  | some x => exact tableGet_set_same k x t

theorem tableGet_put_other {j : Nat} (v : Option α) (t : List (Nat × α)) (h : j ≠ k) :
    tableGet j (tablePut k v t) = tableGet j t := by
  cases v with
  | none => exact tableGet_erase_other t h
  | some x => exact tableGet_set_other x t h

theorem rising_put (v : Option α) {t : List (Nat × α)} (hr : rising t = true) : rising (tablePut k v t) = true := by
  cases v with
  | none => exact risingFrom_erase hr
  | some x => exact rising_set k x t hr

end

/-! ### updateByte of the LZP model (R149) -/

/-- The key of two bytes is below 2^16, so reducing it modulo the window changes nothing. -/
theorem lzpKey_mod_windowW (prev b : Byte) : (prev.toNat * 256 + b.toNat) % windowW = prev.toNat * 256 + b.toNat := by
  rw [windowW]
  omega

/-- The two writes to `nxt`, in order. -/
theorem LzpModel.updateByte_nxt (m : LzpModel) (b : Byte) :
    (m.updateByte b).nxt = tableSet (m.prev.toNat * 256 + b.toNat) m.pos
      (tablePut m.pos (m.nxtAt (m.prev.toNat * 256 + b.toNat)) m.nxt) := by
  cases h : m.nxtAt (m.prev.toNat * 256 + b.toNat) <;> simp only [updateByte, lzpKey_mod_windowW, h, tablePut]

theorem LzpModel.updateByte_rising {m : LzpModel} (b : Byte) (hr : rising m.nxt = true) :
    rising (m.updateByte b).nxt = true := by
  rw [updateByte_nxt]
  exact rising_set _ _ _ (rising_put _ hr)

theorem LzpModel.updateByte_nxtAt_key (m : LzpModel) (b : Byte) :
    (m.updateByte b).nxtAt (m.prev.toNat * 256 + b.toNat) = some m.pos := by
  rw [nxtAt, updateByte_nxt, tableGet_set_same]

/-- Away from the key only the first write is seen. -/
theorem LzpModel.updateByte_nxtAt_of_ne_key (m : LzpModel) (b : Byte) {j : Nat} (h : j ≠ m.prev.toNat * 256 + b.toNat) :
    (m.updateByte b).nxtAt j = tableGet j (tablePut m.pos (m.nxtAt (m.prev.toNat * 256 + b.toNat)) m.nxt) := by
  rw [nxtAt, updateByte_nxt, tableGet_set_other _ _ h]

/-- Settles O36. -/
theorem lzpUpdate : Obligations.LzpUpdate := by
  intro m b hr m' key
  refine ⟨m.updateByte_rising b hr, m.updateByte_nxtAt_key b, fun hpos => ?_, fun j hkey hpos => ?_,
    tableGet_set_same m.pos b m.lbuf, fun _ => tableGet_set_other b m.lbuf, rfl, rfl⟩
  · rw [m.updateByte_nxtAt_of_ne_key b hpos, tableGet_put_same _ hr]
  · rw [m.updateByte_nxtAt_of_ne_key b hkey, tableGet_put_other _ _ hpos, LzpModel.nxtAt]

end Sys2Proof.Machine
end

section
/-! The numeric domain of the mixer (45_mixer.md R160): Clamp answers an encoding between those of 1e-4 and HI, and from
there the exponents of `1 - q` and `q / (1 - q)` stay clear of both ends of the exponent field. -/

namespace Sys2Proof.Machine

open Sys2Proof

/-! ### Order and positivity of encodings without a sign -/

theorem fIsFinite_of_fExp_lt {x : F64} (h : fExp x < 2047) : fIsFinite x = true := bne_iff_ne.mpr h.ne

theorem fSign_eq_false_iff (x : F64) : fSign x = false ↔ x.toNat < 2 ^ 63 := by
  rw [fSign_eq, decide_eq_false_iff_not, not_le]

theorem fVal_of_fSign_eq_false {x : F64} (h : fSign x = false) : fVal x = (fMant x * 2 ^ fPos x : Nat) := by
  rw [fVal_eq_signed, h]
  rfl

theorem fMant_of_fExp_pos {x : F64} (h : 0 < fExp x) : fMant x = fFrac x + 2 ^ 52 := if_neg h.ne'

theorem fVal_pos {x : F64} (hs : fSign x = false) (he : 0 < fExp x) : 0 < fVal x := by
  rw [fVal_of_fSign_eq_false hs, fMant_of_fExp_pos he]
  exact_mod_cast Nat.mul_pos (by omega) (Nat.two_pow_pos _)

/-- Encodings without a sign are ordered as their values: at different positions the larger one's leading bit decides, at
the same position the significands do. -/
theorem fVal_le_of_toNat_le {a b : F64} (h : a.toNat ≤ b.toNat) (hb : b.toNat < 2 ^ 63) : fVal a ≤ fVal b := by
  have hsa := (fSign_eq_false_iff a).mpr (h.trans_lt hb)
  have hsb := (fSign_eq_false_iff b).mpr hb
  have hfields : fExp a < fExp b ∨ (fExp a = fExp b ∧ fFrac a ≤ fFrac b) := by
    rw [fExp_eq, fExp_eq, fFrac_eq, fFrac_eq]
    omega
  have hfrac := fFrac_lt a
  rw [fVal_of_fSign_eq_false hsa, fVal_of_fSign_eq_false hsb, Nat.cast_le]
  rcases Nat.lt_or_ge (fPos a) (fPos b) with hpos | hpos
  · have hlead : 2 ^ 52 ≤ fMant b := by
      rw [fMant_of_fExp_pos (by rw [fPos, fPos] at hpos; omega)]
      omega
    calc fMant a * 2 ^ fPos a ≤ 2 ^ 53 * 2 ^ fPos a := Nat.mul_le_mul_right _ (fMant_lt a).le
      _ = 2 ^ 52 * 2 ^ (fPos a + 1) := by ring
      _ ≤ fMant b * 2 ^ fPos b := Nat.mul_le_mul hlead (Nat.pow_le_pow_right (by norm_num) hpos)
  · have hsame : fPos a = fPos b := by rw [fPos, fPos] at *; omega
    rw [hsame]
    refine Nat.mul_le_mul_right _ ?_
    rw [fPos, fPos] at hsame
    rw [fMant, fMant]
    split <;> split <;> omega

/-! ### Clamp (R155) -/

/-- An encoding that is not below a nonzero one without a sign is without one too and is at least as large. -/
theorem toNat_le_of_not_fLt {a b : F64} (hpos : 0 < b.toNat) (hb : b.toNat < 2 ^ 63) (h : fLt a b = false) :
    a.toNat < 2 ^ 63 ∧ b.toNat ≤ a.toNat := by
  have hsb := (fSign_eq_false_iff b).mpr hb
  cases hsa : fSign a with
  | true =>
    simp only [fLt, hsa, hsb, Bool.not_eq_false', Bool.and_eq_true, beq_iff_eq] at h
    omega
  | false =>
    simp only [fLt, hsa, hsb, decide_eq_false_iff_not] at h
    rw [fSign_eq_false_iff] at hsa
    omega

@[simp] theorem f1em4_toNat : f1em4.toNat = 0x3F1A36E2EB1C432D := rfl

@[simp] theorem fHI_toNat : fHI.toNat = 0x3FEFFF2E48E8A71E := by decide +kernel

/-- Clamp answers an encoding between those of 1e-4 and HI, whatever it is given. -/
theorem fClamp_toNat_bounds (x : F64) : f1em4.toNat ≤ (fClamp x).toNat ∧ (fClamp x).toNat ≤ fHI.toNat := by
  have hlo := f1em4_toNat
  have hhi := fHI_toNat
  have hmax : (fmax x f1em4).toNat < 2 ^ 63 ∧ f1em4.toNat ≤ (fmax x f1em4).toNat := by
    rw [fmax]
    split
    case isTrue => omega
    case isFalse h => exact toNat_le_of_not_fLt (by omega) (by omega) (Bool.eq_false_of_not_eq_true h)
  rw [fClamp, fmin]
  split
  case isTrue => omega
  case isFalse h =>
    exact ⟨hmax.2, (toNat_le_of_not_fLt (by omega) hmax.1 (Bool.eq_false_of_not_eq_true h)).2⟩

theorem fClamp_fields (x : F64) : fSign (fClamp x) = false ∧ 1009 ≤ fExp (fClamp x) ∧ fExp (fClamp x) ≤ 1022 := by
  have hbounds := fClamp_toNat_bounds x
  rw [f1em4_toNat, fHI_toNat] at hbounds
  rw [fSign_eq_false_iff, fExp_eq]
  omega

/-! ### Exponents of results that neither underflow nor overflow -/

/-- Away from both ends of the exponent field the exponent of a rounded magnitude is that of its leading bit, or one more
after a carry. -/
theorem roundMag_fields {neg : Bool} {bias m x : Nat} (hm : m ≠ 0) (hlow : bias < x + Nat.log2 m + 1022)
    (hhigh : x + Nat.log2 m + 1022 < bias + 2045) :
    fSign (withSign neg (roundMag bias m x)) = neg ∧
    x + Nat.log2 m + 1023 ≤ fExp (withSign neg (roundMag bias m x)) + bias ∧
    fExp (withSign neg (roundMag bias m x)) + bias ≤ x + Nat.log2 m + 1024 := by
  obtain ⟨hr, hr'⟩ := roundSig_bounds (bias := bias) (x := x) hm
  obtain ⟨hpos, hpos'⟩ := roundPos_cases bias m x
  have hmag : roundMag bias m x = roundPos bias m x * 2 ^ 52 + roundSig bias m x := by
    rw [roundMag_eq bias x hm, magInf]
    omega
  have hsize : roundMag bias m x < 2 ^ 63 := by omega
  refine ⟨fSign_withSign hsize, ?_⟩
  rw [fExp_withSign hsize]
  omega

/-- For a positive q below 1 the significand of q, aligned with that of 1, is the smaller one and is subtracted exactly
before rounding. -/
theorem one_fsub {q : F64} (hs : fSign q = false) (hq : fExp q ≤ 1022) :
    fMant q < 2 ^ 52 * 2 ^ (1022 - fPos q) ∧
    fsub fOne q = withSign false (roundMag 1074 (2 ^ 52 * 2 ^ (1022 - fPos q) - fMant q) (fPos q)) := by
  have hpos : fPos q ≤ 1021 := by rw [fPos]; omega
  have hsign : fSign fOne = false := rfl
  have hmant : fMant fOne = 2 ^ 52 := rfl
  have hone : fPos fOne = 1022 := rfl
  have hfin : fIsFinite q = true := fIsFinite_of_fExp_lt (by omega)
  have hlt : fMant q < 2 ^ 52 * 2 ^ (1022 - fPos q) :=
    calc fMant q < 2 ^ 52 * 2 ^ 1 := fMant_lt q
      _ ≤ 2 ^ 52 * 2 ^ (1022 - fPos q) := Nat.mul_le_mul_left _ (Nat.pow_le_pow_right (by norm_num) (by omega))
  refine ⟨hlt, ?_⟩
  rw [fsub_finite rfl hfin, fadd_finite rfl ((fIsFinite_fNeg q).trans hfin), faddFinite, fPos_fNeg, fMant_fNeg, fSign_fNeg, hs,
    hsign, hmant, hone, min_eq_right (by omega), Nat.sub_self, pow_zero, mul_one]
  exact (if_neg (by decide)).trans ((if_neg hlt.ne').trans (if_pos hlt))

/-- 1 - q for a positive q below 1 loses at most 52 binades to cancellation. -/
theorem one_fsub_fields {q : F64} (hs : fSign q = false) (hlow : 54 ≤ fExp q) (hhigh : fExp q ≤ 1022) :
    fSign (fsub fOne q) = false ∧ fExp q ≤ fExp (fsub fOne q) + 52 ∧ fExp (fsub fOne q) ≤ 1024 := by
  have hpos : fPos q = fExp q - 1 := rfl
  obtain ⟨hlt, hsub⟩ := one_fsub hs hhigh
  have hm : 2 ^ 52 * 2 ^ (1022 - fPos q) - fMant q ≠ 0 := by omega
  have hlog : Nat.log2 (2 ^ 52 * 2 ^ (1022 - fPos q) - fMant q) < 1075 - fPos q := by
    rw [Nat.log2_lt hm, show 1075 - fPos q = 53 + (1022 - fPos q) by omega, pow_add]
    have := Nat.two_pow_pos (1022 - fPos q)
    omega
  rw [hsub]
  obtain ⟨hsign, hexp, hexp'⟩ := roundMag_fields (neg := false) (bias := 1074) (x := fPos q) hm (by omega) (by omega)
  exact ⟨hsign, by omega, by omega⟩

/-- The quotient of two significands with 53 bits, with its sticky bit, has 111 or 112 bits. -/
theorem log2_quotient {m n r : Nat} (hm : 2 ^ 52 ≤ m) (hm' : m < 2 ^ 53) (hn : 2 ^ 52 ≤ n) (hn' : n < 2 ^ 53) (hr : r ≤ 1) :
    2 * (m * 2 ^ 110 / n) + r ≠ 0 ∧ 110 ≤ Nat.log2 (2 * (m * 2 ^ 110 / n) + r) ∧ Nat.log2 (2 * (m * 2 ^ 110 / n) + r) ≤ 111 := by
  have hlow : 2 ^ 109 ≤ m * 2 ^ 110 / n := (Nat.le_div_iff_mul_le (by omega)).mpr (by omega)
  have hhigh : m * 2 ^ 110 / n < 2 ^ 111 := Nat.div_lt_of_lt_mul (by omega)
  have hne : 2 * (m * 2 ^ 110 / n) + r ≠ 0 := by omega
  exact ⟨hne, (Nat.le_log2 hne).mpr (by omega), Nat.le_of_lt_succ ((Nat.log2_lt hne).mpr (by omega))⟩

/-- A quotient of positive normal numbers whose exponents are not too far apart is one too. -/
theorem fdiv_fields {a b : F64} (hsa : fSign a = false) (hsb : fSign b = false) (ha : 0 < fExp a) (ha' : fExp a < 2047)
    (hb : 0 < fExp b) (hb' : fExp b < 2047) (hlow : fExp b < fExp a + 1021) (hhigh : fExp a ≤ fExp b + 1022) :
    fSign (fdiv a b) = false ∧ 0 < fExp (fdiv a b) ∧ fExp (fdiv a b) < 2047 := by
  have hposa : fPos a = fExp a - 1 := rfl
  have hposb : fPos b = fExp b - 1 := rfl
  have hma := fMant_of_fExp_pos ha
  have hmb := fMant_of_fExp_pos hb
  have hr : (if fMant a * 2 ^ 110 % fMant b = 0 then 0 else 1) ≤ 1 := by split <;> omega
  obtain ⟨hm, hlog, hlog'⟩ := log2_quotient (by omega) (fMant_lt a) (by omega) (fMant_lt b) hr
  rw [fdiv_finite (fIsFinite_of_fExp_lt ha') (fIsFinite_of_fExp_lt hb') (fVal_pos hsb hb).ne', fdivFinite,
    hsa, hsb, bne_self_eq_false]
  obtain ⟨hsign, hexp, hexp'⟩ := roundMag_fields (neg := false) (bias := 2311) (x := fPos a + 2200 - fPos b) hm (by omega) (by omega)
  exact ⟨hsign, by omega, by omega⟩

/-- Settles O39: Clamp holds the exponent of q in 1009..1022, so that of 1 - q lies in 957..1024. -/
theorem logitArgumentsPositive : Obligations.LogitArgumentsPositive := by
  intro p q
  obtain ⟨hlo, hhi⟩ := fClamp_toNat_bounds (fdiv (fOfNat p.toNat) f65535)
  obtain ⟨hs, hexp, hexp'⟩ := fClamp_fields (fdiv (fOfNat p.toNat) f65535)
  obtain ⟨hs1, hexp1, hexp1'⟩ := one_fsub_fields hs (by omega) hexp'
  obtain ⟨hsign, hnormal, hfinite⟩ := fdiv_fields hs hs1 (by omega) (by omega) (by omega) (by omega) (by omega) (by omega)
  have hhiSize : fHI.toNat < 2 ^ 63 := by rw [fHI_toNat]; norm_num
  exact ⟨fIsFinite_of_fExp_lt (hexp'.trans_lt (by norm_num)), fVal_le_of_toNat_le hlo (hhi.trans_lt hhiSize),
    fVal_le_of_toNat_le hhi hhiSize, fIsFinite_of_fExp_lt hfinite, fVal_pos hsign hnormal⟩

end Sys2Proof.Machine
end

section
/-! The range coder's split point, and its interval while it is ordered (46_range_coder.md R163, R171). -/

namespace Sys2Proof.Machine

open Sys2Proof

/-! ### The split point (R163) -/

theorem coderRange_of_le {low high : U32} (h : low.toNat ≤ high.toNat) : coderRange low high = high.toNat - low.toNat + 1 := by
  have := high.isLt
  rw [coderRange]
  omega

theorem coderRange_le {low high : U32} (h : low.toNat ≤ high.toNat) : coderRange low high ≤ 2 ^ 32 := by
  rw [coderRange_of_le h]
  omega

/-- The range is the residue of high − low + 1 modulo 2^64, in every state. -/
theorem coderRange_eq_emod (low high : U32) : coderRange low high = (((high.toNat : Int) - low.toNat + 1) % 2 ^ 64).toNat := by
  rw [coderRange]
  omega

theorem coderRange_mul_lt {low high : U32} (h : low.toNat ≤ high.toNat) (p1 : U16) :
    coderRange low high * (0xFFFF - p1.toNat) < 2 ^ 48 :=
  (Nat.mul_le_mul (coderRange_le h) (Nat.sub_le _ _)).trans_lt (by norm_num)

theorem coderBound_toNat (low high : U32) (p1 : U16) : (coderBound low high p1).toNat =
    (low.toNat + coderRange low high * (0xFFFF - p1.toNat) % 2 ^ 64 / 2 ^ 16) % 2 ^ 32 := BitVec.toNat_ofNat ..

/-- The lower part is smaller than the range, because its weight is below 2^16. -/
theorem lowerPart_lt (d p : Nat) : (d + 1) * (0xFFFF - p) / 2 ^ 16 < d + 1 :=
  (Nat.div_lt_iff_lt_mul (by norm_num)).mpr (Nat.mul_lt_mul_of_pos_left (by omega) d.succ_pos)

theorem coderBound_toNat_of_le {low high : U32} (h : low.toNat ≤ high.toNat) (p1 : U16) : (coderBound low high p1).toNat =
    low.toNat + (high.toNat - low.toNat + 1) * (0xFFFF - p1.toNat) / 2 ^ 16 := by
  have hpart := lowerPart_lt (high.toNat - low.toNat) p1.toNat
  have hprod := coderRange_mul_lt h p1
  rw [coderBound_toNat, Nat.mod_eq_of_lt (a := _ * _) (by omega), coderRange_of_le h]
  omega

theorem le_coderBound {low high : U32} (h : low.toNat ≤ high.toNat) (p1 : U16) : low.toNat ≤ (coderBound low high p1).toNat := by
  rw [coderBound_toNat_of_le h]
  exact Nat.le_add_right _ _

theorem coderBound_le {low high : U32} (h : low.toNat ≤ high.toNat) (p1 : U16) : (coderBound low high p1).toNat ≤ high.toNat := by
  have hpart := lowerPart_lt (high.toNat - low.toNat) p1.toNat
  rw [coderBound_toNat_of_le h]
  omega

/-- Settles O40. -/
theorem splitPointInInterval : Obligations.SplitPointInInterval :=
  ⟨fun _ _ p1 h => ⟨coderRange_of_le h, coderRange_le h, coderRange_mul_lt h p1, coderBound_toNat_of_le h p1,
      le_coderBound h p1, coderBound_le h p1⟩,
    fun low high p1 => coderRange_eq_emod low high ▸ coderBound_toNat low high p1, by decide, by decide, by decide⟩

/-! ### A byte shifted into a word -/

/-- A word with a byte shifted in from below: how `high` takes 0xFF and `code` takes a payload byte. -/
def shiftIn (x : U32) (b : Byte) : U32 := (x <<< 8) ||| b.setWidth 32

theorem shiftIn_toNat (x : U32) (b : Byte) : (shiftIn x b).toNat = x.toNat * 2 ^ 8 % 2 ^ 32 + b.toNat := by
  have hsplit : x.toNat * 2 ^ 8 % 2 ^ 32 = 2 ^ 8 * (x.toNat % 2 ^ 24) := by omega
  have hb : b.toNat % 2 ^ 32 = b.toNat := Nat.mod_eq_of_lt (by omega)
  rw [shiftIn, BitVec.toNat_or, BitVec.toNat_shiftLeft, BitVec.toNat_setWidth, Nat.shiftLeft_eq, hb, hsplit,
    Nat.two_pow_add_eq_or_of_lt b.isLt]

/-! ### The ordered interval (R171) -/

/-- The coder of a run without an inversion: the interval is ordered and no straddle pass is pending. -/
structure Coder.Ordered (c : Coder) : Prop where
  low_le_high : c.low.toNat ≤ c.high.toNat
  follow_eq_zero : c.follow = 0

theorem Coder.inverted_eq_false_iff (c : Coder) : c.inverted = false ↔ c.low.toNat ≤ c.high.toNat := by
  rw [Coder.inverted, decide_eq_false_iff_not, Nat.not_lt]

theorem Coder.msbAgree_iff (c : Coder) : c.msbAgree = true ↔ c.low.toNat / 2 ^ 24 = c.high.toNat / 2 ^ 24 := by
  rw [Coder.msbAgree, beq_iff_eq, ← BitVec.toNat_inj, BitVec.extractLsb'_toNat, BitVec.extractLsb'_toNat]
  simp only [Nat.shiftRight_eq_div_pow]
  omega

/-- A straddle needs low ≥ 2^31 > high. -/
theorem Coder.Ordered.straddle_eq_false {c : Coder} (h : c.Ordered) : c.straddle = false := by
  have := h.low_le_high
  simp only [Coder.straddle, BitVec.msb_eq_decide]
  grind

/-- An ordered coder that no MSB-agree pass shifts: the state between two coded bits. -/
structure Coder.Settled (c : Coder) : Prop extends c.Ordered where
  msbAgree_eq_false : c.msbAgree = false

theorem Coder.settled_init : Coder.init.Settled := ⟨⟨by decide, rfl⟩, by decide⟩

/-- The split point of a settled coder leaves room above it: when high is 2^32 − 1 the range exceeds 2^24, and
the split point is below high. Without this, low = bound + 1 could wrap to 0 with no inversion to show for it. -/
theorem Coder.Settled.coderBound_add_one_toNat {c : Coder} (h : c.Settled) (p1 : U16) :
    (coderBound c.low c.high p1 + 1).toNat = (coderBound c.low c.high p1).toNat + 1 := by
  have hle := h.low_le_high
  have htop : c.low.toNat / 2 ^ 24 ≠ c.high.toNat / 2 ^ 24 := by
    rw [Ne, ← Coder.msbAgree_iff, h.msbAgree_eq_false]
    exact Bool.false_ne_true
  have hpart := Nat.mul_le_mul_left (c.high.toNat - c.low.toNat + 1) (Nat.sub_le 0xFFFF p1.toNat)
  have hroom : (coderBound c.low c.high p1).toNat + 1 < 2 ^ 32 := by
    have := c.high.isLt
    rw [coderBound_toNat_of_le hle]
    omega
  exact (BitVec.toNat_add ..).trans (Nat.mod_eq_of_lt hroom)

theorem Coder.shiftByte_low_toNat (c : Coder) : c.shiftByte.low.toNat = c.low.toNat * 2 ^ 8 % 2 ^ 32 := by
  rw [Coder.shiftByte, BitVec.toNat_shiftLeft, Nat.shiftLeft_eq]

theorem Coder.shiftByte_high_toNat (c : Coder) : c.shiftByte.high.toNat = c.high.toNat * 2 ^ 8 % 2 ^ 32 + 255 :=
  shiftIn_toNat c.high 0xFF

theorem Coder.emitByte_out {c : Coder} (h : c.Ordered) : c.emitByte.out = c.out ++ [c.high.extractLsb' 24 8] := by
  simp [Coder.emitByte, h.follow_eq_zero]

theorem Coder.Ordered.emitByte {c : Coder} (h : c.Ordered) (hmsb : c.msbAgree = true) : c.emitByte.Ordered where
  low_le_high := by
    have := h.low_le_high
    have := c.msbAgree_iff.mp hmsb
    have := c.low.isLt
    show c.shiftByte.low.toNat ≤ c.shiftByte.high.toNat
    rw [c.shiftByte_low_toNat, c.shiftByte_high_toNat]
    omega
  follow_eq_zero := rfl

theorem Coder.narrow_true (c : Coder) (p1 : U16) : c.narrow true p1 = { c with low := coderBound c.low c.high p1 + 1 } := by
  simp [Coder.narrow]

theorem Coder.narrow_false (c : Coder) (p1 : U16) : c.narrow false p1 = { c with high := coderBound c.low c.high p1 } := by
  simp [Coder.narrow]

theorem Coder.narrow_follow (c : Coder) (bit : Bool) (p1 : U16) : (c.narrow bit p1).follow = c.follow := by
  cases bit with
  | false => rw [Coder.narrow_false]
  | true => rw [Coder.narrow_true]

theorem Coder.Ordered.narrow {c : Coder} (h : c.Ordered) {bit : Bool} {p1 : U16} (hinv : (c.narrow bit p1).inverted = false) :
    (c.narrow bit p1).Ordered :=
  ⟨(Coder.inverted_eq_false_iff _).mp hinv, (c.narrow_follow bit p1).trans h.follow_eq_zero⟩

theorem encRenormN_succ {c : Coder} (h : c.Ordered) (n : Nat) :
    encRenormN (n + 1) c = if c.msbAgree then encRenormN n c.emitByte else c := by
  simp [encRenormN, h.straddle_eq_false]

/-- An MSB-agree pass makes the range 256 times as large. -/
theorem emitByte_range {c : Coder} (h : c.Ordered) (hmsb : c.msbAgree = true) :
    coderRange c.emitByte.low c.emitByte.high = 256 * coderRange c.low c.high := by
  have hle := h.low_le_high
  have hmsb' := c.msbAgree_iff.mp hmsb
  have hhigh := c.high.isLt
  have hlowEq : c.emitByte.low.toNat = _ := c.shiftByte_low_toNat
  have hhighEq : c.emitByte.high.toNat = _ := c.shiftByte_high_toNat
  rw [coderRange_of_le hle, coderRange_of_le (h.emitByte hmsb).low_le_high, hlowEq, hhighEq]
  omega

/-- No more passes run than the range can be multiplied by 256. -/
theorem encRenormN_msbAgree {n : Nat} {c : Coder} (h : c.Ordered) (hn : 2 ^ 32 < 256 ^ n * coderRange c.low c.high) :
    (encRenormN n c).msbAgree = false := by
  induction n generalizing c with
  | zero =>
    have := coderRange_le h.low_le_high
    omega
  | succ n ih =>
    rw [encRenormN_succ h]
    split
    case isTrue hmsb =>
      refine ih (h.emitByte hmsb) ?_
      rwa [emitByte_range h hmsb, ← Nat.mul_assoc, ← Nat.pow_succ]
    case isFalse hmsb => exact Bool.eq_false_iff.mpr hmsb

end Sys2Proof.Machine
end

section
/-! The coder's round trip: the decoder stands where the encoder stands (46_range_coder.md R171, R175). The encoder
is followed forwards, for an ordered interval, and the payload backwards, from EncFinish to the first bit: read
from where the encoder stands, it lies in the interval of that step. -/

namespace Sys2Proof.Machine

open Sys2Proof

/-! ### The decoder's code word (R168) -/

/-- The four payload bytes from position k on as a big-endian word: what the decoder's `code` holds. -/
def codeAt (pay : List Byte) (k : Nat) : U32 :=
  shiftIn (shiftIn (shiftIn (shiftIn 0 (nextByte pay k)) (nextByte pay (k + 1))) (nextByte pay (k + 2))) (nextByte pay (k + 3))

theorem codeAt_toNat (pay : List Byte) (k : Nat) : (codeAt pay k).toNat = (nextByte pay k).toNat * 2 ^ 24 +
    (nextByte pay (k + 1)).toNat * 2 ^ 16 + (nextByte pay (k + 2)).toNat * 2 ^ 8 + (nextByte pay (k + 3)).toNat := by
  simp only [codeAt, shiftIn_toNat]
  omega

theorem shiftIn_codeAt (pay : List Byte) (k : Nat) : shiftIn (codeAt pay k) (nextByte pay (k + 4)) = codeAt pay (k + 1) := by
  apply BitVec.eq_of_toNat_eq
  rw [shiftIn_toNat, codeAt_toNat, codeAt_toNat]
  simp only [Nat.add_assoc, Nat.reduceAdd]
  omega

/-! ### The payload read from where the encoder stands -/

/-- The payload begins with what c has emitted, and the word that follows lies in c's interval. -/
structure Coder.Holds (pay : List Byte) (c : Coder) : Prop where
  out_isInitial : c.out <+: pay
  low_le_code : c.low.toNat ≤ (codeAt pay c.out.length).toNat
  code_le_high : (codeAt pay c.out.length).toNat ≤ c.high.toNat

theorem nextByte_append (u v : List Byte) (i : Nat) : nextByte (u ++ v) (u.length + i) = nextByte v i := by
  rw [nextByte, List.getD_append_right _ _ _ _ (Nat.le_add_right ..), Nat.add_sub_cancel_left]
  rfl

theorem nextByte_of_isInitial {u pay : List Byte} {b : Byte} (h : u ++ [b] <+: pay) : nextByte pay u.length = b := by
  obtain ⟨v, rfl⟩ := h
  rw [List.append_assoc]
  exact nextByte_append u _ 0

/-- The four bytes of low that EncFinish writes hold the payload in the last interval. -/
theorem codeAt_encFinish (c : Coder) : codeAt (encFinish c) c.out.length = c.low := by
  apply BitVec.eq_of_toNat_eq
  rw [codeAt_toNat, encFinish, nextByte_append, nextByte_append, nextByte_append, ← Nat.add_zero c.out.length, nextByte_append]
  simp only [nextByte, List.getD_cons_zero, List.getD_cons_succ, BitVec.extractLsb'_toNat, Nat.shiftRight_eq_div_pow]
  omega

theorem Coder.Ordered.holds_encFinish {c : Coder} (h : c.Ordered) : c.Holds (encFinish c) where
  out_isInitial := ⟨_, rfl⟩
  low_le_code := (congrArg BitVec.toNat (codeAt_encFinish c)).ge
  code_le_high := (congrArg BitVec.toNat (codeAt_encFinish c)).trans_le h.low_le_high

/-- An MSB-agree pass shifts out a byte that every value of the interval has on top. -/
theorem Coder.Holds.of_emitByte {pay : List Byte} {c : Coder} (h : c.Ordered) (hmsb : c.msbAgree = true)
    (hold : c.emitByte.Holds pay) : c.Holds pay := by
  obtain ⟨hpre, hlow, hhigh⟩ := hold
  rw [Coder.emitByte_out h] at hpre hlow hhigh
  rw [List.length_append, List.length_singleton, ← shiftIn_codeAt, shiftIn_toNat] at hlow hhigh
  have htop : (codeAt pay c.out.length).toNat / 2 ^ 24 = c.high.toNat / 2 ^ 24 := by
    have hb := congrArg BitVec.toNat (nextByte_of_isInitial hpre)
    rw [BitVec.extractLsb'_toNat, Nat.shiftRight_eq_div_pow] at hb
    rw [codeAt_toNat]
    omega
  have hmsb := c.msbAgree_iff.mp hmsb
  have hlow : c.shiftByte.low.toNat ≤ _ := hlow
  have hhigh : _ ≤ c.shiftByte.high.toNat := hhigh
  rw [Coder.shiftByte_low_toNat] at hlow
  rw [Coder.shiftByte_high_toNat] at hhigh
  exact ⟨List.IsPrefix.trans ⟨_, rfl⟩ hpre, by omega, by omega⟩

/-! ### The decoder that stands where the encoder stands -/

/-- The decoder with c's interval over the payload: it has read what c has emitted and four bytes more. -/
def Coder.decoder (pay : List Byte) (c : Coder) : Coder :=
  { c with code := codeAt pay c.out.length, out := [], rd := c.out.length + 4 }

theorem readByte_decoder (pay : List Byte) {c : Coder} (h : c.Ordered) : (c.decoder pay).readByte pay = c.emitByte.decoder pay := by
  have hlen : c.emitByte.out.length = c.out.length + 1 := by rw [Coder.emitByte_out h, List.length_append, List.length_singleton]
  have hcode := shiftIn_codeAt pay c.out.length
  simp only [Coder.decoder, hlen, ← hcode]
  rfl

theorem decRenormN_succ_decoder (pay : List Byte) {c : Coder} (h : c.Ordered) (n : Nat) :
    decRenormN pay (n + 1) (c.decoder pay) =
      if c.msbAgree then decRenormN pay n (c.emitByte.decoder pay) else c.decoder pay := by
  have hs : (c.decoder pay).straddle = false := h.straddle_eq_false
  simp only [decRenormN, hs, readByte_decoder pay h]
  rfl

theorem narrow_decoder (pay : List Byte) (c : Coder) (bit : Bool) (p1 : U16) :
    (c.decoder pay).narrow bit p1 = (c.narrow bit p1).decoder pay := by
  cases bit with
  | false => rw [Coder.narrow_false, Coder.narrow_false]; rfl
  | true => rw [Coder.narrow_true, Coder.narrow_true]; rfl

/-- Renormalisation keeps the order, holds only what was held before it, and the decoder follows it. -/
theorem encRenormN_sound (n : Nat) {c : Coder} (h : c.Ordered) : (encRenormN n c).Ordered ∧
    ∀ pay, ((encRenormN n c).Holds pay → c.Holds pay) ∧ decRenormN pay n (c.decoder pay) = (encRenormN n c).decoder pay := by
  induction n generalizing c with
  | zero => exact ⟨h, fun _ => ⟨id, rfl⟩⟩
  | succ n ih =>
    rw [encRenormN_succ h]
    simp only [decRenormN_succ_decoder _ h]
    by_cases hmsb : c.msbAgree
    · obtain ⟨hord, hpay⟩ := ih (h.emitByte hmsb)
      simp only [hmsb, if_true]
      exact ⟨hord, fun pay => ⟨fun hold => ((hpay pay).1 hold).of_emitByte h hmsb, (hpay pay).2⟩⟩
    · simp only [hmsb]
      exact ⟨h, fun _ => ⟨id, rfl⟩⟩

/-- The narrowed interval lies in the old one, on the side of the split point that the decoder reads as the bit. -/
theorem Coder.Holds.of_narrow {pay : List Byte} {c : Coder} (h : c.Settled) {bit : Bool} {p1 : U16}
    (hold : (c.narrow bit p1).Holds pay) : c.Holds pay ∧ (c.decoder pay).decodedBit p1 = bit := by
  have hlow := le_coderBound h.low_le_high p1
  have hhigh := coderBound_le h.low_le_high p1
  obtain ⟨hpre, hlo, hhi⟩ := hold
  cases bit with
  | false =>
    rw [Coder.narrow_false] at hpre hlo hhi
    exact ⟨⟨hpre, hlo, hhi.trans hhigh⟩, decide_eq_false hhi.not_gt⟩
  | true =>
    rw [Coder.narrow_true] at hpre hlo hhi
    have hlo : (coderBound c.low c.high p1).toNat < (codeAt pay c.out.length).toNat :=
      Nat.lt_of_succ_le ((h.coderBound_add_one_toNat p1).symm.trans_le hlo)
    exact ⟨⟨hpre, (hlow.trans_lt hlo).le, hhi⟩, decide_eq_true hlo⟩

/-! ### One coded bit -/

/-- A bit coded without an inversion leaves the coder settled. A payload held after it is held before it, and
the decoder reads that bit from it and goes where the encoder goes. -/
theorem encodeBit_sound {c : Coder} (h : c.Settled) {bit : Bool} {p1 : U16} (hinv : (encodeBit c bit p1).2 = false) :
    (encodeBit c bit p1).1.Settled ∧ ∀ pay, (encodeBit c bit p1).1.Holds pay →
      c.Holds pay ∧ decodeBit pay (c.decoder pay) p1 = (bit, (encodeBit c bit p1).1.decoder pay, false) := by
  have hord : (c.narrow bit p1).Ordered := h.toOrdered.narrow hinv
  obtain ⟨hord', hpay⟩ := encRenormN_sound 33 hord
  refine ⟨⟨hord', encRenormN_msbAgree hord ?_⟩, fun pay hold => ?_⟩
  · rw [coderRange_of_le hord.low_le_high]
    omega
  · obtain ⟨hback, hdec⟩ := hpay pay
    obtain ⟨hc, hbit⟩ := (hback hold).of_narrow h
    refine ⟨hc, ?_⟩
    simp only [decodeBit, hbit, narrow_decoder, decRenorm]
    rw [hdec]
    exact congrArg (fun inv => (bit, _, inv)) hinv

/-! ### The coder phase: what holds forwards, and the payload backwards -/

/-- Forwards along an encoder phase: as long as no step inverted the interval, the coder is settled. -/
def CmUnit.Settles (u : CmUnit) : Prop := u.inv = false → u.coder.Settled

/-- Backwards along an encoder phase: no step has inverted the interval, and the payload is held. -/
def CmUnit.Holds (pay : List Byte) (u : CmUnit) : Prop := u.inv = false ∧ u.coder.Holds pay

/-- The decoder phase that stands where the encoder phase u stands. -/
def CmUnit.decoder (pay : List Byte) (u : CmUnit) : CmUnit := { u with coder := u.coder.decoder pay }

theorem encBit_inv (c : Config) (u : CmUnit) (bit : Bool) :
    (u.encBit c bit).inv = (u.inv || (encodeBit u.coder bit (mix (mathOf c) u.w u.ens.predict)).2) := rfl

/-- One coded bit keeps the forward property. -/
theorem CmUnit.Settles.encBit {u : CmUnit} (h : u.Settles) (c : Config) (bit : Bool) : (u.encBit c bit).Settles := by
  intro hinv
  rw [encBit_inv, Bool.or_eq_false_iff] at hinv
  exact (encodeBit_sound (h hinv.1) hinv.2).1

/-- The decoder reads the bit that the encoder coded, and learns what the encoder learns. -/
theorem CmUnit.Settles.decBit {u : CmUnit} (h : u.Settles) {c : Config} {bit : Bool} {pay : List Byte}
    (hold : (u.encBit c bit).Holds pay) :
    u.Holds pay ∧ (u.decoder pay).decBit c pay = ((u.encBit c bit).decoder pay, bit) := by
  obtain ⟨hinv, hpay⟩ := hold
  rw [encBit_inv, Bool.or_eq_false_iff] at hinv
  obtain ⟨hu, hstep⟩ := hinv
  obtain ⟨hc, hdec⟩ := (encodeBit_sound (h hu) hstep).2 pay hpay
  refine ⟨⟨hu, hc⟩, ?_⟩
  simp only [CmUnit.decBit, CmUnit.decoder, hdec, CmUnit.encBit, CmUnit.learnBit, hstep]

theorem CmUnit.Settles.encBits {u : CmUnit} (h : u.Settles) (c : Config) (bits : List Bool) :
    (bits.foldl (CmUnit.encBit c) u).Settles := by
  induction bits generalizing u with
  | nil => exact h
  | cons bit bits ih =>
    rw [List.foldl_cons]
    exact ih (h.encBit c bit)

theorem CmUnit.Settles.decBits {u : CmUnit} (h : u.Settles) {c : Config} {bits : List Bool} {pay : List Byte}
    (hold : (bits.foldl (CmUnit.encBit c) u).Holds pay) :
    u.Holds pay ∧ CmUnit.decBits c pay bits.length (u.decoder pay) = ((bits.foldl (CmUnit.encBit c) u).decoder pay, bits) := by
  induction bits generalizing u with
  | nil => exact ⟨hold, rfl⟩
  | cons bit bits ih =>
    rw [List.foldl_cons] at hold ⊢
    obtain ⟨hnext, hrest⟩ := ih (h.encBit c bit) hold
    obtain ⟨hu, hbit⟩ := h.decBit hnext
    refine ⟨hu, ?_⟩
    simp only [List.length_cons, CmUnit.decBits, hbit, hrest]

theorem byteOf_bitsOf (b : Byte) : byteOf (bitsOf b) = b := by
  revert b
  decide +kernel

/-- `updateByte` does not touch the coder. -/
theorem CmUnit.settles_learnByte (u : CmUnit) (b : Byte) : (u.learnByte b).Settles ↔ u.Settles := Iff.rfl

theorem CmUnit.holds_learnByte (pay : List Byte) (u : CmUnit) (b : Byte) : (u.learnByte b).Holds pay ↔ u.Holds pay := Iff.rfl

theorem CmUnit.decoder_learnByte (pay : List Byte) (u : CmUnit) (b : Byte) :
    (u.learnByte b).decoder pay = (u.decoder pay).learnByte b := rfl

theorem CmUnit.Settles.encByte {u : CmUnit} (h : u.Settles) (c : Config) (b : Byte) : (u.encByte c b).Settles := by
  rw [CmUnit.encByte, CmUnit.settles_learnByte]
  exact h.encBits c (bitsOf b)

theorem CmUnit.Settles.decByte {u : CmUnit} (h : u.Settles) {c : Config} {b : Byte} {pay : List Byte}
    (hold : (u.encByte c b).Holds pay) :
    u.Holds pay ∧ (u.decoder pay).decByte c pay = ((u.encByte c b).decoder pay, b) := by
  rw [CmUnit.encByte, CmUnit.holds_learnByte] at hold
  obtain ⟨hu, hbits⟩ := h.decBits hold
  have hlen : (bitsOf b).length = 8 := rfl
  rw [hlen] at hbits
  refine ⟨hu, ?_⟩
  rw [CmUnit.decByte, hbits, byteOf_bitsOf, CmUnit.encByte, CmUnit.decoder_learnByte]

theorem CmUnit.Settles.encBytes {u : CmUnit} (h : u.Settles) (c : Config) (x : List Byte) :
    (x.foldl (CmUnit.encByte c) u).Settles := by
  induction x generalizing u with
  | nil => exact h
  | cons b x ih =>
    rw [List.foldl_cons]
    exact ih (h.encByte c b)

theorem CmUnit.Settles.decBytes {u : CmUnit} (h : u.Settles) {c : Config} {x : List Byte} {pay : List Byte}
    (hold : (x.foldl (CmUnit.encByte c) u).Holds pay) :
    u.Holds pay ∧ CmUnit.decBytes c pay x.length (u.decoder pay) = ((x.foldl (CmUnit.encByte c) u).decoder pay, x) := by
  induction x generalizing u with
  | nil => exact ⟨hold, rfl⟩
  | cons b x ih =>
    rw [List.foldl_cons] at hold ⊢
    obtain ⟨hnext, hrest⟩ := ih (h.encByte c b) hold
    obtain ⟨hu, hbyte⟩ := h.decByte hnext
    refine ⟨hu, ?_⟩
    simp only [List.length_cons, CmUnit.decBytes, hbyte, hrest]

theorem CmUnit.settles_init : CmUnit.init.Settles := fun _ => Coder.settled_init

/-- The decoder phase starts with the first four bytes of the payload in `code` (R168). -/
theorem CmUnit.decoder_init (pay : List Byte) :
    CmUnit.init.decoder pay = { CmUnit.init with coder := decoderInit pay } := rfl

/-- Settles O43: the payload is held at the end of the encoder's phase, so it is held all along, and the decoder
stands where the encoder stands at every bit. -/
theorem coderRoundTrip : Obligations.CoderRoundTrip := by
  intro c x hinv
  have hend : (cmEncodePhase c x).coder.Settled := CmUnit.settles_init.encBytes c x hinv
  have hrun := (CmUnit.settles_init.decBytes ⟨hinv, hend.holds_encFinish⟩).2
  rw [CmUnit.decoder_init] at hrun
  exact congrArg Prod.snd hrun

end Sys2Proof.Machine
end

section
/-! The decoder and the encoder invert each other (30_encoding.md R79 to R91). -/

namespace Sys2Proof.Machine

open Sys2Proof

/-- What a descriptor has passed, word by word, when none of its words offends (R89). -/
theorem offendingWord_eq_none_iff (op : Op) (d : Descriptor) : offendingWord op d = none ↔
    w0Offends op d.w0 = false ∧ (op.noOperands = true → d.w1 = 0 ∧ d.w2 = 0) ∧
    (op.noOperands = true ∨ lBit d.w0 = true → d.w3 = 0) ∧
    (op.noArg = true ∨ pBit d.w0 = true ∨ aBit d.w0 = true → d.w4 = 0) ∧ d.w5 = 0 ∧ d.w6 = 0 ∧ d.w7 = 0 := by
  have hall : offendingWord op d = none ↔ ∀ j ∈ [0, 1, 2, 3, 4, 5, 6, 7], wordOffends op d j = false := by
    rw [offendingWord_eq_find?, List.find?_eq_none]
    simp only [Bool.not_eq_true]
    rfl
  simp only [hall, List.forall_mem_cons, List.not_mem_nil, false_imp_iff, implies_true, and_true, wordOffends,
    Bool.and_eq_false_iff, bne_eq_false_iff_eq, Bool.or_eq_false_iff]
  grind

/-! ### Decoding an encoded command -/

@[simp] theorem opField_encode (i : Instr) : opField (encode i).w0 = i.op.code := by
  cases i <;> exact opField_w0Of _ _ _ _

/-- W0 made of an opcode and flags offends only by a flag the opcode does not allow. -/
theorem w0Offends_w0Of (op : Op) (l p a : Bool) :
    w0Offends op (w0Of op l p a) = (l && !op.allowsL || p && !op.allowsP || a && !op.allowsA) := by
  simp [w0Offends]

theorem flaggedZero_iff (f : Bool) (w : U32) : flaggedZero f w = true ↔ (f = true → w = 0) := by
  simp [flaggedZero, imp_iff_not_or]

/-- No word of a well-formed command's descriptor offends: it is nonzero only where the opcode has it and no flag
replaces it. -/
theorem offendingWord_encode {i : Instr} (h : i.wf = true) : offendingWord i.op (encode i) = none := by
  cases i with
  | nop => rfl
  | halt => rfl
  | _ =>
    rw [offendingWord_eq_none_iff]
    simpa [Instr.wf, flaggedZero_iff, encode, Instr.op, w0Offends_w0Of, Op.allowsL, Op.allowsP, Op.allowsA, Op.noOperands, Op.noArg]
      using h

theorem buildInstr_encode (i : Instr) : buildInstr i.op (encode i) = i := by
  cases i <;> simp [buildInstr, encode, Instr.op]

/-- Settles O2. -/
theorem decodeInvertsEncode : Obligations.DecodeInvertsEncode := by
  intro i hwf
  have hop : Op.ofCode (opField (encode i).w0) = some i.op := by rw [opField_encode, ofCode_code]
  rw [decodeBytes_toBytes, decode_of_no_offendingWord hop (offendingWord_encode hwf), buildInstr_encode]

/-! ### Encoding a decoded command -/

theorem buildInstr_wf {op : Op} {d : Descriptor} (h : offendingWord op d = none) : (buildInstr op d).wf = true := by
  obtain ⟨-, -, hlen, harg, -⟩ := (offendingWord_eq_none_iff op d).mp h
  have hl := (flaggedZero_iff (lBit d.w0) d.w3).mpr fun hbit => hlen (.inr hbit)
  have hp := (flaggedZero_iff (pBit d.w0) d.w4).mpr fun hbit => harg (.inr (.inl hbit))
  have ha := (flaggedZero_iff (aBit d.w0) d.w4).mpr fun hbit => harg (.inr (.inr hbit))
  cases op <;> simp [buildInstr, Instr.wf, hl, hp, ha]

/-- The words of an accepted descriptor that its command does not keep are the ones the encoder writes. -/
theorem encode_buildInstr {op : Op} {d : Descriptor} (hop : Op.ofCode (opField d.w0) = some op) (h : offendingWord op d = none) :
    encode (buildInstr op d) = d := by
  obtain ⟨hl, hp, ha, hwords, harg⟩ := accepted_words h
  obtain ⟨hw0, -, -, -, h5, h6, h7⟩ := (offendingWord_eq_none_iff op d).mp h
  have hres : reservedField d.w0 = 0 := by
    simp only [w0Offends, Bool.or_eq_false_iff, bne_eq_false_iff_eq] at hw0
    exact hw0.1.1.1
  have hw0 := (w0_eq d.w0 op hop hres).symm
  obtain ⟨w0, w1, w2, w3, w4, w5, w6, w7⟩ := d
  dsimp only at *
  subst h5 h6 h7
  cases op
  case nop | halt =>
    obtain ⟨rfl, rfl, rfl⟩ := hwords rfl
    obtain rfl := harg rfl
    rw [hl rfl, hp rfl, ha rfl] at hw0
    rw [buildInstr, encode, hw0]
  case bwtFwd | mtfEnc | mtfDec =>
    obtain rfl := harg rfl
    rw [hp rfl, ha rfl] at hw0
    rw [buildInstr, encode, hw0]
  case bwtInv =>
    rw [ha rfl] at hw0
    rw [buildInstr, encode, hw0]
  all_goals
    rw [hp rfl] at hw0
    rw [buildInstr, encode, hw0]

/-- Settles O3. -/
theorem encodeInvertsDecode : Obligations.EncodeInvertsDecode := by
  intro bs i h
  rw [decodeBytes] at h
  split at h
  case isFalse => cases h
  case isTrue hlen =>
    obtain ⟨op, hop, haccepted, rfl⟩ := decode_ok h
    rw [encode_buildInstr hop haccepted, toBytes_ofBytes bs hlen]
    exact ⟨buildInstr_wf haccepted, rfl⟩

end Sys2Proof.Machine
end

section
/-! Whole commands and steps of the list: a step runs the decoded command (40_sequencer.md R104), which completes or enters
a fault (R103, 60_exceptions.md R194); NOP and HALT (R106, R107). -/

namespace Sys2Proof.Machine

open Sys2Proof

/-! ### A step runs the decoded command (R104) -/

/-- A turn that the host gives is the sequencer's turn in the state whose queue no longer holds it (log 2). -/
theorem step_turn {s : State} {rest : List HostAccess} (hq : s.hostQueue = .turn :: rest) :
    step s = sequencerTurn { s with hostQueue := rest } := by
  simp only [step, nextMove, hq]

theorem sequencerTurn_of_decode {s : State} {i : Instr} (hb : s.status.busy = true) (hf : s.fetchFault = none)
    (hd : decode s.fetched = .ok i) : sequencerTurn s = exec i s :=
  (if_pos hb).trans (commandStep_of_decode hf hd)

theorem step_idle {s : State} (hb : s.status.busy = false) (hq : s.hostQueue = []) : step s = .next s := by
  rw [step, nextMove, hq]
  exact if_neg (Bool.eq_false_iff.mp hb)

/-- Settles O7. -/
theorem stepRunsDecodedCommand : Obligations.StepRunsDecodedCommand := by
  refine ⟨fun s i hb hf hd => ⟨fun hq => step_of_decode hb hq hf hd, fun rest hq => ?_⟩, fun s => step_idle⟩
  rw [step_turn hq]
  exact sequencerTurn_of_decode hb hf hd

/-! ### Completion or fault (R103, 60_exceptions.md R194) -/

/-- Settles O11: the five ways a command ends are completions or fault entries. -/
theorem commandCompletesOrFaults : Obligations.CommandCompletesOrFaults := by
  intro i s
  rcases exec_cases i s with ⟨-, hx⟩ | ⟨-, hx⟩ | ⟨f, hf, hx⟩ | ⟨out, r, g, k, -, -, hx⟩ | ⟨f, c, k, -, hf, hx⟩
  case inl => exact ⟨_, hx, ⟨rfl, rfl, rfl, rfl⟩, .inr ⟨rfl, rfl, rfl, rfl, rfl, rfl⟩⟩
  case inr.inl => exact ⟨_, hx, ⟨rfl, rfl, rfl, rfl⟩, .inr ⟨rfl, rfl, rfl, rfl, rfl, rfl⟩⟩
  case inr.inr.inl =>
    have hregs := (staticFaultTaken_raise s f).registers
    exact ⟨_, hx, hregs.hostSide, .inl ⟨f, staticFault_code_ne_none hf, hregs⟩⟩
  case inr.inr.inr.inl =>
    have hdone := commandDone_finish s (dstWindow i (s.operandsOf i)).start out r g k
    exact ⟨_, hx, hdone.hostSide, .inr ⟨hdone.cmdPtr, hdone.cmdCount, hdone.errCode, hdone.errPtr, hdone.errInfo, hdone.err⟩⟩
  case inr.inr.inr.inr =>
    have hregs := (dynamicFaultTaken_spoil s (dstWindow i (s.operandsOf i)) c k f).registers
    exact ⟨_, hx, hregs.hostSide, .inl ⟨f, hf, hregs⟩⟩

/-! ### NOP and HALT (R106, R107) -/

/-- Completion without an output, a result, a snapshot or a sticky event. -/
theorem commandDone_complete (s : State) (dst : Nat) : CommandDone s (s.complete Results.keep) dst [] Results.keep s.dbg Sticky.quiet where
  stored := rfl
  otherBytes _ _ := rfl
  resLen := rfl
  resPrimary := rfl
  resAux := rfl
  cmdCount := rfl
  cmdPtr := rfl
  dbg := rfl
  busy := rfl
  done := rfl
  err := rfl
  rleTrail := (Bool.or_false _).symm
  sizeMismatch := (Bool.or_false _).symm
  coderInv := (Bool.or_false _).symm
  errCode := rfl
  errPtr := rfl
  errInfo := rfl
  hostSide := ⟨rfl, rfl, rfl, rfl⟩

/-- Settles O14. -/
theorem nopAndHaltComplete : Obligations.NopAndHaltComplete := fun s =>
  ⟨⟨_, rfl, commandDone_complete s 0, rfl⟩,
    ⟨_, rfl, rfl, rfl, rfl, rfl, rfl, rfl, rfl, rfl, rfl, rfl, rfl, ⟨rfl, rfl, rfl, rfl⟩⟩⟩

/-! ### How a step ends the list (R104, R106, R194) -/

/-- A step of a running list leaves the parameters and the host's side. It goes on to the next descriptor, or it ends
the list with DONE or ERR. -/
structure ListStep (s t : State) : Prop where
  hostSide : HostSideKept s t
  goesOn_or_ends : (t.status.busy = true ∧ t.cmdPtr = s.cmdPtr + 32 ∧ s.fetchFault = none) ∨
    (t.status.busy = false ∧ (t.status.done = true ∨ t.status.err = true))

theorem FaultRegisters.listStep {s t : State} {f : FaultReport} (h : FaultRegisters s t f) : ListStep s t :=
  ⟨h.hostSide, .inr ⟨h.busy, .inr h.err⟩⟩

theorem exec_listStep (i : Instr) {s : State} (hb : s.status.busy = true) (hf : s.fetchFault = none) :
    ∃ t, exec i s = .next t ∧ ListStep s t := by
  rcases exec_cases i s with ⟨-, hx⟩ | ⟨-, hx⟩ | ⟨f, -, hx⟩ | ⟨out, r, g, k, -, -, hx⟩ | ⟨f, c, k, -, -, hx⟩
  case inl => exact ⟨_, hx, ⟨rfl, rfl, rfl, rfl⟩, .inl ⟨hb, rfl, hf⟩⟩
  case inr.inl => exact ⟨_, hx, ⟨rfl, rfl, rfl, rfl⟩, .inr ⟨rfl, .inl rfl⟩⟩
  case inr.inr.inl => exact ⟨_, hx, (staticFaultTaken_raise s f).registers.listStep⟩
  case inr.inr.inr.inl => exact ⟨_, hx, ⟨rfl, rfl, rfl, rfl⟩, .inl ⟨hb, rfl, hf⟩⟩
  case inr.inr.inr.inr => exact ⟨_, hx, (dynamicFaultTaken_spoil s _ c k f).registers.listStep⟩

theorem step_listStep {s : State} (hb : s.status.busy = true) (hq : s.hostQueue = []) : ∃ t, step s = .next t ∧ ListStep s t := by
  cases hf : s.fetchFault with
  | some f =>
    obtain ⟨t, ht, hfault⟩ := step_of_fetchFault hb hq hf
    exact ⟨t, ht, hfault.registers.listStep⟩
  | none =>
    cases hd : decode s.fetched with
    | error r =>
      obtain ⟨t, ht, hfault⟩ := step_of_reject hb hq hf hd
      exact ⟨t, ht, hfault.registers.listStep⟩
    | ok i =>
      rw [step_of_decode hb hq hf hd]
      exact exec_listStep i hb hf

/-! ### The interrupt output (60_exceptions.md R201, R202) -/

theorem State.irqOn_iff (s : State) (line : Nat) : s.irqOn line = true ↔
    line = s.cfg.irqLine ∧ s.irqEn = true ∧ (s.status.done = true ∨ s.status.err = true) := by
  rw [State.irqOn, State.irq, Bool.and_eq_true, Bool.and_eq_true, Bool.or_eq_true, beq_iff_eq]

/-- The invariant keeps DONE and ERR clear while a list runs. -/
theorem State.irq_of_busy {s : State} (h : s.inv = true) (hb : s.status.busy = true) : s.irq = false := by
  obtain ⟨-, -, -, hexcl, -⟩ := s.inv_iff.mp h
  obtain ⟨hdone, herr⟩ := Status.of_busy hexcl hb
  rw [State.irq, hdone, herr, Bool.or_false, Bool.and_false]

/-- Settles O55. -/
theorem interruptAtListEnd : Obligations.InterruptAtListEnd := by
  refine ⟨State.irqOn_iff, fun _ => State.irq_of_busy, fun s t _ hb hq hstep hend => ?_⟩
  obtain ⟨t', ht, hside, hcases⟩ := step_listStep hb hq
  obtain rfl := Host.Outcome.next.inj (hstep.symm.trans ht)
  rcases hcases with ⟨hbusy, -, -⟩ | ⟨-, hflag⟩
  · exact absurd hbusy (Bool.eq_false_iff.mp hend)
  · rw [State.irq, hside.irqEn, (Bool.or_eq_true ..).mpr hflag, Bool.and_true]

/-! ### Every list ends (40_sequencer.md R108, R109) -/

theorem fetchFault_eq_none_iff (s : State) :
    s.fetchFault = none ↔ s.cmdPtr.toNat % 4 = 0 ∧ s.cmdPtr.toNat + 32 ≤ s.cfg.lmemSize.toNat := by
  refine ⟨fun h => ?_, fun ⟨h4, h⟩ => fetchFault_none h4 h⟩
  rw [State.fetchFault] at h
  split_ifs at h with h4 hrange
  exact ⟨not_not.mp h4, not_lt.mp hrange⟩

/-- The 32 bytes a list goes on by lie in LMEM, so CMD_PTR does not wrap and there is less of LMEM ahead. -/
theorem cmdPtr_advance {s : State} (hf : s.fetchFault = none) :
    (s.cmdPtr + 32).toNat = s.cmdPtr.toNat + 32 ∧ s.cmdPtr.toNat + 32 ≤ s.cfg.lmemSize.toNat := by
  obtain ⟨-, hrange⟩ := (fetchFault_eq_none_iff s).mp hf
  have := s.cfg.lmemSize.isLt
  exact ⟨by rw [BitVec.toNat_add]; exact Nat.mod_eq_of_lt (hrange.trans_lt this), hrange⟩

/-- Exactly one of DONE and ERR is set in an idle state with one of them. -/
theorem State.done_iff_not_err {s : State} (h : s.inv = true) (hflag : s.status.done = true ∨ s.status.err = true) :
    s.status.done = true ↔ s.status.err = false := by
  obtain ⟨-, -, -, hexcl, -⟩ := s.inv_iff.mp h
  simp only [Status.exclusive, Bool.and_eq_true, Bool.not_eq_true', Bool.and_eq_false_iff] at hexcl
  grind

/-- With room for fewer than k descriptors from CMD_PTR on, a list ends within k steps. -/
theorem list_ends_within {k : Nat} (hpos : 0 < k) {s : State} (h : s.inv = true) (hb : s.status.busy = true) (hq : s.hostQueue = [])
    (hk : s.cfg.lmemSize.toNat < s.cmdPtr.toNat + 32 * k) :
    ∃ n t, n ≤ k ∧ runSteps n s = .next t ∧ t.status.busy = false ∧ (t.status.done = true ↔ t.status.err = false) := by
  induction k generalizing s with
  | zero => exact absurd hpos (Nat.lt_irrefl 0)
  | succ k ih =>
    obtain ⟨t, ht, hside, hcases⟩ := step_listStep hb hq
    have hinv := step_keeps_inv h ht
    rcases hcases with ⟨hbusy, hptr, hf⟩ | ⟨hidle, hflag⟩
    · obtain ⟨hadd, hrange⟩ := cmdPtr_advance hf
      obtain ⟨n, u, hn, hrun, hend⟩ := ih (by omega) hinv hbusy (hside.hostQueue.trans hq) (by rw [hside.cfg, hptr, hadd]; omega)
      exact ⟨n + 1, u, Nat.succ_le_succ hn, by rw [runSteps, ht]; exact hrun, hend⟩
    · exact ⟨1, t, by omega, by rw [runSteps, ht]; rfl, hidle, State.done_iff_not_err hinv hflag⟩

/-- Settles O59. -/
theorem everyListEnds : Obligations.EveryListEnds := fun _ h hb hq =>
  list_ends_within (Nat.succ_pos _) h hb hq (by omega)

end Sys2Proof.Machine
end

section
/-! The dynamic faults of the data commands (60_exceptions.md R196): an output longer than its capacity, and the records
that BlockDecode rejects (47_block_driver.md R184, R186, R188). -/

namespace Sys2Proof.Machine

open Sys2Proof

/-- A command that passes its own static check, has good windows and whose operation faults takes that dynamic fault
(R99 to R101, R196). -/
theorem exec_faults {i : Instr} {s : State} {op : Operands → Effect} {f : FaultReport} {c : Bool} {k : Sticky}
    (he : exec i s = runCommand i s op) (hc : opcodeCheck s.cfg i (s.operandsOf i) = none)
    (hw : WindowsOk s.cfg (srcWindow i (s.operandsOf i)).start (srcWindow i (s.operandsOf i)).size
      (dstWindow i (s.operandsOf i)).start (dstWindow i (s.operandsOf i)).size) (ho : op (s.operandsOf i) = .fault f c k) :
    ∃ t, exec i s = .next t ∧
      DynamicFaultTaken s t f (dstWindow i (s.operandsOf i)).start (dstWindow i (s.operandsOf i)).size c k :=
  exec_fault he (staticFault_none hc hw) ho

/-! ### Capacity (R131, R132, R176, R185, R187) -/

/-- The coder phases that STR_ENC starts and their inversions, block by block. -/
theorem opStrEnc_of_overflow {c : Config} {m : Lmem} {o : Operands} {x : List Byte} (hx : m.bytes o.src.toNat o.lenEff.toNat = x)
    (h : o.argEff.toNat < (strContainer c x).length) :
    opStrEnc c m o = .fault ⟨.outOverflow, o.argEff⟩ (!(strBlocks c x).isEmpty)
      ⟨false, false, (strBlocks c x).any fun b => (blockEncode c b).cm.inv⟩ := by
  simp only [opStrEnc, hx, h, if_true, strEncoded, List.isEmpty_map, List.any_map, Function.comp_def]

/-- Settles O23. -/
theorem capacityFaults : Obligations.CapacityFaults := by
  intro l a src dst len arg s n cap x f hw
  refine ⟨fun h => ?_, fun h => ?_, fun h => ?_, fun hpos hmax h => ?_, fun h => ?_⟩
  · exact exec_faults (i := .rle0Enc l a src dst len arg) rfl rfl hw (if_pos h)
  · exact exec_faults (i := .rle0Dec l a src dst len arg) rfl rfl hw (if_pos h)
  · exact exec_faults (i := .cmEnc l a src dst len arg) rfl rfl hw (if_pos h)
  · exact exec_faults (i := .blkEnc l a src dst len arg) rfl (blockLenCheck_none hpos.ne' hmax) hw (if_pos h)
  · exact exec_faults (i := .strEnc l a src dst len arg) rfl rfl hw (opStrEnc_of_overflow rfl h)

/-! ### BLK_DEC (R184, R186) -/

/-- ERR_INFO of a record's fault is its address. -/
theorem asU32_toNat (w : U32) : asU32 w.toNat = w := BitVec.ofNat_toNat ..

theorem blockDecode_of_headerFault {c : Config} {m : Lmem} {a avail cap : Nat} {f : FaultReport}
    (h : headerFault c m a avail cap = some f) : blockDecode c m a avail cap = .error ⟨f, false, Sticky.quiet⟩ := by
  rw [blockDecode, h]

/-- A record whose header passes and whose decoded stream has another length than its block (R184). -/
theorem blockDecode_of_lenMismatch {c : Config} {m : Lmem} {a avail cap : Nat} (h : headerFault c m a avail cap = none) :
    let d := cmDecodePhase c (m.bytes (a + 16) (m.read (a + 12) 4)) (m.read (a + 8) 4)
    (rleDecode d.2).1.length ≠ m.read a 4 →
    blockDecode c m a avail cap = .error ⟨⟨.lenMismatch, asU32 a⟩, true, ⟨(rleDecode d.2).2, false, d.1.inv⟩⟩ := by
  intro d hlen
  simp only [blockDecode, h]
  exact if_pos hlen

theorem opBlkDec_of_error {c : Config} {m : Lmem} {o : Operands} {f : BlockFault}
    (h : blockDecode c m o.src.toNat o.argEff.toNat o.lenEff.toNat = .error f) :
    opBlkDec c m o = .fault f.report f.coder f.sticky := by
  rw [opBlkDec, h]

theorem exec_blkDec_of_error {l a : Bool} {src dst len arg : U32} {s : State} {f : BlockFault}
    (hw : WindowsOk s.cfg src.toNat (s.capOf a arg).toNat dst.toNat (s.lenOf l len).toNat)
    (h : blockDecode s.cfg s.lmem src.toNat (s.capOf a arg).toNat (s.lenOf l len).toNat = .error f) :
    ∃ t, exec (.blkDec l a src dst len arg) s = .next t ∧
      DynamicFaultTaken s t f.report dst.toNat (s.lenOf l len).toNat f.coder f.sticky :=
  exec_faults rfl rfl hw (opBlkDec_of_error h)

/-- Settles O24: the header's checks in their order, then the check of the decoded stream. -/
theorem blkDecFaultsInOrder : Obligations.BlkDecFaultsInOrder := by
  intro l a src dst len arg s cap avail n pr rc cs d m faults hw
  have header : ∀ e, headerFault s.cfg s.lmem src.toNat avail.toNat cap.toNat = some ⟨e, src⟩ →
      faults e false ⟨false, false, false⟩ := fun e h => exec_blkDec_of_error hw (blockDecode_of_headerFault h)
  have check : headerFault s.cfg s.lmem src.toNat avail.toNat cap.toNat =
      if avail.toNat < 16 then some ⟨.truncated, src⟩
      else if s.cfg.blockMax.toNat < n then some ⟨.lenLimit, src⟩
      else if n ≤ pr then some ⟨.primaryRange, src⟩
      else if cap.toNat < n then some ⟨.outOverflow, src⟩
      else if avail.toNat < 16 + cs then some ⟨.truncated, src⟩
      else if 2 * n < rc then some ⟨.lenMismatch, src⟩
      else none := by
    simp only [headerFault, asU32_toNat]
    rfl
  refine ⟨fun h16 => header .truncated ?_, fun h16 => ⟨fun hmax => header .lenLimit ?_, fun hmax =>
    ⟨fun hpr => header .primaryRange ?_, fun hpr => ⟨fun hcap => header .outOverflow ?_, fun hcap =>
    ⟨fun hcs => header .truncated ?_, fun hcs => ⟨fun hrc => header .lenMismatch ?_, fun hrc hlen => ?afterCoder⟩⟩⟩⟩⟩⟩
  case afterCoder =>
    have hnone := headerFault_none hmax hpr hcap hcs hrc
    have hx := exec_blkDec_of_error hw (blockDecode_of_lenMismatch hnone hlen)
    rwa [asU32_toNat] at hx
  all_goals
    rw [check]
    grind

/-! ### STR_DEC (R188) -/

/-- The loop of R188 meets the faulting record within as many passes as there are bytes left. -/
theorem strDecodeLoop_of_strFails {c : Config} {m : Lmem} {src avail cap off : Nat} {p : StrProgress} {f : BlockFault}
    (h : StrFails c m src avail cap off p f) : ∀ fuel, avail ≤ fuel + off → strDecodeLoop c m src avail cap fuel off p = .error f := by
  induction h with
  | here off p f hoff hf =>
    intro fuel hfuel
    obtain ⟨fuel, rfl⟩ := Nat.exists_eq_add_of_lt (show 0 < fuel by omega)
    rw [Nat.zero_add, strDecodeLoop, if_pos hoff, hf]
  | later off p d f hoff hd _ ih =>
    intro fuel hfuel
    have hrec := (blockDecode_fits hd).2
    obtain ⟨fuel, rfl⟩ := Nat.exists_eq_add_of_lt (show 0 < fuel by omega)
    rw [Nat.zero_add, strDecodeLoop, if_pos hoff, hd]
    exact ih fuel (by omega)

theorem opStrDec_of_error {c : Config} {m : Lmem} {o : Operands} {f : BlockFault} (hroom : 8 ≤ o.argEff.toNat)
    (h : strDecodeLoop c m o.src.toNat o.argEff.toNat o.lenEff.toNat o.argEff.toNat 8 StrProgress.start = .error f) :
    opStrDec c m o = .fault f.report f.coder f.sticky := by
  simp only [opStrDec, Nat.not_lt.mpr hroom, if_false, h]

/-- Settles O25. -/
theorem strDecFaults : Obligations.StrDecFaults := by
  intro l a src dst len arg s cap avail hw
  refine ⟨fun hroom => ?_, fun hroom f hfails => ?_⟩
  · exact exec_faults (i := .strDec l a src dst len arg) rfl rfl hw (if_pos hroom)
  · have hloop := strDecodeLoop_of_strFails hfails avail.toNat (Nat.le_add_right _ _)
    exact exec_faults rfl rfl hw (opStrDec_of_error hroom hloop)

end Sys2Proof.Machine
end

section
/-! The range coder's loops end by their own exit (46_range_coder.md R165, R170), and one coded bit keeps an ordered
interval or inverts it (R171). -/

namespace Sys2Proof.Machine

open Sys2Proof

/-! ### The renormalisation loop of the encoder and of the decoder (R165, R170) -/

/-- The loop that encoder and decoder share: each has its own MSB-agree pass and its own straddle pass. -/
def renormN (agree straddle : Coder → Coder) : Nat → Coder → Coder
  | 0, c => c
  | n + 1, c =>
    if c.msbAgree then renormN agree straddle n (agree c)
    else if c.straddle then renormN agree straddle n (straddle c)
    else c

theorem renormN_succ (agree straddle : Coder → Coder) (n : Nat) (c : Coder) : renormN agree straddle (n + 1) c =
    if c.msbAgree then renormN agree straddle n (agree c)
    else if c.straddle then renormN agree straddle n (straddle c)
    else c := rfl

theorem encRenormN_eq_renormN (n : Nat) (c : Coder) :
    encRenormN n c = renormN Coder.emitByte (fun c => { c.shiftStraddle with follow := c.follow + 1 }) n c := by
  induction n generalizing c with
  | zero => rfl
  | succ n ih => simp only [encRenormN, renormN_succ, ih]

theorem decRenormN_eq_renormN (pay : List Byte) (n : Nat) (c : Coder) :
    decRenormN pay n c = renormN (Coder.readByte pay) (Coder.readStraddle pay) n c := by
  induction n generalizing c with
  | zero => rfl
  | succ n ih => simp only [decRenormN, renormN_succ, ih]

/-- What the passes of both loops have in common: the part of the coder that the branches depend on. -/
def Coder.interval (c : Coder) : U32 × U32 × Nat := (c.low, c.high, c.follow)

/-- The passes move the interval as R165 says. -/
structure Passes (agree straddle : Coder → Coder) : Prop where
  agree_interval : ∀ c, (agree c).interval = (c.shiftByte.low, c.shiftByte.high, 0)
  straddle_interval : ∀ c, (straddle c).interval = (c.shiftStraddle.low, c.shiftStraddle.high, c.follow + 1)

/-- Two loops with these passes end with one interval, whatever else their coders hold. -/
theorem renormN_interval_congr {agree straddle agree' straddle' : Coder → Coder} (h : Passes agree straddle)
    (h' : Passes agree' straddle') (n : Nat) {c d : Coder} (hcd : d.interval = c.interval) :
    (renormN agree' straddle' n d).interval = (renormN agree straddle n c).interval := by
  induction n generalizing c d with
  | zero => exact hcd
  | succ n ih =>
    obtain ⟨hlow, hhigh, hfollow⟩ : d.low = c.low ∧ d.high = c.high ∧ d.follow = c.follow := by simpa [Coder.interval] using hcd
    have hagree : (agree' d).interval = (agree c).interval := by
      rw [h.agree_interval, h'.agree_interval, Coder.shiftByte, Coder.shiftByte, hlow, hhigh]
    have hstraddle : (straddle' d).interval = (straddle c).interval := by
      rw [h.straddle_interval, h'.straddle_interval, Coder.shiftStraddle, Coder.shiftStraddle, hlow, hhigh, hfollow]
    have hmsb : d.msbAgree = c.msbAgree := by rw [Coder.msbAgree, Coder.msbAgree, hlow, hhigh]
    have hstr : d.straddle = c.straddle := by rw [Coder.straddle, Coder.straddle, hlow, hhigh]
    rw [renormN_succ, renormN_succ, hmsb, hstr]
    split_ifs
    · exact ih hagree
    · exact ih hstraddle
    · exact hcd

/-! ### Every pass shifts zeros into low and ones into high -/

/-- The lowest k bits of low are 0 and those of high are 1. -/
def Coder.Shifted (k : Nat) (c : Coder) : Prop := ∀ i < k, c.low.getLsbD i = false ∧ c.high.getLsbD i = true

theorem Coder.shifted_zero (c : Coder) : c.Shifted 0 := fun _ hi => absurd hi (Nat.not_lt_zero _)

/-- Only the interval matters. -/
theorem Coder.Shifted.of_interval {k : Nat} {c d : Coder} (h : c.Shifted k) {follow : Nat} (hd : d.interval = (c.low, c.high, follow)) :
    d.Shifted k := by
  have hlow : d.low = c.low := congrArg Prod.fst hd
  have hhigh : d.high = c.high := congrArg (Prod.fst ∘ Prod.snd) hd
  intro i hi
  rw [hlow, hhigh]
  exact h i hi

theorem Coder.Shifted.shiftByte {k : Nat} {c : Coder} (h : c.Shifted k) (hk : k < 32) : c.shiftByte.Shifted (k + 1) := by
  intro i hi
  have hlt : i < 32 := by omega
  have hones : ∀ j < 8, (0xFF#32).getLsbD j = true := by decide
  rw [Coder.shiftByte, BitVec.getLsbD_shiftLeft, BitVec.getLsbD_or, BitVec.getLsbD_shiftLeft, decide_eq_true hlt]
  by_cases h8 : i < 8
  · simp [h8, hones i h8]
  · obtain ⟨hlow, hhigh⟩ := h (i - 8) (by omega)
    simp [h8, hlow, hhigh]

theorem Coder.Shifted.shiftStraddle {k : Nat} {c : Coder} (h : c.Shifted k) (hk : k < 32) : c.shiftStraddle.Shifted (k + 1) := by
  intro i hi
  have hlt : i < 32 := by omega
  have htop : ∀ j < 31, (0x80000000#32).getLsbD j = false := by decide
  rw [Coder.shiftStraddle, BitVec.getLsbD_and, BitVec.getLsbD_shiftLeft, BitVec.getLsbD_or, BitVec.getLsbD_shiftLeft,
    BitVec.getLsbD_xor, decide_eq_true hlt]
  by_cases h0 : i < 1
  · simp [Nat.lt_one_iff.mp h0]
  · obtain ⟨hlow, hhigh⟩ := h (i - 1) (by omega)
    simp [h0, hlow, hhigh, htop (i - 1) (by omega)]

/-- With 32 bits shifted in, low is 0 and high is 2^32 − 1: no branch applies. -/
theorem Coder.Shifted.stops {k : Nat} {c : Coder} (h : c.Shifted k) (hk : 32 ≤ k) : c.msbAgree = false ∧ c.straddle = false := by
  obtain ⟨hlow, hhigh⟩ := h 24 (by omega)
  obtain ⟨hmsb, -⟩ := h 31 (by omega)
  constructor
  · refine beq_eq_false_iff_ne.mpr fun heq => ?_
    have hbit : c.low.getLsbD 24 = c.high.getLsbD 24 := by simpa using congrArg (BitVec.getLsbD · 0) heq
    rw [hlow, hhigh] at hbit
    cases hbit
  · rw [Coder.straddle, BitVec.msb_eq_getLsbD_last, hmsb, Bool.false_and]

/-! ### The loop ends by its own exit -/

section

variable {agree straddle : Coder → Coder} (hp : Passes agree straddle)

include hp

/-- A pass that runs has one more bit to shift in, and shifts it in. -/
theorem Passes.shifted {k : Nat} {c : Coder} (h : c.Shifted k) :
    (c.msbAgree = true → (agree c).Shifted (k + 1)) ∧ (c.straddle = true → (straddle c).Shifted (k + 1)) := by
  by_cases hk : k < 32
  · exact ⟨fun _ => (h.shiftByte hk).of_interval (hp.agree_interval c), fun _ => (h.shiftStraddle hk).of_interval (hp.straddle_interval c)⟩
  · obtain ⟨hmsb, hstr⟩ := h.stops (not_lt.mp hk)
    exact ⟨fun h => absurd h (Bool.eq_false_iff.mp hmsb), fun h => absurd h (Bool.eq_false_iff.mp hstr)⟩

/-- With k bits shifted in, 32 − k passes are enough: no branch applies after them, and one more pass does nothing. -/
theorem renormN_stops {n k : Nat} {c : Coder} (h : c.Shifted k) (hn : 32 ≤ n + k) :
    (renormN agree straddle n c).msbAgree = false ∧ (renormN agree straddle n c).straddle = false ∧
    renormN agree straddle (n + 1) c = renormN agree straddle n c := by
  induction n generalizing k c with
  | zero =>
    obtain ⟨hmsb, hstr⟩ := h.stops (by omega)
    exact ⟨hmsb, hstr, by simp [renormN, hmsb, hstr]⟩
  | succ n ih =>
    obtain ⟨hagree, hstraddle⟩ := hp.shifted h
    rw [renormN_succ agree straddle (n + 1), renormN_succ agree straddle n]
    split_ifs with hmsb hstr
    · exact ih (hagree hmsb) (by omega)
    · exact ih (hstraddle hstr) (by omega)
    · exact ⟨Bool.eq_false_iff.mpr hmsb, Bool.eq_false_iff.mpr hstr, rfl⟩

/-- 32 passes are enough for every coder. -/
theorem renormN_of_le {n : Nat} (c : Coder) (hn : 32 ≤ n) : renormN agree straddle n c = renormN agree straddle 33 c := by
  have hstep : ∀ m, 32 ≤ m → renormN agree straddle (m + 1) c = renormN agree straddle m c := fun m hm =>
    (renormN_stops hp c.shifted_zero hm).2.2
  induction n, hn using Nat.le_induction with
  | base => exact (hstep 32 le_rfl).symm
  | succ n hn ih => exact (hstep n hn).trans ih

theorem renormN_ends (c : Coder) : (renormN agree straddle 33 c).msbAgree = false ∧ (renormN agree straddle 33 c).straddle = false ∧
    ∀ n, 32 ≤ n → renormN agree straddle n c = renormN agree straddle 33 c := by
  obtain ⟨hmsb, hstr, -⟩ := renormN_stops hp (n := 33) c.shifted_zero (by omega)
  exact ⟨hmsb, hstr, fun n => renormN_of_le hp c⟩

end

theorem passes_enc : Passes Coder.emitByte fun c => { c.shiftStraddle with follow := c.follow + 1 } :=
  ⟨fun _ => rfl, fun _ => rfl⟩

theorem passes_dec (pay : List Byte) : Passes (Coder.readByte pay) (Coder.readStraddle pay) := ⟨fun _ => rfl, fun _ => rfl⟩

/-- Settles O41: each pass shifts at least one bit into low and high, and after 32 bits no branch applies. -/
theorem renormalisationEnds : Obligations.RenormalisationEnds := by
  refine ⟨fun c => ?_, fun pay c => ?_, fun pay c d hlow hhigh hfollow => ?_⟩
  · simp only [encRenorm, encRenormN_eq_renormN]
    exact renormN_ends passes_enc c
  · simp only [decRenorm, decRenormN_eq_renormN]
    exact renormN_ends (passes_dec pay) c
  · have hcd : d.interval = c.interval := by rw [Coder.interval, Coder.interval, hlow, hhigh, hfollow]
    have h := renormN_interval_congr passes_enc (passes_dec pay) 33 hcd
    rw [← encRenormN_eq_renormN, ← decRenormN_eq_renormN] at h
    simpa [Coder.interval, encRenorm, decRenorm] using h

/-! ### One coded bit on an ordered interval (R171) -/

/-- Nothing the interval says depends on the pending straddle passes. -/
theorem Coder.ordered_dropFollow {c : Coder} (h : c.low.toNat ≤ c.high.toNat) : ({ c with follow := 0 } : Coder).Ordered := ⟨h, rfl⟩

theorem coderBound_eq_high_iff {low high : U32} (h : low.toNat ≤ high.toNat) (p1 : U16) : coderBound low high p1 = high ↔
    coderRange low high * (0xFFFF - p1.toNat) / 2 ^ 16 = coderRange low high - 1 := by
  rw [← BitVec.toNat_inj, coderBound_toNat_of_le h, coderRange_of_le h]
  omega

/-- A 0 bit keeps low, and the split point is no lower; a 1 bit takes what is above the split point, which is nothing
exactly if that is high. -/
theorem eq_true_of_inverted {c : Coder} (h : c.low.toNat ≤ c.high.toNat) {bit : Bool} {p1 : U16}
    (hinv : (c.narrow bit p1).inverted = true) : bit = true ∧ coderBound c.low c.high p1 = c.high := by
  have hlow := le_coderBound h p1
  have hhigh := coderBound_le h p1
  cases bit with
  | false =>
    rw [Coder.narrow_false, Coder.inverted, decide_eq_true_iff] at hinv
    exact absurd hlow (Nat.not_le.mpr hinv)
  | true =>
    rw [Coder.narrow_true, Coder.inverted, decide_eq_true_iff] at hinv
    have hadd : (coderBound c.low c.high p1 + 1).toNat ≤ (coderBound c.low c.high p1).toNat + 1 :=
      (BitVec.toNat_add ..).trans_le (Nat.mod_le _ _)
    exact ⟨rfl, BitVec.eq_of_toNat_eq (le_antisymm hhigh (Nat.le_of_lt_succ (hinv.trans_le hadd)))⟩

theorem inverted_of_bound_eq_high {c : Coder} (h : c.low.toNat ≤ c.high.toNat) (hmsb : c.msbAgree = false) {p1 : U16}
    (hbound : coderBound c.low c.high p1 = c.high) : (c.narrow true p1).inverted = true := by
  have hsettled : ({ c with follow := 0 } : Coder).Settled := ⟨Coder.ordered_dropFollow h, hmsb⟩
  have hadd := hsettled.coderBound_add_one_toNat p1
  rw [Coder.narrow_true, Coder.inverted, decide_eq_true_iff]
  refine Nat.lt_of_lt_of_eq ?_ hadd.symm
  exact Nat.lt_succ_of_le (congrArg BitVec.toNat hbound).ge

/-- Settles O42. -/
theorem orderedIntervalKept : Obligations.OrderedIntervalKept := by
  intro c h
  have hord := Coder.ordered_dropFollow h
  refine ⟨hord.straddle_eq_false, fun hmsb => (hord.emitByte hmsb).low_le_high, fun bit p1 =>
    ⟨coderBound_eq_high_iff h p1, eq_true_of_inverted h, fun hmsb hbit hbound => ?_, fun hfollow hinv => ?_⟩⟩
  · subst hbit
    exact inverted_of_bound_eq_high h hmsb hbound
  · have hnarrow : (c.narrow bit p1).Ordered := Coder.Ordered.narrow ⟨h, hfollow⟩ hinv
    obtain ⟨hend, -⟩ := encRenormN_sound 33 hnarrow
    exact ⟨hend.low_le_high, hend.follow_eq_zero⟩

end Sys2Proof.Machine
end

section
/-! Containers: the cut of an input into blocks, the fields of their records, and the round trip of a record and of a
stream (47_block_driver.md R182, R184, R187 to R189). -/

namespace Sys2Proof.Machine

open Sys2Proof

/-! ### The cut into blocks (R187) -/

theorem blocks_nil (n : Nat) : Blocks n [] [] := ⟨rfl, by simp, by simp⟩

/-- A block of n bytes, or all that is left, in front of a cut of the rest. -/
theorem Blocks.cons_take {n : Nat} (hn : 0 < n) {x : List Byte} (hx : x ≠ []) {bs : List (List Byte)} (h : Blocks n (x.drop n) bs) :
    Blocks n x (x.take n :: bs) := by
  have hpos : 0 < x.length := List.length_pos_iff.mpr hx
  refine ⟨by rw [List.flatten_cons, h.joined, List.take_append_drop], List.forall_mem_cons.mpr ⟨?_, h.sizes⟩, ?_⟩
  · rw [List.length_take]
    omega
  · cases bs with
    | nil => simp
    | cons b bs =>
      have hb : 0 < b.length := (h.sizes b List.mem_cons_self).1
      have hrest : b.length ≤ (x.drop n).length := by rw [← h.joined, List.flatten_cons, List.length_append]; omega
      rw [List.length_drop] at hrest
      rw [List.dropLast_cons_cons]
      exact List.forall_mem_cons.mpr ⟨by rw [List.length_take]; omega, h.full⟩

theorem blocks_chunksOf {n : Nat} (hn : 0 < n) {fuel : Nat} {x : List Byte} (hfuel : x.length ≤ fuel) : Blocks n x (chunksOf n fuel x) := by
  induction fuel generalizing x with
  | zero =>
    obtain rfl := List.eq_nil_of_length_eq_zero (Nat.le_zero.mp hfuel)
    exact blocks_nil n
  | succ fuel ih =>
    by_cases hx : x = []
    · subst hx
      exact blocks_nil n
    · rw [chunksOf_of_ne_nil hx]
      have hpos : 0 < x.length := List.length_pos_iff.mpr hx
      exact Blocks.cons_take hn hx (ih (by rw [List.length_drop]; omega))

theorem blocks_strBlocks {c : Config} (hpos : 0 < c.blockMax.toNat) (x : List Byte) : Blocks c.blockMax.toNat x (strBlocks c x) :=
  blocks_chunksOf hpos le_rfl

/-- One block more for every n bytes begun. -/
theorem ceil_div_of_pos {n k : Nat} (hn : 0 < n) (hk : 0 < k) : (k + n - 1) / n = (k - n + n - 1) / n + 1 := by
  rcases Nat.le_total k n with h | h
  · rw [Nat.sub_eq_zero_of_le h, Nat.div_eq_of_lt (show 0 + n - 1 < n by omega), show k + n - 1 = k - 1 + n by omega,
      Nat.add_div_right _ hn, Nat.div_eq_of_lt (by omega)]
  · rw [← Nat.add_div_right _ hn]
    congr 1
    omega

theorem Blocks.length_eq {n : Nat} (hn : 0 < n) {x : List Byte} {bs : List (List Byte)} (h : Blocks n x bs) :
    bs.length = (x.length + n - 1) / n := by
  induction bs generalizing x with
  | nil =>
    obtain rfl : x = [] := h.joined.symm
    exact (Nat.div_eq_of_lt (by simp; omega)).symm
  | cons b bs ih =>
    obtain ⟨-, hdrop, hrest⟩ := h.first
    have hb : 0 < b.length := (h.sizes b List.mem_cons_self).1
    have hlen : 0 < x.length := by rw [← h.joined, List.flatten_cons, List.length_append]; omega
    rw [List.length_cons, ih hrest, ← hdrop, List.length_drop, ceil_div_of_pos hn hlen]

theorem Blocks.sum_lengths {n : Nat} {x : List Byte} {bs : List (List Byte)} (h : Blocks n x bs) :
    (bs.map List.length).sum = x.length := by
  rw [← h.joined, List.length_flatten]

theorem Blocks.length_le {n : Nat} {x : List Byte} {bs : List (List Byte)} (h : Blocks n x bs) {b : List Byte} (hb : b ∈ bs) :
    b.length ≤ x.length := by
  rw [← h.sum_lengths]
  exact List.single_le_sum (by simp) _ (List.mem_map_of_mem hb)

/-! ### The fields of a record (R182, R183) -/

theorem bwtForward_primary_lt {s : List Byte} (hs : s ≠ []) : (bwtForward s).2 < s.length := by
  have hprim := (suffixOrder_getElem?_zero_iff hs _).mpr rfl
  simpa using (List.getElem?_eq_some_iff.mp hprim).1

/-- The RLE0 stream of a block, which its payload codes. -/
def blockStream (s : List Byte) : List Byte := rleEncode (mtfEncode (bwtForward s).1)

theorem blockStream_length_le (s : List Byte) : (blockStream s).length ≤ 2 * s.length := by
  simpa [blockStream] using rleEncode_length_le (mtfEncode (bwtForward s).1)

/-- The record of a block, field by field. -/
theorem blockEncode_record (c : Config) (s : List Byte) : (blockEncode c s).record =
    leBytes 4 s.length ++ (leBytes 4 (bwtForward s).2 ++ (leBytes 4 (blockStream s).length ++
      (leBytes 4 (cmEncode c (blockStream s)).length ++ cmEncode c (blockStream s)))) := by
  simp only [blockEncode, blockStream, cmEncode, List.append_assoc]

theorem leNat_leBytes_of_lt {v : Nat} (h : v < 2 ^ 32) : leNat (leBytes 4 v) = v := by
  rw [leNat_leBytes]
  exact Nat.mod_eq_of_lt h

theorem blockEncode_blockLen_field {c : Config} {s : List Byte} (h : s.length < 2 ^ 32) :
    leNat ((blockEncode c s).record.take 4) = s.length := by
  rw [blockEncode_record, List.take_left' (leBytes_length ..), leNat_leBytes_of_lt h]

theorem blockEncode_primary_field {c : Config} {s : List Byte} (hs : s ≠ []) (h : s.length < 2 ^ 32) :
    leNat (((blockEncode c s).record.drop 4).take 4) = (blockEncode c s).primary := by
  rw [blockEncode_record, List.drop_left' (leBytes_length ..), List.take_left' (leBytes_length ..),
    leNat_leBytes_of_lt ((bwtForward_primary_lt hs).trans h)]
  rfl

/-- Settles O44. -/
theorem blocksOfInput : Obligations.BlocksOfInput := by
  intro c x hpos bs
  have hblocks : Blocks c.blockMax.toNat x bs := blocks_strBlocks hpos x
  refine ⟨hblocks, fun other hother => (chunksOf_of_blocks hother le_rfl).symm, hblocks.length_eq hpos, hblocks.sum_lengths,
    fun hx => ⟨?_, fun e he => ?_⟩⟩
  · rw [strEncoded, List.map_map]
    exact List.map_congr_left fun b hb => blockEncode_blockLen_field ((hblocks.length_le hb).trans_lt hx)
  · obtain ⟨b, hb, rfl⟩ := List.mem_map.mp he
    have hne : b ≠ [] := List.ne_nil_of_length_pos (hblocks.sizes b hb).1
    have hlt := (hblocks.length_le hb).trans_lt hx
    rw [blockEncode_primary_field hne hlt, blockEncode_blockLen_field hlt]
    exact ⟨rfl, bwtForward_primary_lt hne⟩

/-! ### A record in LMEM (R184) -/

/-- A sequence stands in LMEM exactly if its parts stand there, one behind the other. -/
theorem Lmem.bytes_append_iff (m : Lmem) (a : Nat) (u v : List Byte) :
    m.bytes a (u ++ v).length = u ++ v ↔ m.bytes a u.length = u ∧ m.bytes (a + u.length) v.length = v := by
  have hsplit : m.bytes a (u ++ v).length = m.bytes a u.length ++ m.bytes (a + u.length) v.length := by
    rw [← List.take_append_drop u.length (m.bytes a (u ++ v).length), Lmem.drop_bytes, Lmem.take_bytes _ _ (by simp)]
    simp
  rw [hsplit]
  exact ⟨fun h => List.append_inj h (Lmem.bytes_length ..), fun ⟨hu, hv⟩ => congrArg₂ _ hu hv⟩

theorem Lmem.read_of_bytes {m : Lmem} {a v : Nat} (hv : v < 2 ^ 32) (h : m.bytes a 4 = leBytes 4 v) : m.read a 4 = v := by
  rw [Lmem.read, h, leNat_leBytes_of_lt hv]

/-- The header fields and the payload of a record that stands at an address, whose fields hold their values. -/
structure RecordAt (c : Config) (s : List Byte) (m : Lmem) (a : Nat) : Prop where
  blockLen : m.read a 4 = s.length
  primary : m.read (a + 4) 4 = (bwtForward s).2
  rleCount : m.read (a + 8) 4 = (blockStream s).length
  csize : m.read (a + 12) 4 = (cmEncode c (blockStream s)).length
  payload : m.bytes (a + 16) (cmEncode c (blockStream s)).length = cmEncode c (blockStream s)

/-- A block below 2^31 bytes has an RLE0 stream below 2^32 bytes, so all four fields hold their values. -/
theorem recordAt_of_bytes {c : Config} {s : List Byte} {m : Lmem} {a : Nat} (hs : s ≠ []) (hlen : s.length < 2 ^ 31)
    (hrec : (blockEncode c s).record.length < 2 ^ 32) (h : m.bytes a (blockEncode c s).record.length = (blockEncode c s).record) :
    RecordAt c s m a := by
  have hprimary := bwtForward_primary_lt hs
  have hstream := blockStream_length_le s
  have hpay : 16 + (cmEncode c (blockStream s)).length < 2 ^ 32 := blockEncode_record_length c s ▸ hrec
  simp only [blockEncode_record, Lmem.bytes_append_iff, leBytes_length, Nat.add_assoc, Nat.reduceAdd] at h
  obtain ⟨hn, hpr, hrc, hcs, hbytes⟩ := h
  exact ⟨Lmem.read_of_bytes (by omega) hn, Lmem.read_of_bytes (by omega) hpr, Lmem.read_of_bytes (by omega) hrc,
    Lmem.read_of_bytes (by omega) hcs, hbytes⟩

/-- Each stage of BlockDecode undoes its stage of BlockEncode, the last first (R184, R189). -/
theorem blockDecode_of_recordAt {c : Config} {s : List Byte} {m : Lmem} {a avail cap : Nat} (h : RecordAt c s m a) (hs : s ≠ [])
    (hmax : s.length ≤ c.blockMax.toNat) (hinv : (blockEncode c s).cm.inv = false)
    (havail : (blockEncode c s).record.length ≤ avail) (hcap : s.length ≤ cap) :
    blockDecode c m a avail cap = .ok ⟨s, (blockEncode c s).record.length, asU32 (blockEncode c s).primary,
      (cmDecodePhase c (cmEncode c (blockStream s)) (blockStream s).length).1, false⟩ := by
  obtain ⟨hn, hpr, hrc, hcs, hbytes⟩ := h
  have hreclen : (blockEncode c s).record.length = 16 + (cmEncode c (blockStream s)).length := blockEncode_record_length c s
  have hheader : headerFault c m a avail cap = none :=
    headerFault_none (hn ▸ hmax) (by rw [hpr, hn]; exact bwtForward_primary_lt hs) (hn ▸ hcap) (by rw [hcs, ← hreclen]; exact havail)
      (by rw [hrc, hn]; exact blockStream_length_le s)
  have hstream : (cmDecodePhase c (cmEncode c (blockStream s)) (blockStream s).length).2 = blockStream s :=
    coderRoundTrip c (blockStream s) hinv
  have hrle : rleDecode (blockStream s) = (mtfEncode (bwtForward s).1, false) := rleBijection.1 _
  have hblock : bwtInverse (mtfDecode (mtfEncode (bwtForward s).1)) (bwtForward s).2 = s := by
    rw [mtfDecode_mtfEncode, bwtBijection s hs]
  simp only [blockDecode, hheader, hn, hpr, hrc, hcs, hbytes, hstream, hrle, hblock, hreclen, mtfEncode_length, bwtForward_length,
    ne_eq, not_true_eq_false, if_false]
  rfl

/-- Settles O45. -/
theorem blockRoundTrip : Obligations.BlockRoundTrip := by
  intro c s m a avail cap e hs hlen hmax hrec hinv hbytes havail hcap
  refine ⟨_, blockDecode_of_recordAt (recordAt_of_bytes hs hlen hrec hbytes) hs hmax hinv havail hcap, rfl, rfl, ?_, rfl⟩
  have hlt : e.primary < 2 ^ 32 := (bwtForward_primary_lt hs).trans (by omega)
  exact Nat.mod_eq_of_lt hlt

/-! ### A container in LMEM (R188, R189) -/

/-- The records of the blocks one behind the other: the loop of STR_DEC from their start on adds the blocks to its progress. -/
theorem strRun_of_records {c : Config} {m : Lmem} {src avail cap : Nat} {bs : List (List Byte)} {out : List Byte}
    (hout : out = bs.flatMap fun b => (blockEncode c b).record) (hlt : out.length < 2 ^ 32)
    (hsizes : ∀ b ∈ bs, b ≠ [] ∧ b.length < 2 ^ 31 ∧ b.length ≤ c.blockMax.toNat ∧ (blockEncode c b).cm.inv = false)
    {off : Nat} {p : StrProgress} (havail : avail = off + out.length) (hcap : p.out.length + bs.flatten.length ≤ cap)
    (h : m.bytes (src + off) out.length = out) :
    ∃ q, StrRun c m src avail cap off p q ∧ q.out = p.out ++ bs.flatten ∧ q.records = p.records + bs.length ∧
      q.sticky.rleTrail = p.sticky.rleTrail := by
  induction bs generalizing out off p with
  | nil =>
    subst hout
    exact ⟨p, .eof off p havail.le, by simp, rfl, rfl⟩
  | cons b bs ih =>
    obtain ⟨⟨hb, hb31, hbmax, hbinv⟩, hrest⟩ := List.forall_mem_cons.mp hsizes
    rw [List.flatMap_cons] at hout
    generalize hr : bs.flatMap (fun b => (blockEncode c b).record) = rest at hout
    subst hout
    rw [List.length_append] at hlt havail
    rw [List.flatten_cons, List.length_append] at hcap
    obtain ⟨hrec, hbytes⟩ := (Lmem.bytes_append_iff ..).mp h
    obtain ⟨d, hd, hblock, hreclen, htrail⟩ : ∃ d, blockDecode c m (src + off) (avail - off) (cap - p.out.length) = .ok d ∧
        d.block = b ∧ d.recLen = (blockEncode c b).record.length ∧ d.trail = false :=
      ⟨_, blockDecode_of_recordAt (recordAt_of_bytes hb hb31 (by omega) hrec) hb hbmax hbinv (by omega) (by omega), rfl, rfl, rfl⟩
    have hpos : 16 ≤ d.recLen := (blockDecode_fits hd).2
    rw [← hreclen] at havail hbytes
    have hadd : (p.add d).out = p.out ++ b := hblock ▸ rfl
    obtain ⟨q, hrun, hqout, hqrecords, hqtrail⟩ := ih hr.symm (by omega) hrest (off := off + d.recLen) (p := p.add d) (by omega)
      (by rw [hadd, List.length_append]; omega) (by rw [← Nat.add_assoc]; exact hbytes)
    refine ⟨q, .record off p q d (by omega) hd hrun, ?_, ?_, ?_⟩
    · rw [hqout, hadd, List.flatten_cons, List.append_assoc]
    · have hadd : (p.add d).records = p.records + 1 := rfl
      rw [hqrecords, hadd, List.length_cons, Nat.add_assoc, Nat.add_comm 1]
    · rw [hqtrail, StrProgress.add, htrail, Bool.or_false]

/-- Settles O46. -/
theorem streamRoundTrip : Obligations.StreamRoundTrip := by
  intro c x bs m src cap out hblocks h31 hx hout hcap hinv hbytes
  obtain ⟨hsize, hrecords⟩ := (Lmem.bytes_append_iff ..).mp hbytes
  have hlen : out.length = 8 + (bs.flatMap fun b => (blockEncode c b).record).length := by
    rw [List.length_append, leBytes_length]
  rw [leBytes_length] at hsize hrecords
  have hsizes : ∀ b ∈ bs, b ≠ [] ∧ b.length < 2 ^ 31 ∧ b.length ≤ c.blockMax.toNat ∧ (blockEncode c b).cm.inv = false := fun b hb =>
    ⟨List.ne_nil_of_length_pos (hblocks.sizes b hb).1, h31 b hb, (hblocks.sizes b hb).2, hinv b hb⟩
  refine ⟨?_, ?_⟩
  · rw [Lmem.read, hsize, leNat_leBytes]
    exact Nat.mod_eq_of_lt (hx.trans (by norm_num))
  · obtain ⟨q, hrun, hqout, hqrecords, hqtrail⟩ := strRun_of_records (cap := cap) (off := 8) (p := StrProgress.start) rfl (by omega)
      hsizes hlen (by simpa [hblocks.joined, StrProgress.start] using hcap) hrecords
    exact ⟨q, hrun, by simpa [hblocks.joined, StrProgress.start] using hqout, by simpa [StrProgress.start] using hqrecords, hqtrail⟩

end Sys2Proof.Machine
end

section
/-! CTRL writes and resets (10_state.md R29; 40_sequencer.md R95; 60_exceptions.md R199; 70_reset_and_hazards.md R210,
R212). -/

namespace Sys2Proof.Machine

open Sys2Proof

/-! ### CTRL without SRST (R29, R95) -/

theorem step_writeCtrl {s : State} {v : U32} {rest : List HostAccess}
    (hq : s.hostQueue = .mmioWrite (s.cfg.mmioBase + 0x004) 4 v :: rest) :
    step s = .next ({ s with hostQueue := rest }.writeCtrl v) :=
  step_mmioWrite (by norm_num) (by norm_num) hq

theorem State.writeCtrl_start {s : State} {v : U32} (h1 : v.getLsbD 1 = false) (h0 : v.getLsbD 0 = true) (hb : s.status.busy = false) :
    s.writeCtrl v = { s with irqEn := v.getLsbD 2 }.acceptStart := by
  rw [State.writeCtrl, if_neg (Bool.eq_false_iff.mp h1), h0, hb]
  rfl

theorem State.writeCtrl_irqEn {s : State} {v : U32} (h1 : v.getLsbD 1 = false) (h : v.getLsbD 0 = false ∨ s.status.busy = true) :
    s.writeCtrl v = { s with irqEn := v.getLsbD 2 } := by
  rw [State.writeCtrl, if_neg (Bool.eq_false_iff.mp h1)]
  refine if_neg ?_
  rcases h with h | h <;> rw [h] <;> simp

/-- Settles O48. -/
theorem startAccepted : Obligations.StartAccepted := by
  intro s v rest hq h1
  refine ⟨_, step_writeCtrl hq, fun h0 hb => State.writeCtrl_start h1 h0 hb, fun h => ?_⟩
  have hw := State.writeCtrl_irqEn (s := { s with hostQueue := rest }) h1 h
  exact ⟨hw, congrArg State.irq hw⟩

/-! ### The way on after a static fault (60_exceptions.md R199) -/

/-- The operands and the static checks of a command read the parameters and two RES registers. -/
theorem State.operandsOf_congr {s t : State} (hlen : t.resLen = s.resLen) (hprim : t.resPrimary = s.resPrimary) (i : Instr) :
    t.operandsOf i = s.operandsOf i := by
  cases i <;> simp only [State.operandsOf, State.resolve, hlen, hprim]

theorem State.staticFault_congr {s t : State} (hcfg : t.cfg = s.cfg) (hlen : t.resLen = s.resLen)
    (hprim : t.resPrimary = s.resPrimary) (i : Instr) : t.staticFault i = s.staticFault i := by
  simp only [State.staticFault, State.operandsOf_congr hlen hprim, hcfg]

/-- Settles O56: START keeps all that a fetch, an operand or a check reads. -/
theorem restartAfterStaticFault : Obligations.RestartAfterStaticFault := by
  intro s t f h u
  obtain ⟨⟨-, -, -, -, hidle, -, hptr, -, hlen, hprim, haux, hcfg, -, -, -⟩, hlmem, hdbg, -, -, -⟩ := h
  have hq : u.hostQueue = .mmioWrite (u.cfg.mmioBase + 0x004) 4 1 :: [] := by rw [show u.cfg = s.cfg from hcfg]
  have hstart : ({ u with hostQueue := [] } : State).writeCtrl 1 = _ := State.writeCtrl_start (by decide) (by decide) hidle
  have hfetched : t.fetched = s.fetched := by rw [State.fetched, State.fetched, hlmem, hptr]
  have hfault : t.fetchFault = s.fetchFault := by rw [State.fetchFault, State.fetchFault, hcfg, hptr]
  exact ⟨_, (step_writeCtrl hq).trans (congrArg _ hstart), rfl, rfl, rfl, hptr, hfetched, hfault,
    fun i => ⟨State.operandsOf_congr hlen hprim i, State.staticFault_congr hcfg hlen hprim i⟩, hlmem, hcfg, hdbg, hlen, hprim, haux,
    rfl, rfl, rfl, rfl⟩

/-! ### Soft reset (70_reset_and_hazards.md R212) -/

theorem registersReset_resetRegisters (s : State) : RegistersReset s.resetRegisters :=
  ⟨rfl, rfl, rfl, rfl, rfl, rfl, rfl, rfl, rfl, rfl, rfl⟩

/-- The address lies outside the destination window of the command that a soft reset would stop. -/
def State.OutsideRunning (s : State) (a : Nat) : Prop :=
  ∀ i, s.fetchFault = none → decode s.fetched = .ok i →
    OutsideRange (dstWindow i (s.operandsOf i)).start (dstWindow i (s.operandsOf i)).size a

/-- Stopping the running command frees its window, as far as it lies in LMEM, and changes nothing else. -/
theorem stopRunning_frame (s : State) : ∃ m, s.stopRunning = { s with lmem := m } ∧
    ∀ a, s.OutsideRunning a → m.byte a = s.lmem.byte a := by
  rcases runningWindow_cases s with ⟨i, hf, hd, hw⟩ | hw
  · refine ⟨_, by rw [State.stopRunning, hw], fun a ha => ?_⟩
    exact Lmem.byte_scramble_outside s.lmem s.freeCount _ a (Window.outside_clip (ha i hf hd))
  · exact ⟨s.lmem, by rw [State.stopRunning, hw], fun _ _ => rfl⟩

theorem softReset_frame (s : State) : ∃ m, s.softReset = ({ s with lmem := m } : State).resetRegisters ∧
    (s.status.busy = false → m = s.lmem) ∧ ∀ a, s.OutsideRunning a → m.byte a = s.lmem.byte a := by
  cases hb : s.status.busy with
  | false => exact ⟨s.lmem, if_neg (Bool.eq_false_iff.mp hb), fun _ => rfl, fun _ _ => rfl⟩
  | true =>
    obtain ⟨m, hm, hbyte⟩ := stopRunning_frame s
    exact ⟨m, (if_pos hb).trans (congrArg _ hm), nofun, hbyte⟩

/-- Settles O49. -/
theorem softResetActs : Obligations.SoftResetActs := by
  intro s v rest hq h1
  have hsrst : ({ s with hostQueue := rest } : State).writeCtrl v = _ := if_pos h1
  obtain ⟨m, hm, hidle, hbyte⟩ := softReset_frame { s with hostQueue := rest }
  exact ⟨_, (step_writeCtrl hq).trans (congrArg _ (hsrst.trans hm)), registersReset_resetRegisters _, rfl, rfl, rfl, hidle, hbyte⟩

/-! ### Power-on reset (10_state.md R27, 70_reset_and_hazards.md R210) -/

@[simp] theorem Eight.get_all {α : Type} (a : α) (i : Fin 8) : (Eight.all a).get i = a := by
  fin_cases i <;> rfl

/-- The DBG_W registers hold the initial weight, 1.0: the upper halves 0x3FF00000, the lower halves 0. -/
theorem dbgWeight_reset {off : Nat} (h4 : off % 4 = 0) : dbgWeight Dbg.reset off = if off % 8 = 4 then 0x3FF00000 else 0 := by
  rcases (by omega : off % 8 = 0 ∨ off % 8 = 4) with h | h <;> simp [dbgWeight, Dbg.reset, h]

theorem Status.word_reset : Status.reset.word = 0 := by decide

/-- The registers below the weights, one by one (R27). -/
theorem register_resetRegisters_low (s : State) {k : Nat} (hk : k < 32) : s.resetRegisters.register (4 * k) =
    if 4 * k = 0x000 then 0x5A420007 else if 4 * k = 0x02C then s.cfg.lmemSize else if 4 * k = 0x030 then s.cfg.blockMax
    else if 4 * k = 0x044 then 0xFFFFFFFF else 0 := by
  -- STATUS, at 0x008, is a combination of flags; every other register below the weights is a stored value
  rcases lt_trichotomy k 2 with h | rfl | h
  · interval_cases k <;> rfl
  · exact Status.word_reset
  · interval_cases k <;> rfl

theorem register_of_weight (s : State) {off : Nat} (hlo : 0x080 ≤ off) (hhi : off < 0x0C0) :
    s.register off = dbgWeight s.dbg off := by
  have hres : reservedOffset off = false := by
    simp [reservedOffset]
    omega
  simp [State.register, hres, hlo]

theorem register_of_reserved (s : State) {off : Nat} (h : 0x0C0 ≤ off) : s.register off = 0 :=
  if_pos (by simp [reservedOffset, h])

/-- Settles O50. -/
theorem registersAfterReset : Obligations.RegistersAfterReset := by
  intro s rest hq
  refine ⟨_, step_access hq (by simp), registersReset_resetRegisters _, rfl, rfl, rfl, Nat.succ_ne_self _, fun off _ h4 => ?_⟩
  rcases Nat.lt_or_ge off 0x080 with hlow | hlow
  · obtain ⟨k, rfl⟩ := Nat.dvd_of_mod_eq_zero h4
    rw [if_neg (show ¬ (0x080 ≤ 4 * k ∧ 4 * k < 0x0C0 ∧ 4 * k % 8 = 4) by omega)]
    exact register_resetRegisters_low _ (by omega)
  · rw [if_neg (by omega), if_neg (by omega), if_neg (by omega), if_neg (by omega)]
    rcases Nat.lt_or_ge off 0x0C0 with hweight | hres
    · refine (register_of_weight _ hlow hweight).trans ((dbgWeight_reset h4).trans ?_)
      simp only [hlow, hweight, true_and]
    · rw [if_neg (by omega)]
      exact register_of_reserved _ hres

/-- Settles O58. -/
theorem resetMeetsInvariant : Obligations.ResetMeetsInvariant := by
  rw [Obligations.ResetMeetsInvariant, State.inv_iff]
  exact ⟨by decide, Memory.wf_reset, rfl, rfl, rfl⟩

end Sys2Proof.Machine
end

section
/-! The match models: what they predict (44_predictors.md R146), and the earlier position they find until the buffer wraps
(R145, R147). -/

namespace Sys2Proof.Machine

open Sys2Proof

/-! ### The prediction (R146) -/

theorem matchConf_bounds (len : Nat) : 256 ≤ matchConf len ∧ matchConf len ≤ 8192 := by
  rw [matchConf]
  split_ifs <;> decide

theorem MatchModel.predict_of_no_match {m : MatchModel} (h : m.matchLen = 0) : m.predict = 32768 := if_pos h

/-- The bit that a live match predicts: the next bit of the byte behind it. -/
def MatchModel.predictedBit (m : MatchModel) : Nat :=
  (m.bufAt ((m.matchPos + m.matchLen) % windowW)).toNat / 2 ^ (7 - m.bitPos) % 2

/-- The confidence keeps the prediction inside [24576, 40960], so the clamp never acts. -/
theorem MatchModel.predict_of_match {m : MatchModel} (h : 0 < m.matchLen) :
    m.predict.toNat = (if m.predictedBit = 1 then 32768 + matchConf m.matchLen else 32768 - matchConf m.matchLen) ∧
    24576 ≤ m.predict.toNat ∧ m.predict.toNat ≤ 40960 := by
  obtain ⟨hlo, hhi⟩ := matchConf_bounds m.matchLen
  obtain ⟨v, hv⟩ : ∃ v, v = if m.predictedBit = 1 then 32768 + matchConf m.matchLen else 32768 - matchConf m.matchLen := ⟨_, rfl⟩
  have hrange : 24576 ≤ v ∧ v ≤ 40960 := by
    rw [hv]
    split_ifs <;> omega
  have hpredict : m.predict = BitVec.ofNat 16 (clampi v 1 65534) := hv ▸ if_neg h.ne'
  have htoNat : m.predict.toNat = v := by
    rw [hpredict, clampi_of_mem (by omega) (by omega), BitVec.toNat_ofNat, Nat.mod_eq_of_lt (by omega)]
  rw [htoNat]
  exact ⟨hv, hrange⟩

/-! ### The last c bytes and the latest place where they ended before -/

/-- The last c bytes of the first n bytes of x, or all of them if there are fewer. -/
def contextAt (c : Nat) (x : List Byte) (n : Nat) : List Byte := (x.take n).drop (n - c)

theorem contextAt_append {c n : Nat} {x : List Byte} (b : Byte) (h : n ≤ x.length) : contextAt c (x ++ [b]) n = contextAt c x n := by
  rw [contextAt, contextAt, List.take_append_of_le_length h]

theorem contextAt_length {c n : Nat} {x : List Byte} (h : n ≤ x.length) : (contextAt c x n).length = min c n := by
  rw [contextAt, List.length_drop, List.length_take]
  omega

/-- Whether h ended at a place below bound, and the latest such place. -/
def LatestEnd (c : Nat) (x h : List Byte) (bound : Nat) : Option Nat → Prop
  | none => ∀ n, c ≤ n → n < bound → contextAt c x n ≠ h
  | some n => c ≤ n ∧ n < bound ∧ contextAt c x n = h ∧ ∀ k, n < k → k < bound → contextAt c x k ≠ h

/-- A byte more at the end of x changes no place up to the old end. -/
theorem LatestEnd.append {c bound : Nat} {x h : List Byte} {o : Option Nat} (hl : LatestEnd c x h bound o) (b : Byte)
    (hbound : bound ≤ x.length + 1) : LatestEnd c (x ++ [b]) h bound o := by
  have hsame : ∀ n, n < bound → contextAt c (x ++ [b]) n = contextAt c x n := fun n hn => contextAt_append b (by omega)
  cases o with
  | none => exact fun n hc hn => hsame n hn ▸ hl n hc hn
  | some n =>
    obtain ⟨hc, hn, heq, hlater⟩ := hl
    exact ⟨hc, hn, (hsame n hn).trans heq, fun k hk hkb => hsame k hkb ▸ hlater k hk hkb⟩

theorem LatestEnd.succ {c bound : Nat} {x h : List Byte} {o : Option Nat} (hl : LatestEnd c x h bound o)
    (hne : contextAt c x bound ≠ h) : LatestEnd c x h (bound + 1) o := by
  have hlast : ∀ k, k < bound + 1 → (k < bound → contextAt c x k ≠ h) → contextAt c x k ≠ h := fun k hk hlt => by
    rcases Nat.lt_succ_iff_lt_or_eq.mp hk with hk | rfl
    · exact hlt hk
    · exact hne
  cases o with
  | none => exact fun n hc hn => hlast n hn (hl n hc)
  | some n =>
    obtain ⟨hc, hn, heq, hlater⟩ := hl
    exact ⟨hc, by omega, heq, fun k hk hkb => hlast k hkb (hlater k hk)⟩

theorem latestEnd_self {c n : Nat} (x : List Byte) (h : c ≤ n) : LatestEnd c x (contextAt c x n) (n + 1) (some n) :=
  ⟨h, Nat.lt_succ_self n, rfl, fun _ hk hkb => absurd hk (by omega)⟩

theorem LatestEnd.isSome_iff {c bound : Nat} {x h : List Byte} {o : Option Nat} (hl : LatestEnd c x h bound o) :
    o.isSome = true ↔ ∃ n, c ≤ n ∧ n < bound ∧ contextAt c x n = h := by
  cases o with
  | none => exact ⟨nofun, fun ⟨n, hc, hn, heq⟩ => absurd heq (hl n hc hn)⟩
  | some n =>
    obtain ⟨hc, hn, heq, -⟩ := hl
    exact ⟨fun _ => ⟨n, hc, hn, heq⟩, fun _ => rfl⟩

/-! ### One byte of a match model (R145, R147) -/

/-- The eight coded bits of a byte and the byte itself. -/
def MatchModel.codeByte (m : MatchModel) (b : Byte) : MatchModel :=
  (m.updateBit.updateBit.updateBit.updateBit.updateBit.updateBit.updateBit.updateBit).updateByte b

@[simp] theorem MatchModel.updateBit_c (m : MatchModel) : m.updateBit.c = m.c := by
  rw [MatchModel.updateBit]
  split_ifs <;> rfl

@[simp] theorem MatchModel.updateBit_buf (m : MatchModel) : m.updateBit.buf = m.buf := by
  rw [MatchModel.updateBit]
  split_ifs <;> rfl

@[simp] theorem MatchModel.updateBit_bufPos (m : MatchModel) : m.updateBit.bufPos = m.bufPos := by
  rw [MatchModel.updateBit]
  split_ifs <;> rfl

@[simp] theorem MatchModel.updateBit_mtab (m : MatchModel) : m.updateBit.mtab = m.mtab := by
  rw [MatchModel.updateBit]
  split_ifs <;> rfl

theorem MatchModel.updateBit_of_no_match {m : MatchModel} (h : m.matchLen = 0) : m.updateBit = m := if_pos h

/-- The byte written to the buffer. -/
def MatchModel.pushByte (m : MatchModel) (b : Byte) : MatchModel :=
  { m with buf := tableSet m.bufPos b m.buf, bufPos := m.bufPos + 1 }

/-- The last c bytes of the buffer. -/
def MatchModel.lastBytes (m : MatchModel) : List Byte := (List.range m.c).map fun j => m.bufAt (m.bufPos - m.c + j)

/-- With fewer than c bytes in the buffer nothing is looked up. -/
theorem MatchModel.updateByte_of_short {m : MatchModel} {b : Byte} (hwrap : m.bufPos + 1 < windowW) (h : m.bufPos + 1 < m.c) :
    m.updateByte b = m.pushByte b := by
  rw [MatchModel.updateByte, Nat.mod_eq_of_lt hwrap]
  exact if_neg (Nat.not_le.mpr h)

/-- The model once its key is looked up with this answer, and the place of the key entered. -/
def MatchModel.matched (m : MatchModel) (found : Option Nat) (key place : Nat) : MatchModel :=
  { m with
    matchPos := found.getD 0, matchLen := if found.isSome then 1 else 0, bitPos := 0, mtab := tableSet key place m.mtab }

/-- With c bytes in the buffer the latest place where they ended is looked up, and this place entered. -/
theorem MatchModel.updateByte_of_full {m : MatchModel} {b : Byte} (hwrap : m.bufPos + 1 < windowW) (h : m.c ≤ m.bufPos + 1) :
    m.updateByte b = (m.pushByte b).matched (tableGet (histKey (m.pushByte b).lastBytes) m.mtab)
      (histKey (m.pushByte b).lastBytes) m.bufPos := by
  have hpush : ({ m with buf := tableSet m.bufPos b m.buf, bufPos := m.bufPos + 1 } : MatchModel) = m.pushByte b := rfl
  have hlast : ((List.range m.c).map fun j => (m.pushByte b).bufAt (m.bufPos + 1 - 1 + 1 - m.c + j)) = (m.pushByte b).lastBytes := rfl
  rw [MatchModel.updateByte, Nat.mod_eq_of_lt hwrap]
  refine (if_pos h).trans ?_
  dsimp only
  rw [hpush, hlast]
  cases tableGet (histKey (m.pushByte b).lastBytes) m.mtab <;> rfl

/-- The live match, as the place where its context ended. -/
def MatchModel.live (m : MatchModel) : Option Nat := if m.matchLen = 0 then none else some (m.matchPos + 1)

theorem MatchModel.live_matched (m : MatchModel) (found : Option Nat) (key place : Nat) :
    (m.matched found key place).live = found.map (· + 1) := by
  cases found <;> rfl

theorem MatchModel.matchLen_matched_le_one (m : MatchModel) (found : Option Nat) (key place : Nat) :
    (m.matched found key place).matchLen ≤ 1 := by
  cases found <;> simp [MatchModel.matched]

/-! ### A match model after the bytes x -/

/-- A match model with context length c that holds x in its buffer, and in its table the latest end of every context of
c bytes. -/
structure MatchModel.Stored (c : Nat) (x : List Byte) (m : MatchModel) : Prop where
  size : m.c = c
  bufPos : m.bufPos = x.length
  buffer : ∀ i, m.bufAt i = x.getD i 0
  table : ∀ h : List Byte, h.length = c → LatestEnd c x h (x.length + 1) ((tableGet (histKey h) m.mtab).map (· + 1))

/-- One that was fed x byte by byte: its live match is the latest end, before the last byte, of the last c bytes. -/
structure MatchModel.Fed (c : Nat) (x : List Byte) (m : MatchModel) : Prop extends MatchModel.Stored c x m where
  bitPos : m.bitPos = 0
  matchLen_le_one : m.matchLen ≤ 1
  live : LatestEnd c x (contextAt c x x.length) x.length m.live

theorem MatchModel.fed_init {c : Nat} (hc : 1 ≤ c) : (MatchModel.init c).Fed c [] where
  size := rfl
  bufPos := rfl
  buffer _ := rfl
  table _ _ := fun n hcn hn => absurd hc (by rw [List.length_nil] at hn; omega)
  bitPos := rfl
  matchLen_le_one := Nat.zero_le 1
  live := fun _ _ hn => absurd hn (Nat.not_lt_zero _)

/-- Coding a bit moves the live match alone. -/
theorem MatchModel.Stored.updateBit {c : Nat} {x : List Byte} {m : MatchModel} (h : m.Stored c x) : m.updateBit.Stored c x where
  size := m.updateBit_c.trans h.size
  bufPos := m.updateBit_bufPos.trans h.bufPos
  buffer i := by rw [MatchModel.bufAt, m.updateBit_buf]; exact h.buffer i
  table hist hlen := m.updateBit_mtab ▸ h.table hist hlen

/-- Before c bytes are in there is no match. -/
theorem MatchModel.Fed.no_match {c : Nat} {x : List Byte} {m : MatchModel} (h : m.Fed c x) (hshort : x.length < c) : m.matchLen = 0 := by
  by_contra hlen
  have hlive := h.live
  rw [MatchModel.live, if_neg hlen] at hlive
  obtain ⟨hc, hn, -⟩ := hlive
  omega

section

variable {c : Nat} {x : List Byte} {m : MatchModel} (h : m.Stored c x) (b : Byte)

include h

theorem MatchModel.Stored.bufAt_pushByte (i : Nat) : (m.pushByte b).bufAt i = (x ++ [b]).getD i 0 := by
  have hbuffer : (tableGet i m.buf).getD 0 = x.getD i 0 := h.buffer i
  rw [MatchModel.bufAt, MatchModel.pushByte, h.bufPos]
  rcases lt_trichotomy i x.length with hi | rfl | hi
  · rw [tableGet_set_other _ _ hi.ne, hbuffer, List.getD_append _ _ _ _ hi]
  · simp [tableGet_set_same]
  · rw [tableGet_set_other _ _ hi.ne', hbuffer, List.getD_eq_default _ _ hi.le, List.getD_eq_default _ _ (by simpa using hi)]

theorem MatchModel.Stored.lastBytes_pushByte (hfull : c ≤ x.length + 1) :
    (m.pushByte b).lastBytes = contextAt c (x ++ [b]) (x.length + 1) := by
  have hlen : x.length + 1 ≤ (x ++ [b]).length := by simp
  refine List.ext_getElem ?_ fun j hj hj' => ?_
  · rw [contextAt_length hlen, min_eq_left hfull, MatchModel.lastBytes, List.length_map, List.length_range]
    exact h.size
  · have hjc : j < c := by simpa [contextAt_length hlen, hfull] using hj'
    have hpos : (m.pushByte b).bufPos - (m.pushByte b).c = x.length + 1 - c := by
      rw [← h.size, ← h.bufPos]
      rfl
    simp only [MatchModel.lastBytes, List.getElem_map, List.getElem_range, hpos, h.bufAt_pushByte b, contextAt, List.getElem_drop,
      List.getElem_take]
    exact List.getD_eq_getElem _ _ _

/-- The contexts that do not end with the new byte keep their latest end. -/
theorem MatchModel.Stored.table_append {hist : List Byte} (hlen : hist.length = c)
    (hne : contextAt c (x ++ [b]) (x.length + 1) ≠ hist) :
    LatestEnd c (x ++ [b]) hist ((x ++ [b]).length + 1) ((tableGet (histKey hist) m.mtab).map (· + 1)) := by
  rw [List.length_append]
  exact ((h.table hist hlen).append b le_rfl).succ hne

/-- With c bytes in, the context that ends with the new byte is looked up, and entered as the latest of its kind. -/
theorem MatchModel.Stored.updateByte_of_full (hwrap : x.length + 1 < windowW) (hfull : c ≤ x.length + 1) :
    (m.updateByte b).Fed c (x ++ [b]) := by
  obtain ⟨ending, hending⟩ : ∃ e, e = contextAt c (x ++ [b]) (x.length + 1) := ⟨_, rfl⟩
  have hlen : ending.length = c := by rw [hending, contextAt_length (by simp), min_eq_left hfull]
  have hfound := (h.table ending hlen).append b le_rfl
  rw [MatchModel.updateByte_of_full (by rwa [h.bufPos]) (by rwa [h.size, h.bufPos]), h.lastBytes_pushByte b hfull, ← hending, h.bufPos]
  refine ⟨⟨h.size, ?_, h.bufAt_pushByte b, fun hist hhist => ?_⟩, rfl, MatchModel.matchLen_matched_le_one .., ?_⟩
  · simp [MatchModel.matched, MatchModel.pushByte, h.bufPos]
  · rw [MatchModel.matched]
    by_cases hne : hist = ending
    · rw [hne, tableGet_set_same, hending, List.length_append]
      exact latestEnd_self _ hfull
    · have hkey : histKey hist ≠ histKey ending := fun hk => hne (histKey_injective_of_length (hhist.trans hlen.symm) hk)
      rw [tableGet_set_other _ _ hkey]
      exact h.table_append b hhist (hending ▸ Ne.symm hne)
  · rw [List.length_append, List.length_singleton, ← hending, MatchModel.live_matched]
    exact hfound

end

/-- With fewer than c bytes in, the byte is stored. -/
theorem MatchModel.Fed.updateByte_of_short {c : Nat} {x : List Byte} {m : MatchModel} (h : m.Fed c x) (b : Byte)
    (hwrap : x.length + 1 < windowW) (hshort : x.length + 1 < c) : (m.updateByte b).Fed c (x ++ [b]) := by
  have hno : m.matchLen = 0 := h.no_match (by omega)
  rw [MatchModel.updateByte_of_short (by rwa [h.bufPos]) (by rwa [h.size, h.bufPos])]
  refine ⟨⟨h.size, ?_, h.bufAt_pushByte b, fun hist hhist => h.table_append b hhist fun heq => ?_⟩, h.bitPos, h.matchLen_le_one, ?_⟩
  · simp [MatchModel.pushByte, h.bufPos]
  · have hlen := congrArg List.length heq
    rw [contextAt_length (by simp)] at hlen
    omega
  · have hlive : (m.pushByte b).live = none := if_pos hno
    rw [hlive]
    intro n hcn hn
    rw [List.length_append, List.length_singleton] at hn
    omega

theorem MatchModel.Fed.codeByte {c : Nat} {x : List Byte} {m : MatchModel} (h : m.Fed c x) (b : Byte) (hwrap : x.length + 1 < windowW) :
    (m.codeByte b).Fed c (x ++ [b]) := by
  rcases Nat.lt_or_ge (x.length + 1) c with hshort | hfull
  · have hno : m.updateBit = m := MatchModel.updateBit_of_no_match (h.no_match (by omega))
    simp only [MatchModel.codeByte, hno]
    exact h.updateByte_of_short b hwrap hshort
  · have hstored := h.toStored.updateBit.updateBit.updateBit.updateBit.updateBit.updateBit.updateBit.updateBit
    exact hstored.updateByte_of_full b hwrap hfull

theorem MatchModel.fed_foldl {c : Nat} (hc : 1 ≤ c) (x : List Byte) (hwrap : x.length < windowW) :
    (x.foldl MatchModel.codeByte (MatchModel.init c)).Fed c x := by
  induction x using List.reverseRecOn with
  | nil => exact fed_init hc
  | append_singleton x b ih =>
    rw [List.length_append, List.length_singleton] at hwrap
    rw [List.foldl_concat]
    exact (ih (by omega)).codeByte b hwrap

theorem MatchModel.Fed.matchLen_eq_one_iff {c : Nat} {x : List Byte} {m : MatchModel} (h : m.Fed c x) :
    m.matchLen = 1 ↔ m.live.isSome = true := by
  have hle := h.matchLen_le_one
  rw [MatchModel.live]
  split_ifs with h0 <;> simp <;> omega

/-- Settles O35. -/
theorem matchModelPredictions : Obligations.MatchModelPredictions := by
  refine ⟨fun m => ⟨MatchModel.predict_of_no_match, MatchModel.predict_of_match⟩, fun c x hc hwrap => ?_⟩
  intro m context
  have h : m.Fed c x := MatchModel.fed_foldl hc x hwrap
  refine ⟨h.bufPos, h.bitPos, h.matchLen_le_one, h.no_match, fun _ => h.matchLen_eq_one_iff.trans h.live.isSome_iff, fun hone => ?_⟩
  have hlive := h.live
  rwa [MatchModel.live, if_neg (by omega)] at hlive

end Sys2Proof.Machine
end
